-- ==== Sys2Proof/Word.lean ====
section
/-! DEFINITION. The plain word types of RCC: 32-bit registers, bytes, 11-bit probability cells (spec/10_state.md R20). -/

namespace Sys2Proof

/-- A 32-bit register or command word. -/
abbrev Word := BitVec 32

/-- A 64-bit register: ENC_LOW, ENC_CSIZE, OUTCNT, INCNT. -/
abbrev Dword := BitVec 64

/-- A byte of the byte-in and byte-out ports. -/
abbrev Byte := BitVec 8

/-- The value of one probability cell, 11 bits (10_state.md R23). -/
abbrev Cell := BitVec 11

end Sys2Proof
end

