-- ==== Sys2Proof/Syntax.lean ====
section
/-! DEFINITION. The commands of RCC, one constructor per row of spec/opcode_table.json (spec/30_encoding.md R86). -/

namespace Sys2Proof

/-- A command as its word W selects it. The field `n` is the bit count N of the eight commands that use it
(30_encoding.md R83). The operands A and V are not in W: they are the latched CMD_A and CMD_V (R82). -/
inductive Instr where
  /-- NOP, OP 0x00, R220. -/
  | nop
  /-- SETPROPS, OP 0x01, R221. -/
  | setProps
  /-- PROB_INIT, OP 0x02, R105. -/
  | probInit
  /-- PROB_WRITE, OP 0x03, R106. -/
  | probWrite
  /-- PROB_READ, OP 0x04, R107. -/
  | probRead
  /-- ENC_INIT, OP 0x08, R125. -/
  | encInit
  /-- ENC_BIT, OP 0x09, R126. -/
  | encBit
  /-- ENC_DIRECT, OP 0x0A, R127. -/
  | encDirect (n : Nat)
  /-- ENC_FLUSH, OP 0x0B, R128. -/
  | encFlush
  /-- ENC_BT, OP 0x0C, R161. -/
  | encBt (n : Nat)
  /-- ENC_BTR, OP 0x0D, R162. -/
  | encBtr (n : Nat)
  /-- ENC_LIT, OP 0x0E, R182. -/
  | encLit
  /-- ENC_LITM, OP 0x0F, R183. -/
  | encLitm
  /-- DEC_INIT, OP 0x10, R144. -/
  | decInit
  /-- DEC_BIT, OP 0x11, R145. -/
  | decBit
  /-- DEC_DIRECT, OP 0x12, R146. -/
  | decDirect (n : Nat)
  /-- DEC_END, OP 0x13, R147. -/
  | decEnd
  /-- DEC_BT, OP 0x14, R163. -/
  | decBt (n : Nat)
  /-- DEC_BTR, OP 0x15, R164. -/
  | decBtr (n : Nat)
  /-- DEC_LIT, OP 0x16, R184. -/
  | decLit
  /-- DEC_LITM, OP 0x17, R185. -/
  | decLitm
  /-- PRICE_BIT, OP 0x18, R110. -/
  | priceBit
  /-- PRICE_BT, OP 0x1C, R165. -/
  | priceBt (n : Nat)
  /-- PRICE_BTR, OP 0x1D, R166. -/
  | priceBtr (n : Nat)
  /-- PRICE_LIT, OP 0x1E, R186. -/
  | priceLit
  /-- PRICE_LITM, OP 0x1F, R187. -/
  | priceLitm
  /-- ST_RESET, OP 0x20, R202. -/
  | stReset
  /-- ST_LIT, OP 0x21, R203. -/
  | stLit
  /-- ST_MATCH, OP 0x22, R204. -/
  | stMatch
  /-- ST_REP, OP 0x23, R205. -/
  | stRep
  /-- ST_SHORTREP, OP 0x24, R206. -/
  | stShortRep
  /-- ST_ISCHAR, OP 0x25, R207. -/
  | stIsChar
  /-- ST_READ, OP 0x26, R208. -/
  | stRead
  /-- CTX_LIT, OP 0x28, R180. -/
  | ctxLit
  /-- CTX_POSSTATE, OP 0x29, R209. -/
  | ctxPosState
  /-- CTX_STPOS, OP 0x2A, R210. -/
  | ctxStPos
deriving DecidableEq, Repr

end Sys2Proof
end

