-- ==== Sys2Proof/WellFormed.lean ====
section
/-! DEFINITION. What makes a command term encodable: its bit count fits the 6-bit field N (spec/30_encoding.md R80). -/

namespace Sys2Proof

/-- The bit count of a command that uses the field N, none for every other command (30_encoding.md R83). -/
def Instr.bitCount : Instr → Option Nat
  | .nop => none
  | .setProps => none
  | .probInit => none
  | .probWrite => none
  | .probRead => none
  | .encInit => none
  | .encBit => none
  | .encDirect n => some n
  | .encFlush => none
  | .encBt n => some n
  | .encBtr n => some n
  | .encLit => none
  | .encLitm => none
  | .decInit => none
  | .decBit => none
  | .decDirect n => some n
  | .decEnd => none
  | .decBt n => some n
  | .decBtr n => some n
  | .decLit => none
  | .decLitm => none
  | .priceBit => none
  | .priceBt n => some n
  | .priceBtr n => some n
  | .priceLit => none
  | .priceLitm => none
  | .stReset => none
  | .stLit => none
  | .stMatch => none
  | .stRep => none
  | .stShortRep => none
  | .stIsChar => none
  | .stRead => none
  | .ctxLit => none
  | .ctxPosState => none
  | .ctxStPos => none

/-- N is "bit count, 0..63" (30_encoding.md R80). The legal range of R83 is no matter of form: `ENC_DIRECT n=0`
decodes and then raises Operand (R88). -/
def Instr.wf (i : Instr) : Bool :=
  match i.bitCount with
  | some n => decide (n < 64)
  | none => true

end Sys2Proof
end

