-- ==== Sys2Proof/Decode.lean ====
section
/-! DEFINITION. Decoding a command word W and encoding a command (spec/30_encoding.md R80, R81, R86, R88). Decoding is
total on 32-bit words and rejects by name; a rejected word raises Illegal when the core runs it (R81). -/

namespace Sys2Proof

/-- Why a word is Illegal: the clauses of 30_encoding.md R81. -/
inductive DecodeError where
  /-- W[7:6] ≠ 0 or W[31:14] ≠ 0. -/
  | reservedBits
  /-- OP is not in the table of R86 (the reserved values of R87). -/
  | reservedOp
  /-- The command does not use N and N ≠ 0. -/
  | unusedCount
deriving DecidableEq, Repr

/-- What the decoder answers. -/
inductive Decoded where
  | ok (i : Instr)
  | illegal (e : DecodeError)
deriving DecidableEq, Repr

/-- The field OP, W[5:0]. -/
def opField (w : Word) : Nat := (w.extractLsb' 0 6).toNat

/-- The field N, W[13:8]. -/
def countField (w : Word) : Nat := (w.extractLsb' 8 6).toNat

/-- The reserved fields W[7:6] and W[31:14] are 0. -/
def reservedClear (w : Word) : Bool := w.extractLsb' 6 2 == 0 && w.extractLsb' 14 18 == 0

/-- A command that does not use N: Illegal unless N = 0 (30_encoding.md R81). -/
def withoutCount (i : Instr) (n : Nat) : Decoded := if n = 0 then .ok i else .illegal .unusedCount

/-- The opcode map of 30_encoding.md R86: OP and N to the command, the reserved OPs of R87 refused. -/
def decodeOp (op n : Nat) : Decoded :=
  match op with
  | 0x00 => withoutCount .nop n
  | 0x01 => withoutCount .setProps n
  | 0x02 => withoutCount .probInit n
  | 0x03 => withoutCount .probWrite n
  | 0x04 => withoutCount .probRead n
  | 0x08 => withoutCount .encInit n
  | 0x09 => withoutCount .encBit n
  | 0x0A => .ok (.encDirect n)
  | 0x0B => withoutCount .encFlush n
  | 0x0C => .ok (.encBt n)
  | 0x0D => .ok (.encBtr n)
  | 0x0E => withoutCount .encLit n
  | 0x0F => withoutCount .encLitm n
  | 0x10 => withoutCount .decInit n
  | 0x11 => withoutCount .decBit n
  | 0x12 => .ok (.decDirect n)
  | 0x13 => withoutCount .decEnd n
  | 0x14 => .ok (.decBt n)
  | 0x15 => .ok (.decBtr n)
  | 0x16 => withoutCount .decLit n
  | 0x17 => withoutCount .decLitm n
  | 0x18 => withoutCount .priceBit n
  | 0x1C => .ok (.priceBt n)
  | 0x1D => .ok (.priceBtr n)
  | 0x1E => withoutCount .priceLit n
  | 0x1F => withoutCount .priceLitm n
  | 0x20 => withoutCount .stReset n
  | 0x21 => withoutCount .stLit n
  | 0x22 => withoutCount .stMatch n
  | 0x23 => withoutCount .stRep n
  | 0x24 => withoutCount .stShortRep n
  | 0x25 => withoutCount .stIsChar n
  | 0x26 => withoutCount .stRead n
  | 0x28 => withoutCount .ctxLit n
  | 0x29 => withoutCount .ctxPosState n
  | 0x2A => withoutCount .ctxStPos n
  | _ => .illegal .reservedOp

/-- Decode a command word (30_encoding.md R81). -/
def decode (w : Word) : Decoded :=
  if reservedClear w then decodeOp (opField w) (countField w) else .illegal .reservedBits

/-- The OP value of a command (30_encoding.md R86). -/
def Instr.opcode : Instr → Nat
  | .nop => 0x00
  | .setProps => 0x01
  | .probInit => 0x02
  | .probWrite => 0x03
  | .probRead => 0x04
  | .encInit => 0x08
  | .encBit => 0x09
  | .encDirect _ => 0x0A
  | .encFlush => 0x0B
  | .encBt _ => 0x0C
  | .encBtr _ => 0x0D
  | .encLit => 0x0E
  | .encLitm => 0x0F
  | .decInit => 0x10
  | .decBit => 0x11
  | .decDirect _ => 0x12
  | .decEnd => 0x13
  | .decBt _ => 0x14
  | .decBtr _ => 0x15
  | .decLit => 0x16
  | .decLitm => 0x17
  | .priceBit => 0x18
  | .priceBt _ => 0x1C
  | .priceBtr _ => 0x1D
  | .priceLit => 0x1E
  | .priceLitm => 0x1F
  | .stReset => 0x20
  | .stLit => 0x21
  | .stMatch => 0x22
  | .stRep => 0x23
  | .stShortRep => 0x24
  | .stIsChar => 0x25
  | .stRead => 0x26
  | .ctxLit => 0x28
  | .ctxPosState => 0x29
  | .ctxStPos => 0x2A

/-- The command word: OP for a command without N, OP | (N << 8) for a command with N (30_encoding.md R86). -/
def encode (i : Instr) : Word := BitVec.ofNat 32 (i.opcode ||| (i.bitCount.getD 0 <<< 8))

/-- The word of the table's numbering: bit 0 is the least significant, every bit at or above nbits is 0. -/
def tableWord (nbits w : Nat) : Word := BitVec.ofNat 32 (w % 2 ^ (min nbits 32))

/-- The command the decoder reads from a row's word, none where it refuses. -/
def decodeTableWord (nbits w : Nat) : Option Instr :=
  match decode (tableWord nbits w) with
  | .ok i => some i
  | .illegal _ => none

end Sys2Proof
end

