-- ==== Sys2Proof/Config.lean ====
section
/-! DEFINITION. What an implementation fixes (spec/00_scope.md R8, spec/20_memory.md R69) and the model's one free value. -/

namespace Sys2Proof

/-- The parameters a model takes. They stand in State (field `cfg`), no step changes them, and a
statement about every state is a statement about every value of them (log 2). -/
structure Config where
  /-- NPROB, the number of probability cells (00_scope.md R8, decision D3). -/
  nprob : Nat
  /-- PRICE_SHIFT, the fractional bits of a price (00_scope.md R8, conflict C1). -/
  priceShift : Nat
  /-- RCC_BASE, the platform address of the register window (20_memory.md R69). -/
  rccBase : Nat
deriving DecidableEq, Repr

/-- The legal parameters: 1 ≤ NPROB ≤ 2^24, and PRICE_SHIFT 4 ("default") or 6 ("a model may set 6"). -/
abbrev Config.wf (c : Config) : Prop :=
  1 ≤ c.nprob ∧ c.nprob ≤ 2 ^ 24 ∧ (c.priceShift = 4 ∨ c.priceShift = 6)

/-- The parameters of State.reset. NPROB = 2^22, the least that "must serve every legal property byte"
(00_scope.md R8), and RCC_BASE = 0 are DESIGN CHOICES (log 2); PRICE_SHIFT = 4 is the spec's default. -/
def Config.standard : Config := { nprob := 2 ^ 22, priceShift := 4, rccBase := 0 }

/-- The value the n-th unspecified read returns: "a read of any register other than STATUS while BUSY = 1
returns an unspecified value (a model draws it)" (10_state.md R40). A free value: it has no body (log 6). -/
opaque Config.freeRead : Nat → Word

end Sys2Proof
end

