-- ==== Sys2Proof/Machine/State.lean ====
section
/-! DEFINITION. The state of RCC as plain data (spec/10_state.md R20, spec/30_encoding.md R82, spec/20_memory.md R61), the
host's pending actions, and the state after reset (spec/70_reset_and_hazards.md R260). -/

namespace Sys2Proof.Machine

/-- MODE (10_state.md R28): which stream is open. The 2-bit value 3 is never held (log 14). -/
inductive Mode where
  | idle
  | enc
  | dec
deriving DecidableEq, Repr

/-- FAULT (60_exceptions.md R231): the code of the first fault not yet cleared. The values 8..15 are never held (log 14). -/
inductive FaultCode where
  | none
  | illegal
  | operand
  | mode
  | config
  | truncated
  | probValue
  | overrun
deriving DecidableEq, Repr

/-- The probability RAM as a sparse list of (index, value), indices strictly rising, no entry equal to the reset
value 1024 that an unlisted cell reads as (log 16). -/
abbrev Memory := List (Nat × Cell)

/-- How far the symbol of a decoding command has come (42_range_decoder.md, 43_bit_tree.md, 44_literal.md). -/
inductive Walk where
  /-- DEC_BIT through cell `a`; `result` is the bit decoded (R145). -/
  | bit (a result : Nat)
  /-- DEC_DIRECT; `result` holds the bits so far (R143). -/
  | direct (result : Word)
  /-- DEC_BT and DEC_LIT; node `m` of the tree of width `n` at `base`, the result is m − 2^n (R163, R184). -/
  | tree (base n m : Nat)
  /-- DEC_BTR; node `m`, next result bit `i`, result so far `s` (R164). -/
  | rev (base i m s : Nat)
  /-- DEC_LITM; node `s`, match byte shifted so that its next bit is bit 7, and whether all bits agreed so far (R185). -/
  | litm (base s : Nat) (mb : Byte) (same : Bool)
deriving DecidableEq, Repr

/-- A command that holds in InByte (20_memory.md R61): what is left of it (log 4). -/
inductive Task where
  /-- DEC_INIT with `left` of its five bytes still to take (42_range_decoder.md R144). -/
  | load (left : Nat)
  /-- A decoding command inside RenormD, with `left` bits still to decode after it (R141). -/
  | walk (left : Nat) (w : Walk)
deriving DecidableEq, Repr

/-- One action of the host (10_state.md R35, 20_memory.md R60, 30_encoding.md R89 and R90). Addresses are platform
byte addresses; the register window begins at RCC_BASE (20_memory.md R69). -/
inductive HostAct where
  /-- A bus write of `width` bytes. -/
  | write (addr width : Nat) (value : Word)
  /-- A bus read of `width` bytes. -/
  | read (addr width : Nat)
  /-- Offer bytes on the byte-in port, in order. -/
  | offer (bytes : List Byte)
  /-- Wait until STATUS.BUSY = 0. -/
  | wait
  /-- Assert the hardware reset. -/
  | hardReset
deriving DecidableEq, Repr

/-- Why the model stops: behaviour the spec gives no end to. -/
inductive Fault where
  /-- Raised by the encoding commands when RenormE is entered with ENC_RANGE = 0: its loop (41_range_encoder.md R122)
  never ends. No run from reset reaches it, since a legal cell never makes the range 0. Safe: the model stops where the
  hardware makes no progress (log 9). -/
  | renormDiverges
deriving DecidableEq, Repr

/-- What the model refuses. -/
inductive Refusal where
  /-- Raised by an arm of exec without a meaning. No arm raises it. Safe. -/
  | notModelled (mnemonic : String)
  /-- Raised by a bus access to the window that is not 32 bits wide at a multiple of 4: it "has no defined effect, and a
  model refuses it" (20_memory.md R65). Safe (log 11). -/
  | badAccess
  /-- Raised by a bus access outside the 256 bytes of the register window, which is no access to RCC (log 11). Safe. -/
  | outsideWindow
deriving DecidableEq, Repr

/-- What a running command works on: its word and the copies the core made of CMD_A and CMD_V when it accepted the word
(30_encoding.md R80, R82). -/
structure Latched where
  /-- W, the command word. -/
  w : Word
  /-- A, the copy of CMD_A. -/
  a : BitVec 24
  /-- V, the copy of CMD_V. -/
  v : Word
deriving DecidableEq, Repr

/-- The machine (INVENTORY.md, State). -/
structure State where
  /-- The parameters NPROB, PRICE_SHIFT, RCC_BASE; no step changes them (log 2). -/
  cfg : Config
  /-- P, the probability RAM (R23). -/
  cells : Memory
  /-- ENC_RANGE (R24). -/
  encRange : Word
  /-- ENC_LOW (R24). -/
  encLow : Dword
  /-- ENC_CACHE (R24). -/
  encCache : Byte
  /-- ENC_CSIZE (R24). -/
  encCsize : Dword
  /-- OUTCNT (R24). -/
  outcnt : Dword
  /-- DEC_RANGE (R25). -/
  decRange : Word
  /-- DEC_CODE (R25). -/
  decCode : Word
  /-- INCNT (R25). -/
  incnt : Dword
  /-- STATE, the token-class state (R26). -/
  state : BitVec 4
  /-- LC (R27). -/
  lc : BitVec 4
  /-- LP (R27). -/
  lp : BitVec 3
  /-- PB (R27). -/
  pb : BitVec 3
  /-- MODE (R28). -/
  mode : Mode
  /-- RES (R29). -/
  res : Word
  /-- CMD_A (R30). -/
  cmdA : BitVec 24
  /-- CMD_V (R30). -/
  cmdV : Word
  /-- FAULT (R31). -/
  fault : FaultCode
  /-- FAULTINFO (R31). -/
  faultInfo : Word
  /-- BUSY (R32). -/
  busy : Bool
  /-- IN_WAIT (R32). -/
  inWait : Bool
  /-- OUT_WAIT (R32); never 1 in the model, whose byte-out port never holds (20_memory.md R62, log 5). -/
  outWait : Bool
  /-- EOI (R33). -/
  eoi : Bool
  /-- The byte-in queue, the next byte first (20_memory.md R61). -/
  inQueue : List Byte
  /-- The byte-out sequence, the first byte emitted first (20_memory.md R62). -/
  outBytes : List Byte
  /-- W, A and V of the command that runs (30_encoding.md R80, R82), "held only during a command" (R42): none when none
  runs. -/
  latched : Option Latched
  /-- The command that holds for a byte, none when none does (20_memory.md R61, log 4). -/
  task : Option Task
  /-- The command index: commands accepted so far (10_state.md R21, log 7). -/
  cmdIndex : Nat
  /-- The host's pending actions, the next one first (10_state.md R21, log 1). -/
  host : List HostAct
  /-- The model's own: the values the host's reads returned, in order (log 20). -/
  reads : List Word
  /-- The model's own: how many unspecified values were drawn (R40, log 6). -/
  freeCtr : Nat
deriving DecidableEq, Repr

/-- The machine right after reset with the parameters `c`: 70_reset_and_hazards.md R260. -/
def State.resetWith (c : Config) : State :=
  { cfg := c
    cells := []
    encRange := 0xFFFFFFFF
    encLow := 0
    encCache := 0
    encCsize := 1
    outcnt := 0
    decRange := 0xFFFFFFFF
    decCode := 0
    incnt := 0
    state := 0
    lc := 3
    lp := 0
    pb := 2
    mode := .idle
    res := 0
    cmdA := 0
    cmdV := 0
    fault := .none
    faultInfo := 0
    busy := false
    inWait := false
    outWait := false
    eoi := false
    inQueue := []
    outBytes := []
    latched := none
    task := none
    cmdIndex := 0
    host := []
    reads := []
    freeCtr := 0 }

/-- The machine right after reset, with the standard parameters (log 2). -/
def State.reset : State := State.resetWith Config.standard

/-- What a meaning and a step answer. -/
abbrev Out := Host.Outcome State Fault Refusal

end Sys2Proof.Machine
end

