-- ==== Sys2Proof/Machine/Ops.lean ====
section
/-! DEFINITION. The named operations over the probability RAM, the registers and the byte ports, raising a fault and
clearing it (spec/10_state.md, spec/20_memory.md, spec/60_exceptions.md, spec/70_reset_and_hazards.md). -/

namespace Sys2Proof.Machine

/-! ### The probability RAM -/

/-- What an unlisted cell reads as: the reset value of every cell (10_state.md R23). -/
def resetCell : Cell := 1024

/-- P[a] (00_scope.md R10). -/
def Memory.read : Memory → Nat → Cell
  | [], _ => resetCell
  | (k, c) :: m, a => if k = a then c else Memory.read m a

/-- P[a] <- v (00_scope.md R10), in canonical form: the reset value is not listed. -/
def Memory.write : Memory → Nat → Cell → Memory
  | [], a, v => if v = resetCell then [] else [(a, v)]
  | (k, c) :: m, a, v =>
    if a < k then (if v = resetCell then (k, c) :: m else (a, v) :: (k, c) :: m)
    else if a = k then (if v = resetCell then m else (a, v) :: m)
    else (k, c) :: Memory.write m a v

/-- P[i] <- 1024 for i from `lo` to `lo + n - 1` (40_probability.md R105): those cells are no longer listed. -/
def Memory.init (m : Memory) (lo n : Nat) : Memory :=
  m.filter fun e => decide (e.1 < lo) || decide (lo + n ≤ e.1)

/-- The canonical form: indices strictly rising, no entry equal to what an unlisted cell reads as. -/
abbrev Memory.wf (m : Memory) : Prop :=
  m.Pairwise (fun x y => x.1 < y.1) ∧ ∀ e ∈ m, e.2 ≠ resetCell

/-- The value of cell `a`. -/
def State.cell (s : State) (a : Nat) : Cell := s.cells.read a

/-- Set cell `a` to `v`. -/
def State.setCell (s : State) (a : Nat) (v : Cell) : State := { s with cells := s.cells.write a v }

/-! ### Registers -/

/-- RES <- v (10_state.md R29). -/
def State.setRes (s : State) (v : Word) : State := { s with res := v }

/-- STATE <- v (10_state.md R26). -/
def State.setState (s : State) (v : BitVec 4) : State := { s with state := v }

/-- MODE <- m (10_state.md R28). -/
def State.setMode (s : State) (m : Mode) : State := { s with mode := m }

/-! ### The life of a command -/

/-- W of the running command (30_encoding.md R80). With no command latched, as no run has it inside a command, 0 (log 13). -/
def State.latW (s : State) : Word := match s.latched with | some l => l.w | none => 0

/-- A of the running command, the copy of CMD_A (30_encoding.md R82). -/
def State.latA (s : State) : BitVec 24 := match s.latched with | some l => l.a | none => 0

/-- V of the running command, the copy of CMD_V (30_encoding.md R82). -/
def State.latV (s : State) : Word := match s.latched with | some l => l.v | none => 0

/-- The core accepts W: it copies CMD_A to A and CMD_V to V and sets BUSY (30_encoding.md R82), and the command index
advances by one (10_state.md R21). -/
def State.launch (s : State) (w : Word) : State :=
  { s with latched := some ⟨w, s.cmdA, s.cmdV⟩, busy := true, cmdIndex := s.cmdIndex + 1 }

/-- "When the command completes or faults, BUSY <- 0" (30_encoding.md R82): no command runs, none holds, and the latched
copies, "held only during a command" (10_state.md R42), are gone. -/
def State.idle (s : State) : State :=
  { s with busy := false, inWait := false, outWait := false, latched := none, task := none }

/-- The command completes. -/
def complete (s : State) : Out := .next s.idle

/-- The command completes with a result, its last action (10_state.md R29). -/
def completeWith (v : Word) (s : State) : Out := complete (s.setRes v)

/-- FAULT <- code and FAULTINFO <- W if FAULT = 0; the first fault wins (60_exceptions.md R230, R239). -/
def State.record (s : State) (c : FaultCode) (w : Word) : State :=
  if s.fault = .none then { s with fault := c, faultInfo := w } else s

/-- `raise F(W)`: record the code and end the command (60_exceptions.md R230). Nothing else changes. -/
def raise (c : FaultCode) (s : State) : Out := complete (s.record c s.latW)

/-- CTRL.CLEAR_FAULT, "the only return" (60_exceptions.md R240). -/
def State.clearFault (s : State) : State := { s with fault := .none, faultInfo := 0 }

/-- The hardware reset and CTRL.SOFT_RESET (70_reset_and_hazards.md R260). The bytes the byte-out port already showed
stay with the host (R261), and so do the host's own pending actions and what it read; the command index goes on (log 7, 20). -/
def State.doReset (s : State) : State :=
  { State.resetWith s.cfg with
    outBytes := s.outBytes, cmdIndex := s.cmdIndex, host := s.host, reads := s.reads, freeCtr := s.freeCtr }

/-! ### The byte ports -/

/-- Append bytes to the byte-out port (20_memory.md R62); for a model the port never holds (log 5). -/
def State.emit (s : State) (bs : List Byte) : State := { s with outBytes := s.outBytes ++ bs }

/-- InByte when the queue is not empty: the first byte goes, `q` stays, INCNT counts it (20_memory.md R61). -/
def State.takeByte (s : State) (q : List Byte) : State := { s with inQueue := q, incnt := s.incnt + 1 }

/-- InByte when the queue is empty and EOI = 0: the command holds with IN_WAIT = 1 (20_memory.md R61). -/
def State.hold (s : State) (t : Task) : State := { s with busy := true, inWait := true, task := some t }

/-- InByte on an empty queue: Truncated if EOI = 1, else a hold (20_memory.md R61). `t` is what is left of the command. -/
def starve (t : Task) (s : State) : Out := if s.eoi then raise .truncated s else .next (s.hold t)

/-- The held command goes on: IN_WAIT <- 0 (20_memory.md R61). -/
def State.unhold (s : State) : State := { s with inWait := false, task := none }

end Sys2Proof.Machine
end

