-- ==== Sys2Proof/Machine/Flags.lean ====
section
/-! DEFINITION. RCC has no flags (spec/10_state.md R34). The flag-like read-outs: ISCHAR, the STATUS word and the PROPS word. -/

namespace Sys2Proof.Machine

/-- isCharState: STATE < 7 (45_state_machine.md R207), recomputed on every read (10_state.md R34). -/
def State.isChar (s : State) : Bool := decide (s.state.toNat < 7)

/-- The 2-bit code of MODE (10_state.md R28). -/
def Mode.code : Mode → Nat
  | .idle => 0
  | .enc => 1
  | .dec => 2

/-- The 4-bit code of FAULT (60_exceptions.md R231). -/
def FaultCode.code : FaultCode → Nat
  | .none => 0
  | .illegal => 1
  | .operand => 2
  | .mode => 3
  | .config => 4
  | .truncated => 5
  | .probValue => 6
  | .overrun => 7

/-- STATUS.FAULTED: 1 iff FAULT ≠ 0 (10_state.md R36). -/
def State.faulted (s : State) : Bool := decide (s.fault ≠ .none)

/-- The STATUS word (10_state.md R36). -/
def State.status (s : State) : Word :=
  BitVec.ofNat 32
    (s.busy.toNat ||| (s.faulted.toNat <<< 1) ||| (s.inWait.toNat <<< 2) ||| (s.outWait.toNat <<< 3) |||
      (s.mode.code <<< 4) ||| (s.eoi.toNat <<< 6) ||| (s.fault.code <<< 8) ||| (s.state.toNat <<< 16) |||
      (s.isChar.toNat <<< 20))

/-- The PROPS word (10_state.md R38). -/
def State.props (s : State) : Word :=
  BitVec.ofNat 32 (s.lc.toNat ||| (s.lp.toNat <<< 4) ||| (s.pb.toNat <<< 8))

end Sys2Proof.Machine
end

