-- ==== Sys2Proof/Machine/Bus.lean ====
section
/-! DEFINITION. The host register window (spec/10_state.md R35 to R40, spec/20_memory.md R65, R68, R69). The write of CMD_W,
which launches a command, is in Run.lean. -/

namespace Sys2Proof.Machine

/-- The window offset of a bus access, or why the model refuses it: RCC has 32-bit accesses at multiples of 4 only
(20_memory.md R65), in the 256 bytes from RCC_BASE (10_state.md R35, 20_memory.md R69; log 11). -/
def windowOffset (c : Config) (addr width : Nat) : Except Refusal Nat :=
  if addr < c.rccBase ∨ c.rccBase + 0x100 ≤ addr then .error .outsideWindow
  else if width = 4 ∧ (addr - c.rccBase) % 4 = 0 then .ok (addr - c.rccBase)
  else .error .badAccess

/-- What a register holds as a read sees it while no command runs (10_state.md R35). Write-only registers and reserved
offsets read 0 (R39). -/
def State.readRegister (s : State) (off : Nat) : Word :=
  match off with
  | 0x04 => s.cmdA.setWidth 32
  | 0x08 => s.cmdV
  | 0x0C => s.res
  | 0x10 => s.status
  | 0x18 => s.props
  | 0x1C => s.faultInfo
  | 0x20 => s.encRange
  | 0x24 => s.encLow.extractLsb' 0 32
  | 0x28 => s.encLow.extractLsb' 32 32
  | 0x2C => s.encCache.setWidth 32
  | 0x30 => s.encCsize.extractLsb' 0 32
  | 0x34 => s.encCsize.extractLsb' 32 32
  | 0x38 => s.outcnt.extractLsb' 0 32
  | 0x3C => s.outcnt.extractLsb' 32 32
  | 0x40 => s.decRange
  | 0x44 => s.decCode
  | 0x48 => s.incnt.extractLsb' 0 32
  | 0x4C => s.incnt.extractLsb' 32 32
  | _ => 0

/-- "A read of any register other than STATUS while BUSY = 1 returns an unspecified value" (10_state.md R40). The reserved
offsets 0x50 to 0xFC hold no register and read 0 at all times (R39, log 6). -/
def State.readUnspecified (s : State) (off : Nat) : Bool := s.busy && off != 0x10 && decide (off < 0x50)

/-- A host read of the register at `off`: the host gets the value, and the core's state does not change (20_memory.md R68). While
BUSY = 1 all 32 bits of the value are free (R40, U1), the reserved bits of CMD_A, ENC_CACHE and PROPS too, which R35, R38 and U5
say read 0; the spec does not say which governs. DESIGN CHOICE, safe (log 6). -/
def State.readBus (s : State) (off : Nat) : State :=
  if s.readUnspecified off then
    { s with reads := s.reads ++ [Config.freeRead s.freeCtr], freeCtr := s.freeCtr + 1 }
  else { s with reads := s.reads ++ [s.readRegister off] }

/-- A write of CTRL: bits that are 1 act in the order SOFT_RESET, CLEAR_FAULT, CLEAR_EOI, SET_EOI (10_state.md R37). -/
def State.writeCtrl (s : State) (v : Word) : State :=
  let s := if v.getLsbD 0 then s.doReset else s
  let s := if v.getLsbD 1 then s.clearFault else s
  let s := if v.getLsbD 3 then { s with eoi := false } else s
  if v.getLsbD 2 then { s with eoi := true } else s

/-- A host write of any register but CMD_W: CMD_A stores bits [23:0], CMD_V and CTRL take all, and a write of a read-only
register or a reserved offset has no effect (10_state.md R39). -/
def State.writeRegister (s : State) (off : Nat) (v : Word) : State :=
  match off with
  | 0x04 => { s with cmdA := v.setWidth 24 }
  | 0x08 => { s with cmdV := v }
  | 0x14 => s.writeCtrl v
  | _ => s

/-- Offer bytes on the byte-in port: they join the end of the queue, also after EOI (20_memory.md R61, decision D26). -/
def State.offerBytes (s : State) (bs : List Byte) : State := { s with inQueue := s.inQueue ++ bs }

end Sys2Proof.Machine
end

