-- ==== Sys2Proof/Machine/Operands.lean ====
section
/-! DEFINITION. The operand fields of a command and their checks (spec/30_encoding.md R83, R85). "No field is sign-extended,
scaled or shifted on assembly", and sums are computed without truncation, so operands are natural numbers. -/

namespace Sys2Proof.Machine

/-- A, the latched cell index. -/
def State.a (s : State) : Nat := s.latA.toNat

/-- V, the latched value. -/
def State.v (s : State) : Nat := s.latV.toNat

/-- V[7:0]: the symbol of a literal command, the properties byte of SETPROPS, the previous byte of CTX_LIT. -/
def State.lowByte (s : State) : Nat := (s.latV.extractLsb' 0 8).toNat

/-- V[15:8]: the match byte of a matched literal command. -/
def State.matchByte (s : State) : Byte := s.latV.extractLsb' 8 8

/-- V[31:8]: position[23:0] of CTX_LIT. -/
def State.position24 (s : State) : Nat := (s.latV.extractLsb' 8 24).toNat

/-- V[0] as the bit of ENC_BIT and PRICE_BIT. -/
def State.bitOperand (s : State) : Bool := s.latV.getLsbD 0

/-- Legal N of a bit-tree command: 1..16 (30_encoding.md R83). -/
abbrev treeCountOk (n : Nat) : Prop := 1 ≤ n ∧ n ≤ 16

/-- Legal N of a direct-bit command: 1..32 (30_encoding.md R83). -/
abbrev directCountOk (n : Nat) : Prop := 1 ≤ n ∧ n ≤ 32

/-- "A range" of the commands on one cell: A < NPROB. -/
abbrev State.cellInRam (s : State) : Prop := s.a < s.cfg.nprob

/-- "A range" of a bit-tree command: A + 2^N ≤ NPROB. -/
abbrev State.treeInRam (s : State) (n : Nat) : Prop := s.a + 2 ^ n ≤ s.cfg.nprob

/-- "A range" of a literal command: A + 0x300 ≤ NPROB. -/
abbrev State.literalInRam (s : State) : Prop := s.a + 0x300 ≤ s.cfg.nprob

/-- "A range" and "V check" of PROB_INIT: V ≥ 1 and A + V ≤ NPROB. -/
abbrev State.countInRam (s : State) : Prop := 1 ≤ s.v ∧ s.a + s.v ≤ s.cfg.nprob

/-- "V check" of a value of `k` bits: V < 2^k. -/
abbrev State.valueFits (s : State) (k : Nat) : Prop := s.v < 2 ^ k

/-- The operands of ENC_BIT and PRICE_BIT: A < NPROB and V ∈ (0, 1). -/
abbrev State.bitOk (s : State) : Prop := s.cellInRam ∧ s.valueFits 1

/-- The operands of DEC_BT and DEC_BTR. -/
abbrev State.treeOk (s : State) (n : Nat) : Prop := treeCountOk n ∧ s.treeInRam n

/-- The operands of ENC_BT, ENC_BTR, PRICE_BT and PRICE_BTR. -/
abbrev State.treeSymbolOk (s : State) (n : Nat) : Prop := s.treeOk n ∧ s.valueFits n

/-- The operands of ENC_DIRECT: N in 1..32 and V < 2^N, which any V meets when N = 32. -/
abbrev State.directOk (s : State) (n : Nat) : Prop := directCountOk n ∧ s.valueFits n

/-- The operands of ENC_LIT and PRICE_LIT. -/
abbrev State.literalOk (s : State) : Prop := s.literalInRam ∧ s.valueFits 8

/-- The operands of ENC_LITM, PRICE_LITM and DEC_LITM. -/
abbrev State.matchedOk (s : State) : Prop := s.literalInRam ∧ s.valueFits 16

end Sys2Proof.Machine
end

