-- ==== Sys2Proof/Machine/Control.lean ====
section
/-! DEFINITION. The control commands NOP and SETPROPS (spec/46_control.md). -/

namespace Sys2Proof.Machine

/-- LC, LP, PB from a properties byte `d` = (pb * 5 + lp) * 9 + lc (R221). -/
def State.loadProps (s : State) (d : Nat) : State :=
  { s with
    lc := BitVec.ofNat 4 (d % 9)
    lp := BitVec.ofNat 3 (d / 9 % 5)
    pb := BitVec.ofNat 3 (d / 45) }

/-- NOP (R220). -/
def execNop (s : State) : Out := complete s

/-- SETPROPS (R221). -/
def execSetProps (s : State) : Out :=
  if s.mode ≠ .idle then raise .mode s
  else if ¬ s.valueFits 8 then raise .operand s
  else if 225 ≤ s.lowByte then raise .config s
  else complete (s.loadProps s.lowByte)

end Sys2Proof.Machine
end

