-- ==== Sys2Proof/Machine/Prob.lean ====
section
/-! DEFINITION. Probability cells and prices, and the commands PROB_INIT, PROB_WRITE, PROB_READ, PRICE_BIT
(spec/40_probability.md). -/

namespace Sys2Proof.Machine

/-- Bound(range, p) = (range >> 11) * p (R101); the product of a 21-bit and an 11-bit number fits in 32 bits. -/
def bound (range : Word) (p : Cell) : Word := (range >>> 11) * p.setWidth 32

/-- The cell value after a bit has been coded through a cell of value `p` (R103). -/
def adapt (p : Cell) (bit : Bool) : Cell :=
  if bit then BitVec.ofNat 11 (p.toNat - p.toNat >>> 5)
  else BitVec.ofNat 11 (p.toNat + (2048 - p.toNat) >>> 5)

/-- Update(a, bit) (R103). -/
def State.adaptCell (s : State) (a : Nat) (bit : Bool) : State := s.setCell a (adapt (s.cell a) bit)

/-- One entry of the price table as the loop of R108 computes it in its round `i`. -/
def priceInRound (shift i j : Nat) : Nat := (i <<< shift) + (((2 ^ (9 - i) - j) <<< shift) >>> (8 - i))

/-- The rounds i - 1 downto 0 of the loop of R108, looked up at index `j`: round i fills 2^(8-i) to 2^(9-i) - 1. -/
def priceFromRound (shift : Nat) : Nat → Nat → Nat
  | 0, _ => 0
  | i + 1, j =>
    if 2 ^ (8 - i) ≤ j ∧ j < 2 ^ (9 - i) then priceInRound shift i j else priceFromRound shift i j

/-- The price table PT (R108): PT[0] = 0, and the rounds i = 8 downto 0 fill the indices 1 to 511. -/
def priceTable (shift j : Nat) : Nat := priceFromRound shift 9 j

/-- Price(p, bit) (R109). -/
def price (shift : Nat) (p : Cell) (bit : Bool) : Nat :=
  if bit then priceTable shift ((2048 - p.toNat) >>> 2) else priceTable shift (p.toNat >>> 2)

/-- The price of coding `bit` through cell `a`. -/
def State.priceOf (s : State) (a : Nat) (bit : Bool) : Nat := price s.cfg.priceShift (s.cell a) bit

/-- The price of a walk: the sum over its (cell, bit) pairs (43_bit_tree.md R165, 44_literal.md R186). -/
def State.pricePath (s : State) (path : List (Nat × Bool)) : Nat := (path.map fun e => s.priceOf e.1 e.2).sum

/-- The command completes with a price in RES. -/
def completePrice (path : List (Nat × Bool)) (s : State) : Out :=
  completeWith (BitVec.ofNat 32 (s.pricePath path)) s

/-- PROB_INIT (R105): set the cells A .. A + V - 1 to 1024. -/
def execProbInit (s : State) : Out :=
  if s.countInRam then complete { s with cells := s.cells.init s.a s.v } else raise .operand s

/-- PROB_WRITE (R106): set cell A to V, 1 ≤ V ≤ 2047. -/
def execProbWrite (s : State) : Out :=
  if ¬ s.cellInRam then raise .operand s
  else if s.v < 1 ∨ 2047 < s.v then raise .probValue s
  else complete (s.setCell s.a (s.latV.setWidth 11))

/-- PROB_READ (R107): RES <- P[A]. -/
def execProbRead (s : State) : Out :=
  if s.cellInRam then completeWith ((s.cell s.a).setWidth 32) s else raise .operand s

/-- PRICE_BIT (R110): RES <- Price(P[A], V[0]). -/
def execPriceBit (s : State) : Out :=
  if s.bitOk then completePrice [(s.a, s.bitOperand)] s else raise .operand s

end Sys2Proof.Machine
end

