-- ==== Sys2Proof/Machine/Decoder.lean ====
section
/-! DEFINITION. The range decoder: RenormD, DecodeBit, DecodeDirect, the walk of a decoding command bit by bit with its holds,
and the commands DEC_INIT, DEC_BIT, DEC_DIRECT, DEC_END (spec/42_range_decoder.md, spec/20_memory.md R61). -/

namespace Sys2Proof.Machine

/-- DEC_CODE <- ((DEC_CODE << 8) | b) mod 2^32 (R141, R144). -/
def State.shiftCode (s : State) (b : Byte) : State := { s with decCode := (s.decCode <<< 8) ||| b.setWidth 32 }

/-- One round of the loop of RenormD whose InByte took `b` and left `q` (R141). -/
def State.renormByte (s : State) (b : Byte) (q : List Byte) : State :=
  { (s.takeByte q).shiftCode b with decRange := s.decRange <<< 8 }

/-- The loop of RenormD over the bytes of the queue: whether DEC_RANGE reached 2^24, or else the queue ran out (R141). -/
def renormOver : List Byte → State → Bool × State
  | [], s => (decide (2 ^ 24 ≤ s.decRange.toNat), s)
  | b :: q, s => if 2 ^ 24 ≤ s.decRange.toNat then (true, s) else renormOver q (s.renormByte b q)

/-- RenormD (R141): (true, s) when it ended, (false, s) when its InByte found the queue empty; the byte is taken before
DEC_CODE and DEC_RANGE change, so `s` is the state before the failing round (R149). -/
def State.renormD (s : State) : Bool × State := renormOver s.inQueue s

/-- DecodeBit(a) up to RenormD (R142): the bit and the state after Update. -/
def State.decodeSplit (s : State) (a : Nat) : Bool × State :=
  let b := bound s.decRange (s.cell a)
  if s.decCode.toNat < b.toNat then (false, { s with decRange := b }.adaptCell a false)
  else (true, { s with decRange := s.decRange - b, decCode := s.decCode - b }.adaptCell a true)

/-- One bit of DecodeDirect up to RenormD (R143): the sign bit of DEC_CODE - DEC_RANGE decides. -/
def State.decodeHalf (s : State) : Bool × State :=
  let r := s.decRange >>> 1
  if (s.decCode - r).msb then (false, { s with decRange := r })
  else (true, { s with decRange := r, decCode := s.decCode - r })

/-- The cell the next bit goes through, none for a direct bit. -/
def Walk.cell : Walk → Option Nat
  | .bit a _ => some a
  | .direct _ => none
  | .tree base _ m => some (base + m)
  | .rev base _ m _ => some (base + m)
  | .litm base s mb same => some (if same then base + ((1 + mb.msb.toNat) <<< 8) + s else base + s)

/-- The walk after one more decoded bit: R145, R143, R163 and R184, R164, R185. -/
def Walk.advance (w : Walk) (bit : Bool) : Walk :=
  match w with
  | .bit a _ => .bit a bit.toNat
  | .direct r => .direct ((r <<< 1) ||| (BitVec.ofBool bit).setWidth 32)
  | .tree base n m => .tree base n (2 * m + bit.toNat)
  | .rev base i m s => .rev base (i + 1) (2 * m + bit.toNat) (s ||| (bit.toNat <<< i))
  | .litm base s mb same => .litm base (2 * s + bit.toNat) (mb <<< 1) (same && mb.msb == bit)

/-- What the command returns in RES once the walk is done. -/
def Walk.result : Walk → Word
  | .bit _ r => BitVec.ofNat 32 r
  | .direct r => r
  | .tree _ n m => BitVec.ofNat 32 (m - 2 ^ n)
  | .rev _ _ _ s => BitVec.ofNat 32 s
  | .litm _ s _ _ => BitVec.ofNat 32 (s - 0x100)

/-- Decode the walk's next bit up to RenormD. -/
def Walk.split (w : Walk) (s : State) : Bool × State :=
  match w.cell with
  | some a => s.decodeSplit a
  | none => s.decodeHalf

/-- Decode `left` more bits and complete, or hold, or raise Truncated. The walk moves on before RenormD, which reads
none of it (log 4). -/
def runWalk : Nat → Walk → State → Out
  | 0, w, s => completeWith w.result s
  | left + 1, w, s =>
    let d := w.split s
    let r := d.2.renormD
    if r.1 then runWalk left (w.advance d.1) r.2 else starve (.walk left (w.advance d.1)) r.2

/-- Go on with a walk that held in RenormD: perform RenormD's InByte again (20_memory.md R61). -/
def resumeWalk (left : Nat) (w : Walk) (s : State) : Out :=
  let r := s.renormD
  if r.1 then runWalk left w r.2 else starve (.walk left w) r.2

/-- DEC_INIT with `left` bytes to take (R144). -/
def loadCode : Nat → State → Out
  | 0, s => complete (s.setMode .dec)
  | left + 1, s =>
    match s.inQueue with
    | b :: q => loadCode left ((s.takeByte q).shiftCode b)
    | [] => starve (.load (left + 1)) s

/-- Go on with a held command (20_memory.md R61). -/
def resume (t : Task) (s : State) : Out :=
  match t with
  | .load left => loadCode left s.unhold
  | .walk left w => resumeWalk left w s.unhold

/-- DEC_INIT (R144): open a decoder stream by loading five bytes. -/
def execDecInit (s : State) : Out :=
  if s.mode ≠ .idle then raise .mode s
  else loadCode 5 { s with decRange := 0xFFFFFFFF, decCode := 0, incnt := 0 }

/-- DEC_BIT (R145): decode one bit through cell A. -/
def execDecBit (s : State) : Out :=
  if s.mode ≠ .dec then raise .mode s
  else if ¬ s.cellInRam then raise .operand s
  else runWalk 1 (.bit s.a 0) s

/-- DEC_DIRECT (R146): decode N raw bits. -/
def execDecDirect (n : Nat) (s : State) : Out :=
  if s.mode ≠ .dec then raise .mode s
  else if ¬ directCountOk n then raise .operand s
  else runWalk n (.direct 0) s

/-- DEC_END (R147): close the decoder stream. -/
def execDecEnd (s : State) : Out :=
  if s.mode ≠ .dec then raise .mode s else complete (s.setMode .idle)

end Sys2Proof.Machine
end

