-- ==== Sys2Proof/Machine/Encoder.lean ====
section
/-! DEFINITION. The range encoder: ShiftLow, RenormE, EncodeBit, EncodeDirect, and the commands ENC_INIT, ENC_BIT,
ENC_DIRECT, ENC_FLUSH (spec/41_range_encoder.md). -/

namespace Sys2Proof.Machine

/-- The bytes held back, with the carry `hi` added: ENC_CACHE, then ENC_CSIZE - 1 bytes of 0xFF (R121). -/
def heldBytes (cache hi : Byte) : Nat → List Byte
  | 0 => []
  | n + 1 => (cache + hi) :: List.replicate n (0xFF + hi)

/-- The emitting half of ShiftLow (R121): the held bytes go out and the top byte of ENC_LOW becomes ENC_CACHE. -/
def State.releaseHeld (s : State) : State :=
  { s.emit (heldBytes s.encCache (s.encLow.extractLsb' 32 8) s.encCsize.toNat) with
    outcnt := s.outcnt + s.encCsize
    encCsize := 0
    encCache := s.encLow.extractLsb' 24 8 }

/-- The test of ShiftLow (R121): a carry is present, or the top byte of ENC_LOW is not 0xFF. -/
def State.carryKnown (s : State) : Bool := s.encLow.extractLsb' 32 8 != 0 || decide (s.encLow.toNat < 0xFF000000)

/-- ShiftLow (R121). -/
def State.shiftLow (s : State) : State :=
  let r := if s.carryKnown then s.releaseHeld else s
  { r with encCsize := r.encCsize + 1, encLow := (r.encLow &&& 0xFFFFFF) <<< 8 }

/-- At most `k` rounds of the loop of RenormE (R122); none if the range is still below 2^24 after them. -/
def State.renormRounds : Nat → State → Option State
  | 0, s => if s.encRange.toNat < 2 ^ 24 then none else some s
  | k + 1, s =>
    if s.encRange.toNat < 2 ^ 24 then State.renormRounds k { s with encRange := s.encRange <<< 8 }.shiftLow
    else some s

/-- RenormE (R122). Three rounds bring every range but 0 to 2^24; for ENC_RANGE = 0 the loop never ends: none (log 9). -/
def State.renormE (s : State) : Option State := State.renormRounds 3 s

/-- The split of EncodeBit (R123): bit 0 takes the lower part of the interval, bit 1 the upper (40_probability.md R102). -/
def State.encodeSplit (s : State) (a : Nat) (bit : Bool) : State :=
  let b := bound s.encRange (s.cell a)
  if bit then { s with encLow := s.encLow + b.setWidth 64, encRange := s.encRange - b }
  else { s with encRange := b }

/-- EncodeBit(a, bit) (R123): split, Update, RenormE. -/
def State.encodeBit (s : State) (a : Nat) (bit : Bool) : Option State :=
  ((s.encodeSplit a bit).adaptCell a bit).renormE

/-- EncodeBit along a walk, pair by pair. -/
def State.encodePath : List (Nat × Bool) → State → Option State
  | [], s => some s
  | (a, bit) :: path, s =>
    match s.encodeBit a bit with
    | some t => State.encodePath path t
    | none => none

/-- The halving of EncodeDirect for one bit (R124). -/
def State.directSplit (s : State) (bit : Bool) : State :=
  let r := s.encRange >>> 1
  if bit then { s with encLow := s.encLow + r.setWidth 64, encRange := r } else { s with encRange := r }

/-- EncodeDirect(v, n) (R124): the `n` low bits of `v`, most significant first. -/
def State.encodeDirect (v : Nat) : Nat → State → Option State
  | 0, s => some s
  | i + 1, s =>
    match (s.directSplit (v.testBit i)).renormE with
    | some t => State.encodeDirect v i t
    | none => none

/-- An encoding command completes, or stops where RenormE never ends (log 9). -/
def finishEncode : Option State → Out
  | some s => complete s
  | none => .fault .renormDiverges

/-- An encoding command through a walk of cells. -/
def encodeAlong (path : List (Nat × Bool)) (s : State) : Out := finishEncode (State.encodePath path s)

/-- ENC_INIT (R125): open an encoder stream. -/
def execEncInit (s : State) : Out :=
  if s.mode ≠ .idle then raise .mode s
  else complete
    { s with encRange := 0xFFFFFFFF, encLow := 0, encCache := 0, encCsize := 1, outcnt := 0, mode := .enc }

/-- ENC_BIT (R126): encode V[0] through cell A. -/
def execEncBit (s : State) : Out :=
  if s.mode ≠ .enc then raise .mode s
  else if ¬ s.bitOk then raise .operand s
  else encodeAlong [(s.a, s.bitOperand)] s

/-- ENC_DIRECT (R127): encode the N low bits of V with probability one half. -/
def execEncDirect (n : Nat) (s : State) : Out :=
  if s.mode ≠ .enc then raise .mode s
  else if ¬ s.directOk n then raise .operand s
  else finishEncode (State.encodeDirect s.v n s)

/-- ENC_FLUSH (R128): five times ShiftLow, then MODE <- IDLE. -/
def execEncFlush (s : State) : Out :=
  if s.mode ≠ .enc then raise .mode s
  else complete (s.shiftLow.shiftLow.shiftLow.shiftLow.shiftLow.setMode .idle)

end Sys2Proof.Machine
end

