-- ==== Sys2Proof/Machine/BitTree.lean ====
section
/-! DEFINITION. The bit-tree coder: the walks of R160 and the commands ENC_BT, ENC_BTR, DEC_BT, DEC_BTR, PRICE_BT, PRICE_BTR
(spec/43_bit_tree.md). -/

namespace Sys2Proof.Machine

/-- The MSB-first walk of the bits i - 1 downto 0 of `v` from node `m` (R161, R165): the (cell, bit) pairs. -/
def treePath (base v : Nat) : Nat → Nat → List (Nat × Bool)
  | 0, _ => []
  | i + 1, m => (base + m, v.testBit i) :: treePath base v i (2 * m + (v.testBit i).toNat)

/-- The LSB-first walk of `k` bits of `s` from node `m` (R162, R166): the (cell, bit) pairs. -/
def reversePath (base : Nat) : Nat → Nat → Nat → List (Nat × Bool)
  | 0, _, _ => []
  | k + 1, s, m => (base + m, s.testBit 0) :: reversePath base k (s >>> 1) (2 * m + (s.testBit 0).toNat)

/-- ENC_BT (R161): encode an N-bit symbol MSB-first. -/
def execEncBt (n : Nat) (s : State) : Out :=
  if s.mode ≠ .enc then raise .mode s
  else if ¬ s.treeSymbolOk n then raise .operand s
  else encodeAlong (treePath s.a s.v n 1) s

/-- ENC_BTR (R162): encode an N-bit symbol LSB-first. -/
def execEncBtr (n : Nat) (s : State) : Out :=
  if s.mode ≠ .enc then raise .mode s
  else if ¬ s.treeSymbolOk n then raise .operand s
  else encodeAlong (reversePath s.a n s.v 1) s

/-- DEC_BT (R163): decode an N-bit symbol MSB-first. -/
def execDecBt (n : Nat) (s : State) : Out :=
  if s.mode ≠ .dec then raise .mode s
  else if ¬ s.treeOk n then raise .operand s
  else runWalk n (.tree s.a n 1) s

/-- DEC_BTR (R164): decode an N-bit symbol LSB-first. -/
def execDecBtr (n : Nat) (s : State) : Out :=
  if s.mode ≠ .dec then raise .mode s
  else if ¬ s.treeOk n then raise .operand s
  else runWalk n (.rev s.a 0 1 0) s

/-- PRICE_BT (R165): the price of an N-bit symbol coded MSB-first. -/
def execPriceBt (n : Nat) (s : State) : Out :=
  if ¬ s.treeSymbolOk n then raise .operand s else completePrice (treePath s.a s.v n 1) s

/-- PRICE_BTR (R166): the price of an N-bit symbol coded LSB-first. -/
def execPriceBtr (n : Nat) (s : State) : Out :=
  if ¬ s.treeSymbolOk n then raise .operand s else completePrice (reversePath s.a n s.v 1) s

end Sys2Proof.Machine
end

