-- ==== Sys2Proof/Machine/Literal.lean ====
section
/-! DEFINITION. The literal coder: CTX_LIT, the matched walk of R181 and R183, and the commands ENC_LIT, ENC_LITM, DEC_LIT,
DEC_LITM, PRICE_LIT, PRICE_LITM (spec/44_literal.md). -/

namespace Sys2Proof.Machine

/-- The normal walk of a byte through the 8-bit tree at `base`: the cell visits of a bit-tree of width 8 (R182, R186). -/
def literalPath (base sym : Nat) : List (Nat × Bool) := treePath base sym 8 1

/-- The matched walk of the bits i - 1 downto 0 of `sym` against `mb` from node `ctx` (R183): while all bits so far agreed
(`same`) a bit goes through the tree its match bit selects, later bits through the normal tree. -/
def matchedFrom (base sym : Nat) (mb : Nat) : Nat → Nat → Bool → List (Nat × Bool)
  | 0, _, _ => []
  | i + 1, ctx, same =>
    (base + (if same then ctx + ((1 + (mb.testBit i).toNat) <<< 8) else ctx), sym.testBit i) ::
      matchedFrom base sym mb i (2 * ctx + (sym.testBit i).toNat) (same && mb.testBit i == sym.testBit i)

/-- The matched walk of a byte (R183, R187). -/
def matchedPath (base sym mb : Nat) : List (Nat × Bool) := matchedFrom base sym mb 8 1 true

/-- CTX_LIT (R180): RES <- ((pos & (2^LP - 1)) << LC) | (prev >> (8 - LC)). -/
def execCtxLit (s : State) : Out :=
  completeWith
    (BitVec.ofNat 32
      (((s.position24 &&& (2 ^ s.lp.toNat - 1)) <<< s.lc.toNat) ||| (s.lowByte >>> (8 - s.lc.toNat)))) s

/-- ENC_LIT (R182): encode one byte through the normal tree. -/
def execEncLit (s : State) : Out :=
  if s.mode ≠ .enc then raise .mode s
  else if ¬ s.literalOk then raise .operand s
  else encodeAlong (literalPath s.a s.lowByte) s

/-- ENC_LITM (R183): encode one byte against a match byte. -/
def execEncLitm (s : State) : Out :=
  if s.mode ≠ .enc then raise .mode s
  else if ¬ s.matchedOk then raise .operand s
  else encodeAlong (matchedPath s.a s.lowByte s.matchByte.toNat) s

/-- DEC_LIT (R184): decode one byte through the normal tree. -/
def execDecLit (s : State) : Out :=
  if s.mode ≠ .dec then raise .mode s
  else if ¬ s.literalInRam then raise .operand s
  else runWalk 8 (.tree s.a 8 1) s

/-- DEC_LITM (R185): decode one byte against a match byte. -/
def execDecLitm (s : State) : Out :=
  if s.mode ≠ .dec then raise .mode s
  else if ¬ s.matchedOk then raise .operand s
  else runWalk 8 (.litm s.a 1 s.matchByte true) s

/-- PRICE_LIT (R186): the price of a byte through the normal tree. -/
def execPriceLit (s : State) : Out :=
  if ¬ s.literalOk then raise .operand s else completePrice (literalPath s.a s.lowByte) s

/-- PRICE_LITM (R187): the price of a byte against a match byte. -/
def execPriceLitm (s : State) : Out :=
  if ¬ s.matchedOk then raise .operand s
  else completePrice (matchedPath s.a s.lowByte s.matchByte.toNat) s

end Sys2Proof.Machine
end

