-- ==== Sys2Proof/Machine/TokenState.lean ====
section
/-! DEFINITION. The token-class state machine and the position contexts: ST_RESET, ST_LIT, ST_MATCH, ST_REP, ST_SHORTREP,
ST_ISCHAR, ST_READ, CTX_POSSTATE, CTX_STPOS (spec/45_state_machine.md). The transition functions are the closed forms of
R201; what they give for the values 12 to 15, which STATE never holds, is the closed form's (log 15). -/

namespace Sys2Proof.Machine

/-- afterLiteral (R201): 0 if s < 4, s - 3 if 4 ≤ s < 10, s - 6 if s ≥ 10. -/
def afterLiteral (s : BitVec 4) : BitVec 4 := if s.toNat < 4 then 0 else if s.toNat < 10 then s - 3 else s - 6

/-- afterMatch (R201). -/
def afterMatch (s : BitVec 4) : BitVec 4 := if s.toNat < 7 then 7 else 10

/-- afterRep (R201). -/
def afterRep (s : BitVec 4) : BitVec 4 := if s.toNat < 7 then 8 else 11

/-- afterShortRep (R201). -/
def afterShortRep (s : BitVec 4) : BitVec 4 := if s.toNat < 7 then 9 else 11

/-- posState: V & (2^PB - 1) (R209). -/
def State.posState (s : State) : Nat := s.v &&& (2 ^ s.pb.toNat - 1)

/-- ST_RESET (R202). -/
def execStReset (s : State) : Out := complete (s.setState 0)

/-- ST_LIT (R203). -/
def execStLit (s : State) : Out := complete (s.setState (afterLiteral s.state))

/-- ST_MATCH (R204). -/
def execStMatch (s : State) : Out := complete (s.setState (afterMatch s.state))

/-- ST_REP (R205). -/
def execStRep (s : State) : Out := complete (s.setState (afterRep s.state))

/-- ST_SHORTREP (R206). -/
def execStShortRep (s : State) : Out := complete (s.setState (afterShortRep s.state))

/-- ST_ISCHAR (R207): RES <- 1 if STATE < 7 else 0. -/
def execStIsChar (s : State) : Out := completeWith (if s.isChar then 1 else 0) s

/-- ST_READ (R208): RES <- STATE. -/
def execStRead (s : State) : Out := completeWith (s.state.setWidth 32) s

/-- CTX_POSSTATE (R209): RES <- V & (2^PB - 1). -/
def execCtxPosState (s : State) : Out := completeWith (BitVec.ofNat 32 s.posState) s

/-- CTX_STPOS (R210): RES <- (STATE << 4) | (V & (2^PB - 1)). -/
def execCtxStPos (s : State) : Out := completeWith (BitVec.ofNat 32 ((s.state.toNat <<< 4) ||| s.posState)) s

end Sys2Proof.Machine
end

