-- ==== Sys2Proof/Machine/Dispatch.lean ====
section
/-! DEFINITION. One arm per command: the meaning the core runs once it has accepted the command's word (spec/30_encoding.md R82, R86). -/

namespace Sys2Proof.Machine

def exec (i : Instr) (s : State) : Host.Outcome State Fault Refusal :=
  match i with
  | .nop => Sys2Proof.Machine.execNop s
  | .setProps => Sys2Proof.Machine.execSetProps s
  | .probInit => Sys2Proof.Machine.execProbInit s
  | .probWrite => Sys2Proof.Machine.execProbWrite s
  | .probRead => Sys2Proof.Machine.execProbRead s
  | .encInit => Sys2Proof.Machine.execEncInit s
  | .encBit => Sys2Proof.Machine.execEncBit s
  | .encDirect n => Sys2Proof.Machine.execEncDirect n s
  | .encFlush => Sys2Proof.Machine.execEncFlush s
  | .encBt n => Sys2Proof.Machine.execEncBt n s
  | .encBtr n => Sys2Proof.Machine.execEncBtr n s
  | .encLit => Sys2Proof.Machine.execEncLit s
  | .encLitm => Sys2Proof.Machine.execEncLitm s
  | .decInit => Sys2Proof.Machine.execDecInit s
  | .decBit => Sys2Proof.Machine.execDecBit s
  | .decDirect n => Sys2Proof.Machine.execDecDirect n s
  | .decEnd => Sys2Proof.Machine.execDecEnd s
  | .decBt n => Sys2Proof.Machine.execDecBt n s
  | .decBtr n => Sys2Proof.Machine.execDecBtr n s
  | .decLit => Sys2Proof.Machine.execDecLit s
  | .decLitm => Sys2Proof.Machine.execDecLitm s
  | .priceBit => Sys2Proof.Machine.execPriceBit s
  | .priceBt n => Sys2Proof.Machine.execPriceBt n s
  | .priceBtr n => Sys2Proof.Machine.execPriceBtr n s
  | .priceLit => Sys2Proof.Machine.execPriceLit s
  | .priceLitm => Sys2Proof.Machine.execPriceLitm s
  | .stReset => Sys2Proof.Machine.execStReset s
  | .stLit => Sys2Proof.Machine.execStLit s
  | .stMatch => Sys2Proof.Machine.execStMatch s
  | .stRep => Sys2Proof.Machine.execStRep s
  | .stShortRep => Sys2Proof.Machine.execStShortRep s
  | .stIsChar => Sys2Proof.Machine.execStIsChar s
  | .stRead => Sys2Proof.Machine.execStRead s
  | .ctxLit => Sys2Proof.Machine.execCtxLit s
  | .ctxPosState => Sys2Proof.Machine.execCtxPosState s
  | .ctxStPos => Sys2Proof.Machine.execCtxStPos s

end Sys2Proof.Machine
end

