-- ==== Sys2Proof/Machine/Run.lean ====
section
/-! DEFINITION. One step of RCC: a held command goes on, or the host's next action takes effect (spec/30_encoding.md R82,
spec/60_exceptions.md R236, R237, R247, spec/20_memory.md R61, R68, R72). -/

namespace Sys2Proof.Machine

/-- Run an accepted word: Illegal if it does not decode, else the command it selects (30_encoding.md R81, R82). -/
def runLaunched (w : Word) (s : State) : Out :=
  match decode w with
  | .ok i => exec i s
  | .illegal _ => raise .illegal s

/-- A host write of CMD_W: dropped while FAULT ≠ 0 (60_exceptions.md R236), an Overrun while BUSY = 1 (R237), else accepted
and run (30_encoding.md R82). -/
def writeCommand (w : Word) (s : State) : Out :=
  if s.fault ≠ .none then .next s
  else if s.busy then .next (s.record .overrun w)
  else runLaunched w (s.launch w)

/-- The host's next action, already taken off the list. -/
def hostAction (act : HostAct) (s : State) : Out :=
  match act with
  | .write addr width v =>
    match windowOffset s.cfg addr width with
    | .ok off => if off = 0 then writeCommand v s else .next (s.writeRegister off v)
    | .error r => .refused r
  | .read addr width =>
    match windowOffset s.cfg addr width with
    | .ok off => .next (s.readBus off)
    | .error r => .refused r
  | .offer bs => .next (s.offerBytes bs)
  | .wait => .next (if s.busy then { s with host := .wait :: s.host } else s)
  | .hardReset => .next s.doReset

/-- The host's turn. With nothing pending "all state persists while idle" (60_exceptions.md R246), and a hold never times
out (R247): the step changes nothing (log 12). -/
def hostTurn (s : State) : Out :=
  match s.host with
  | [] => .next s
  | act :: rest => hostAction act { s with host := rest }

/-- "A hold is lifted only by the host: offering a byte or setting EOI lifts an input hold" (60_exceptions.md R247). -/
def State.canGoOn (s : State) : Bool := !s.inQueue.isEmpty || s.eoi

/-- One step. A command that holds and can go on goes on before the host's next action (log 3). -/
def advance (s : State) : Out :=
  match s.task with
  | some t => if s.canGoOn then resume t s else hostTurn s
  | none => hostTurn s

/-- The state in which the very next step runs the word `w` written to CMD_W: the write is the host's next action, and
nothing bars its acceptance (BUSY = 0, no held command, FAULT = 0; 30_encoding.md R82, log 1). -/
def State.withCommand (s : State) (w : Word) : State :=
  { s with
    host := .write s.cfg.rccBase 4 w :: s.host
    busy := false, inWait := false, task := none, fault := .none }

end Sys2Proof.Machine
end

