-- ==== Sys2Proof/Machine/Step.lean ====
section
/-! DEFINITION. The step function and how one word is placed to be run next (spec/10_state.md R21). -/

namespace Sys2Proof.Machine

/-- One step of the machine. -/
def step (s : State) : Host.Outcome State Fault Refusal := advance s

/-- `s` with the word `w` of `nbits` bits placed where the next step takes its command from (log 1). -/
def State.withFetchWord (s : State) (nbits w : Nat) : State := s.withCommand (tableWord nbits w)

end Sys2Proof.Machine
end

