-- ==== Sys2Proof/Machine/Pseudo.lean ====
section
/-! DEFINITION. The decoding procedures as the spec's pseudocode writes them, for a queue that holds every byte they take: none
where an InByte would find the queue empty. The claims compare the commands, which can hold, with these. And the walks of the
coding commands as the spec describes them, node by node, and whole encoder and decoder streams as the host issues them. -/

namespace Sys2Proof.Machine

/-- DecodeBit(a) (42_range_decoder.md R142). -/
def State.decodeBit (s : State) (a : Nat) : Option (Bool × State) :=
  let d := s.decodeSplit a
  if d.2.renormD.1 then some (d.1, d.2.renormD.2) else none

/-- DecodeDirect(n) with the bits so far in `result` (42_range_decoder.md R143). -/
def State.decodeDirect : Nat → Word → State → Option (Word × State)
  | 0, result, s => some (result, s)
  | n + 1, result, s =>
    let d := s.decodeHalf
    if d.2.renormD.1 then
      State.decodeDirect n ((result <<< 1) ||| (BitVec.ofBool d.1).setWidth 32) d.2.renormD.2
    else none

/-- The loop of DEC_BT and DEC_LIT: `m <- (m << 1) + DecodeBit(A + m)`, `n` times (43_bit_tree.md R163, 44_literal.md R184). -/
def State.decodeTree (base : Nat) : Nat → Nat → State → Option (Nat × State)
  | 0, m, s => some (m, s)
  | n + 1, m, s =>
    match s.decodeBit (base + m) with
    | some (bit, t) => State.decodeTree base n (2 * m + bit.toNat) t
    | none => none

/-- The loop of DEC_BTR for the `n` bits from bit `i` on (43_bit_tree.md R164). -/
def State.decodeReverse (base : Nat) : Nat → Nat → Nat → Nat → State → Option (Nat × State)
  | 0, _, _, acc, s => some (acc, s)
  | n + 1, i, m, acc, s =>
    match s.decodeBit (base + m) with
    | some (bit, t) => State.decodeReverse base n (i + 1) (2 * m + bit.toNat) (acc ||| (bit.toNat <<< i)) t
    | none => none

/-- The two loops of DEC_LITM, `n` bits to go: matched until a bit disagrees, then normal (44_literal.md R185). -/
def State.decodeMatched (base : Nat) : Nat → Byte → Nat → State → Option (Nat × State)
  | 0, _, x, s => some (x, s)
  | n + 1, mb, x, s =>
    match s.decodeBit (base + ((1 + mb.msb.toNat) <<< 8) + x) with
    | some (bit, t) =>
      if mb.msb ≠ bit then State.decodeTree base n (2 * x + bit.toNat) t
      else State.decodeMatched base n (mb <<< 1) (2 * x + bit.toNat) t
    | none => none

/-- The node at depth `k` of a walk that codes `bits 0`, `bits 1`, ...: 1 followed by the bits already coded, the first-coded
bit most significant (43_bit_tree.md R160). -/
def treeNode (bits : Nat → Bool) : Nat → Nat
  | 0 => 1
  | k + 1 => 2 * treeNode bits k + (bits k).toNat

/-- The (cell, bit) pairs of a walk of `n` bits through the tree at `base` (43_bit_tree.md R160). -/
def treeWalk (base n : Nat) (bits : Nat → Bool) : List (Nat × Bool) :=
  (List.range n).map fun k => (base + treeNode bits k, bits k)

/-- The (cell, bit) pairs of a matched walk of eight bits: depth `k` uses the tree of match bit `k` while all earlier bits
agreed, the normal tree after (44_literal.md R181, R183). -/
def matchedWalk (base : Nat) (bits mbits : Nat → Bool) : List (Nat × Bool) :=
  (List.range 8).map fun k =>
    (base + (if ∀ j < k, mbits j = bits j then treeNode bits k + ((1 + (mbits k).toNat) <<< 8) else treeNode bits k), bits k)

/-- Bit `k` in the MSB-first order of an `n`-bit symbol. -/
def msbFirst (v n : Nat) (k : Nat) : Bool := v.testBit (n - 1 - k)

/-- Bit `k` in the LSB-first order. -/
def lsbFirst (v : Nat) (k : Nat) : Bool := v.testBit k

/-! ### Where the bytes run out (42_range_decoder.md R149) -/

/-- DecodeBit(a) from `t` finds the byte-in queue empty in RenormD and leaves `u`: the interval split, the cell updated, the rounds
of RenormD that had a byte done, and the failing round not begun. -/
def State.bitDry (t : State) (a : Nat) (u : State) : Prop := (t.decodeSplit a).2.renormD = (false, u)

/-- One bit of DecodeDirect from `t` finds the queue empty in RenormD and leaves `u`. -/
def State.halfDry (t u : State) : Prop := t.decodeHalf.2.renormD = (false, u)

/-- The command `i` finds the byte-in queue empty and leaves `u`: some bits decoded as its pseudocode says, then a bit whose RenormD
had no byte; or, for DEC_INIT, the bytes there were loaded. The node of a reverse walk is that of the bits so far; a matched walk uses
the match byte's tree while the node is that of the match byte's top bits. -/
def runsDry (i : Instr) (s u : State) : Prop :=
  let a := s.latA.toNat
  match i with
  | .decInit =>
    s.inQueue.length < 5 ∧
      u = { s with
        decRange := 0xFFFFFFFF, inQueue := [], incnt := BitVec.ofNat 64 s.inQueue.length
        decCode := s.inQueue.foldl (fun c b => (c <<< 8) ||| b.setWidth 32) 0 }
  | .decBit => s.bitDry a u
  | .decDirect n => ∃ k < n, ∃ v t, State.decodeDirect k 0 s = some (v, t) ∧ t.halfDry u
  | .decBt n => ∃ k < n, ∃ m t, State.decodeTree a k 1 s = some (m, t) ∧ t.bitDry (a + m) u
  | .decBtr n =>
    ∃ k < n, ∃ v t, State.decodeReverse a k 0 1 0 s = some (v, t) ∧ t.bitDry (a + treeNode (lsbFirst v) k) u
  | .decLit => ∃ k < 8, ∃ m t, State.decodeTree a k 1 s = some (m, t) ∧ t.bitDry (a + m) u
  | .decLitm =>
    let mb := (s.latV.extractLsb' 8 8).toNat
    ∃ k < 8, ∃ m t, State.decodeMatched a k (s.latV.extractLsb' 8 8) 1 s = some (m, t) ∧
      t.bitDry (a + if m = (0x100 + mb) / 2 ^ (8 - k) then ((1 + (mb.testBit (7 - k)).toNat) <<< 8) + m else m) u
  | .nop | .setProps | .probInit | .probWrite | .probRead | .encInit | .encBit | .encDirect _ | .encFlush | .encBt _ | .encBtr _
  | .encLit | .encLitm | .decEnd | .priceBit | .priceBt _ | .priceBtr _ | .priceLit | .priceLitm | .stReset | .stLit | .stMatch
  | .stRep | .stShortRep | .stIsChar | .stRead | .ctxLit | .ctxPosState | .ctxStPos => False

/-- What InByte on an empty queue makes of the command `i` in the state `u`: it holds with BUSY = IN_WAIT = 1 if EOI = 0, and
raises Truncated if EOI = 1 (20_memory.md R61). -/
def holdsOrTruncates (i : Instr) (s u : State) : Prop :=
  (s.eoi = false → ∃ k, exec i s = .next { u with busy := true, inWait := true, task := some k }) ∧
    (s.eoi = true → exec i s = raise .truncated u)

/-! ### How a command is encoded -/

/-- A command without N is encoded by its OP alone, and with N ≠ 0 the word is Illegal (30_encoding.md R81, R86). -/
def encodedAs (i : Instr) (op : Nat) : Prop :=
  decode (BitVec.ofNat 32 op) = .ok i ∧ ∀ w : Word, opField w = op → countField w ≠ 0 → ∃ e, decode w = .illegal e

/-- A command with N is encoded by its OP and N (30_encoding.md R81, R86). -/
def encodedWith (f : Nat → Instr) (op : Nat) : Prop :=
  ∀ w : Word, reservedClear w = true → opField w = op → decode w = .ok (f (countField w))

/-! ### Streams (42_range_decoder.md R148) -/

/-- The kinds of coding command, each an encoding command and the decoding command that mirrors it. -/
inductive CodingKind where
  | bit
  | direct (n : Nat)
  | bt (n : Nat)
  | btr (n : Nat)
  | lit
  | litm
deriving DecidableEq, Repr

/-- One coding command of a stream with the encoder's operands. -/
structure Coding where
  kind : CodingKind
  a : BitVec 24
  v : Word
deriving DecidableEq, Repr

/-- The encoding command. -/
def Coding.encoder (c : Coding) : Instr :=
  match c.kind with
  | .bit => .encBit
  | .direct n => .encDirect n
  | .bt n => .encBt n
  | .btr n => .encBtr n
  | .lit => .encLit
  | .litm => .encLitm

/-- The decoding command that mirrors it. -/
def Coding.decoder (c : Coding) : Instr :=
  match c.kind with
  | .bit => .decBit
  | .direct n => .decDirect n
  | .bt n => .decBt n
  | .btr n => .decBtr n
  | .lit => .decLit
  | .litm => .decLitm

/-- The decoder's operand V: the match byte of a matched literal, else nothing. -/
def Coding.decoderV (c : Coding) : Word :=
  match c.kind with
  | .litm => c.v &&& 0xFF00
  | _ => 0

/-- What the command codes: the bit, the value, the symbol, the byte. -/
def Coding.value (c : Coding) : Word :=
  match c.kind with
  | .litm => c.v &&& 0xFF
  | _ => c.v

/-- The operand checks of the encoding command (30_encoding.md R83, R85). -/
def Coding.legal (c : Coding) (nprob : Nat) : Prop :=
  match c.kind with
  | .bit => c.a.toNat < nprob ∧ c.v.toNat < 2
  | .direct n => 1 ≤ n ∧ n ≤ 32 ∧ c.v.toNat < 2 ^ n
  | .bt n => 1 ≤ n ∧ n ≤ 16 ∧ c.a.toNat + 2 ^ n ≤ nprob ∧ c.v.toNat < 2 ^ n
  | .btr n => 1 ≤ n ∧ n ≤ 16 ∧ c.a.toNat + 2 ^ n ≤ nprob ∧ c.v.toNat < 2 ^ n
  | .lit => c.a.toNat + 0x300 ≤ nprob ∧ c.v.toNat < 2 ^ 8
  | .litm => c.a.toNat + 0x300 ≤ nprob ∧ c.v.toNat < 2 ^ 16

/-- The host writes CMD_A, CMD_V and CMD_W and the command completes: the state then; none if it does not complete. -/
def issue (i : Instr) (a : BitVec 24) (v : Word) (s : State) : Option State :=
  match exec i (State.launch { s with cmdA := a, cmdV := v } (encode i)) with
  | .next t => if t.fault = .none ∧ t.busy = false then some t else none
  | .fault _ => none
  | .refused _ => none

/-- Encode the commands in order. -/
def encodeAll : List Coding → State → Option State
  | [], s => some s
  | c :: cs, s =>
    match issue c.encoder c.a c.v s with
    | some t => encodeAll cs t
    | none => none

/-- Decode the commands in order: the values returned in RES, and the state. -/
def decodeAll : List Coding → State → Option (List Word × State)
  | [], s => some ([], s)
  | c :: cs, s =>
    match issue c.decoder c.a c.decoderV s with
    | some t =>
      match decodeAll cs t with
      | some (vs, u) => some (t.res :: vs, u)
      | none => none
    | none => none

/-- ENC_INIT, then the commands. -/
def encodeOpen (cs : List Coding) (s : State) : Option State := (issue .encInit 0 0 s).bind (encodeAll cs)

/-- DEC_INIT, then the commands. -/
def decodeOpen (cs : List Coding) (s : State) : Option (List Word × State) := (issue .decInit 0 0 s).bind (decodeAll cs)

/-- A whole encoder stream: ENC_INIT, the commands, ENC_FLUSH. -/
def encodeStream (cs : List Coding) (s : State) : Option State := (encodeOpen cs s).bind (issue .encFlush 0 0)

end Sys2Proof.Machine
end

