-- ==== Sys2Proof/Safety.lean ====
section
/-! DEFINITION. What holds between steps of every run (spec/10_state.md R41, spec/41_range_encoder.md R129,
spec/93_implementation_defined.md U15), in the terms the claims use. -/

namespace Sys2Proof.Machine

/-- The cells a walk with `left` bits to go can still reach lie below NPROB: the node of a tree of width n with `left`
bits to go is below 2^(n - left + 1) (43_bit_tree.md R160, 44_literal.md R181). -/
def Walk.inRam (nprob left : Nat) : Walk → Bool
  | .bit a _ => decide (a < nprob)
  | .direct _ => true
  | .tree base n m => decide (base + 2 ^ n ≤ nprob ∧ (m + 1) * 2 ^ left ≤ 2 ^ (n + 1))
  | .rev base i m _ => decide (base + 2 ^ (i + left) ≤ nprob ∧ (m + 1) * 2 ^ left ≤ 2 ^ (i + left + 1))
  | .litm base s _ _ => decide (base + 0x300 ≤ nprob ∧ (s + 1) * 2 ^ left ≤ 2 ^ 9)

/-- A held command fits the state it holds in: DEC_INIT holds in IDLE with a byte to take, a decoding command in DEC, inside
RenormD, so with DEC_RANGE < 2^24 (42_range_decoder.md R141, 20_memory.md R61), and with its cells in RAM. -/
def Task.fits (s : State) : Task → Bool
  | .load left => decide (s.mode = .idle ∧ 1 ≤ left ∧ left ≤ 5)
  | .walk left w => decide (s.mode = .dec ∧ s.decRange.toNat < 2 ^ 24) && w.inRam s.cfg.nprob left

/-- The probability RAM: in canonical form, every listed cell below NPROB, every value at least 1 and so in 1..2047
(10_state.md R23, R41). -/
abbrev State.memoryOk (s : State) : Prop :=
  Memory.wf s.cells ∧ ∀ e ∈ s.cells, e.1 < s.cfg.nprob ∧ e.2 ≠ 0

/-- STATE ∈ 0..11 and LC ≤ 8, LP ≤ 4, PB ≤ 4 (10_state.md R26, R27, R41). -/
abbrev State.fieldsOk (s : State) : Prop :=
  s.state.toNat ≤ 11 ∧ s.lc.toNat ≤ 8 ∧ s.lp.toNat ≤ 4 ∧ s.pb.toNat ≤ 4

/-- The encoder's interval: 2^24 ≤ ENC_RANGE and ENC_LOW + ENC_RANGE < 2^33 (10_state.md R41, 41_range_encoder.md R129). -/
abbrev State.intervalOk (s : State) : Prop :=
  2 ^ 24 ≤ s.encRange.toNat ∧ s.encLow.toNat + s.encRange.toNat < 2 ^ 33

/-- The decoder's range: 2^24 ≤ DEC_RANGE (10_state.md R41), also outside mode DEC, but while a decoding command holds inside
RenormD. A Truncated fault breaks it (42_range_decoder.md R149), so that it is no part of the invariant: R41 speaks of command
sequences that raise no fault. -/
abbrev State.decoderOk (s : State) : Prop := 2 ^ 24 ≤ s.decRange.toNat ∨ ∃ left w, s.task = some (.walk left w)

/-- BUSY = 1 between steps exactly while a command holds, and then IN_WAIT = 1; OUT_WAIT = 0 (60_exceptions.md R237, R247);
copies are latched exactly while BUSY = 1 (R42). -/
abbrev State.runOk (s : State) : Prop :=
  s.busy = s.task.isSome ∧ s.inWait = s.busy ∧ s.outWait = false ∧
    s.latched.isSome = s.busy

/-- The invariant of every run. -/
structure State.Inv (s : State) : Prop where
  cfg : s.cfg.wf
  memory : s.memoryOk
  fields : s.fieldsOk
  interval : s.mode = .enc → s.intervalOk
  run : s.runOk
  task : ∀ t ∈ s.task, t.fits s = true

/-- What a command finds when it runs: the invariant but for the life of the command itself. -/
structure State.Ready (s : State) : Prop where
  cfg : s.cfg.wf
  memory : s.memoryOk
  fields : s.fieldsOk
  interval : s.mode = .enc → s.intervalOk

/-- Nothing holds, or what holds cannot go on, so that a step is the host's turn. -/
abbrev State.hostMoves (s : State) : Prop := s.task = none ∨ s.canGoOn = false

end Sys2Proof.Machine
end

