-- ==== Sys2Proof/Certificates/Slice0/Obligations.lean ====
section
/-! DEFINITION. The statements for the provers: encoding, the host interface, faults, reset, cells and prices, the range
encoder and decoder, bit-trees, literals, the token state, frames, and the invariant. `encodedAs i op` and `encodedWith f op` say
how a command is encoded; `s.idle` is `s` with the command ended (BUSY and the waits 0, nothing latched, no hold: R82, R42);
`s.latA` and `s.latV` are the operands A and V of the command that runs. -/

open Sys2Proof Sys2Proof.Machine

/-! ### Encoding (spec/30_encoding.md) -/

/-- Every well-formed command decodes back from its word, with its bit count at every value the field admits. -/
def Obligations.DecodeOfEncode : Prop :=
  ∀ i : Instr, i.wf = true → decode (encode i) = .ok i

/-- R81: exactly when a word is Illegal, and that a legal word selects the row whose OP it holds: it is the word of the command it
decodes to, so no two words decode alike. -/
def Obligations.IllegalWordsExactly : Prop :=
  (∀ w : Word, (∃ e, decode w = .illegal e) ↔
    (w.extractLsb' 6 2 ≠ 0 ∨ w.extractLsb' 14 18 ≠ 0 ∨
      (w.extractLsb' 0 6).toNat ∉
        [0x00, 0x01, 0x02, 0x03, 0x04, 0x08, 0x09, 0x0A, 0x0B, 0x0C, 0x0D, 0x0E, 0x0F, 0x10, 0x11, 0x12, 0x13, 0x14,
          0x15, 0x16, 0x17, 0x18, 0x1C, 0x1D, 0x1E, 0x1F, 0x20, 0x21, 0x22, 0x23, 0x24, 0x25, 0x26, 0x28, 0x29, 0x2A] ∨
      ((w.extractLsb' 0 6).toNat ∉ [0x0A, 0x0C, 0x0D, 0x12, 0x14, 0x15, 0x1C, 0x1D] ∧ w.extractLsb' 8 6 ≠ 0))) ∧
  ∀ (w : Word) (i : Instr), decode w = .ok i →
    i.opcode = (w.extractLsb' 0 6).toNat ∧ (∀ n ∈ i.bitCount, n = (w.extractLsb' 8 6).toNat) ∧ i.wf = true ∧ encode i = w

/-- Words of each family, written out from the opcode map and the vectors of spec/95_test_vectors.md. -/
def Obligations.SampleWordsDecode : Prop :=
  decode 0x00000000 = .ok .nop ∧ decode 0x00000003 = .ok .probWrite ∧ decode 0x0000180A = .ok (.encDirect 24) ∧
    decode 0x0000110C = .ok (.encBt 17) ∧ decode 0x00001812 = .ok (.decDirect 24) ∧
    decode 0x00000017 = .ok .decLitm ∧ decode 0x0000101C = .ok (.priceBt 16) ∧ decode 0x00000026 = .ok .stRead ∧
    decode 0x0000002A = .ok .ctxStPos ∧ decode 0x00000005 = .illegal .reservedOp ∧
    decode 0x00000109 = .illegal .unusedCount ∧ decode 0x00000040 = .illegal .reservedBits

/-! ### The host interface (spec/10_state.md, spec/20_memory.md, spec/30_encoding.md R82, spec/60_exceptions.md) -/

/-- R82: when the host's next action writes a word that decodes to CMD_W and the core accepts it, the step copies CMD_A and
CMD_V, sets BUSY, advances the command index, and runs the command. -/
def Obligations.StepRunsDecodedCommand : Prop :=
  ∀ (s : State) (rest : List HostAct) (w : Word) (i : Instr),
    s.hostMoves → s.host = .write s.cfg.rccBase 4 w :: rest → s.busy = false → s.fault = .none → decode w = .ok i →
    step s = exec i
      { s with host := rest, latched := some ⟨w, s.cmdA, s.cmdV⟩, busy := true, cmdIndex := s.cmdIndex + 1 }

/-- An accepted word that does not decode raises Illegal and changes nothing else (R81, R230, R234); it counts as accepted. -/
def Obligations.IllegalWordFaults : Prop :=
  ∀ (s : State) (rest : List HostAct) (w : Word),
    s.hostMoves → s.host = .write s.cfg.rccBase 4 w :: rest → s.busy = false → s.fault = .none →
    (∃ e, decode w = .illegal e) →
    step s = .next
      { s.idle with host := rest, fault := .illegal, faultInfo := w, cmdIndex := s.cmdIndex + 1 }

/-- R236: while FAULT ≠ 0 a command word is dropped, and writes of CMD_A, CMD_V and CTRL act as usual. -/
def Obligations.CommandWordDroppedWhileFaulted : Prop :=
  ∀ (s : State) (rest : List HostAct) (w : Word), s.hostMoves → s.fault ≠ .none →
    (s.host = .write s.cfg.rccBase 4 w :: rest → step s = .next { s with host := rest }) ∧
    (s.host = .write (s.cfg.rccBase + 0x04) 4 w :: rest → step s = .next { s with host := rest, cmdA := w.setWidth 24 }) ∧
    (s.host = .write (s.cfg.rccBase + 0x08) 4 w :: rest → step s = .next { s with host := rest, cmdV := w }) ∧
    (s.host = .write (s.cfg.rccBase + 0x14) 4 w :: rest → step s = .next (State.writeCtrl { s with host := rest } w))

/-- R237: a word written while BUSY = 1 and FAULT = 0 is an Overrun and is discarded, the running command stays as it is, and
a fault it raises later does not change FAULT or FAULTINFO. In a state of the invariant BUSY = 1 only while a command holds. -/
def Obligations.OverrunDiscardsWord : Prop :=
  (∀ (s : State) (rest : List HostAct) (w : Word),
    s.hostMoves → s.host = .write s.cfg.rccBase 4 w :: rest → s.busy = true → s.fault = .none →
    step s = .next { s with host := rest, fault := .overrun, faultInfo := w }) ∧
  (∀ (s : State) (c : FaultCode), s.fault = .overrun → raise c s = .next s.idle) ∧
  ∀ s : State, s.Inv → s.busy = true → s.inWait = true ∧ s.task.isSome = true

/-- R230 and R239: raising a fault records the code and the command word unless a fault is pending, ends the command, and
changes nothing else; completing ends the command and changes nothing else. Ending it sets BUSY and the waits to 0 and drops the
latched copies and the hold (R82, R42). -/
def Obligations.CommandEndsByRaiseOrCompletion : Prop :=
  ∀ (s : State) (c : FaultCode),
    raise c s = .next
      { s with
        fault := if s.fault = .none then c else s.fault
        faultInfo := if s.fault = .none then s.latW else s.faultInfo
        busy := false, inWait := false, outWait := false, latched := none, task := none } ∧
    complete s = .next
      { s with busy := false, inWait := false, outWait := false, latched := none, task := none }

/-- R260, R261, R262: the hardware reset and CTRL.SOFT_RESET give every register, cell and port its reset value, whatever runs
or holds, and leave the bytes already shown on the byte-out port; STATUS and PROPS then read 0x00100000 and 0x00000203. -/
def Obligations.ResetRestoresEverything : Prop :=
  ∀ (s : State) (rest : List HostAct), s.hostMoves →
    (s.host = .hardReset :: rest ∨ s.host = .write (s.cfg.rccBase + 0x14) 4 1 :: rest) →
    ∃ t, step s = .next t ∧ (∀ a, t.cell a = 1024) ∧ t.status = 0x00100000 ∧ t.props = 0x00000203 ∧
      t = { t with
        cells := [], encRange := 0xFFFFFFFF, encLow := 0, encCache := 0, encCsize := 1, outcnt := 0,
        decRange := 0xFFFFFFFF, decCode := 0, incnt := 0, state := 0, lc := 3, lp := 0, pb := 2, mode := .idle,
        res := 0, cmdA := 0, cmdV := 0, fault := .none, faultInfo := 0, busy := false, inWait := false,
        outWait := false, eoi := false, inQueue := [], latched := none, task := none,
        cfg := s.cfg, outBytes := s.outBytes, host := rest }

/-- R37: a step whose host action writes CTRL does writeCtrl, whatever runs, holds or is pending; the bits of the write act in the
order SOFT_RESET, CLEAR_FAULT, CLEAR_EOI, SET_EOI; bits [31:4] are ignored; CTRL reads 0. -/
def Obligations.CtrlActsInOrder : Prop :=
  (∀ (s : State) (rest : List HostAct) (v : Word), s.hostMoves → s.host = .write (s.cfg.rccBase + 0x14) 4 v :: rest →
    step s = .next (State.writeCtrl { s with host := rest } v)) ∧
  (∀ s : State, s.readRegister 0x14 = 0) ∧
  ∀ (s : State) (v : Word),
    s.writeCtrl v =
      { (if v.getLsbD 0 then s.doReset else s) with
        fault := if v.getLsbD 0 || v.getLsbD 1 then .none else s.fault
        faultInfo := if v.getLsbD 0 || v.getLsbD 1 then 0 else s.faultInfo
        eoi := v.getLsbD 2 || (s.eoi && !v.getLsbD 0 && !v.getLsbD 3) }

/-- The register map of R35 as a host read sees it while no command runs: each offset gives its register's contents, and the
read changes nothing of the core (20_memory.md R68). -/
def Obligations.RegisterMapReads : Prop :=
  ∀ (s : State) (rest : List HostAct) (off : Nat) (v : Word), s.hostMoves → s.busy = false →
    s.host = .read (s.cfg.rccBase + off) 4 :: rest →
    (off, v) ∈ [(0x04, s.cmdA.setWidth 32), (0x08, s.cmdV), (0x0C, s.res), (0x10, s.status), (0x18, s.props),
      (0x1C, s.faultInfo), (0x20, s.encRange), (0x24, s.encLow.extractLsb' 0 32), (0x28, s.encLow.extractLsb' 32 32),
      (0x2C, s.encCache.setWidth 32), (0x30, s.encCsize.extractLsb' 0 32), (0x34, s.encCsize.extractLsb' 32 32),
      (0x38, s.outcnt.extractLsb' 0 32), (0x3C, s.outcnt.extractLsb' 32 32), (0x40, s.decRange), (0x44, s.decCode),
      (0x48, s.incnt.extractLsb' 0 32), (0x4C, s.incnt.extractLsb' 32 32)] →
    step s = .next { s with host := rest, reads := s.reads ++ [v] }

/-- R36 and R38: the fields of STATUS and of PROPS, their reserved bits, and their values at reset; with the number of each MODE
(R28) and of each FAULT (R231) written out. -/
def Obligations.StatusAndPropsFields : Prop :=
  (∀ s : State,
    let mode := s.status.extractLsb' 4 2
    (s.mode = .idle → mode = 0) ∧ (s.mode = .enc → mode = 1) ∧ (s.mode = .dec → mode = 2)) ∧
  (∀ s : State,
    let fault := s.status.extractLsb' 8 4
    (s.fault = .none → fault = 0) ∧ (s.fault = .illegal → fault = 1) ∧ (s.fault = .operand → fault = 2) ∧
      (s.fault = .mode → fault = 3) ∧ (s.fault = .config → fault = 4) ∧ (s.fault = .truncated → fault = 5) ∧
      (s.fault = .probValue → fault = 6) ∧ (s.fault = .overrun → fault = 7)) ∧
  (∀ s : State,
    s.status.getLsbD 0 = s.busy ∧ s.status.getLsbD 1 = decide (s.fault ≠ .none) ∧ s.status.getLsbD 2 = s.inWait ∧
    s.status.getLsbD 3 = s.outWait ∧ (s.status.extractLsb' 4 2).toNat = s.mode.code ∧ s.status.getLsbD 6 = s.eoi ∧
    s.status.getLsbD 7 = false ∧ (s.status.extractLsb' 8 4).toNat = s.fault.code ∧ s.status.extractLsb' 12 4 = 0 ∧
    s.status.extractLsb' 16 4 = s.state ∧ s.status.getLsbD 20 = decide (s.state.toNat < 7) ∧
    s.status.extractLsb' 21 11 = 0 ∧
    s.props.extractLsb' 0 4 = s.lc ∧ s.props.extractLsb' 4 3 = s.lp ∧ s.props.getLsbD 7 = false ∧
    s.props.extractLsb' 8 3 = s.pb ∧ s.props.extractLsb' 11 21 = 0) ∧
  State.reset.status = 0x00100000 ∧ State.reset.props = 0x00000203

/-- A read of a register other than STATUS while BUSY = 1 returns SOME value, of which nothing here constrains any bit (R40, U1;
of the write-only registers and of reserved bits too: log 6, the choice of the model), and changes nothing of the core; STATUS
reads as ever. -/
def Obligations.ReadWhileBusyReturnsSomeValue : Prop :=
  ∀ (s : State) (rest : List HostAct) (off : Nat), s.hostMoves → s.busy = true → off < 0x50 → off % 4 = 0 →
    s.host = .read (s.cfg.rccBase + off) 4 :: rest →
    (off ≠ 0x10 → ∃ v, step s = .next { s with host := rest, reads := s.reads ++ [v], freeCtr := s.freeCtr + 1 }) ∧
    (off = 0x10 → step s = .next { s with host := rest, reads := s.reads ++ [s.status] })

/-- R39: reserved offsets read 0, also while BUSY = 1 (they hold no register: log 6), and so do the write-only registers while no
command runs; writes of read-only registers and reserved
offsets have no effect, a write of CMD_A stores bits [23:0], and none of these raises a fault. CMD_V takes all 32 bits. -/
def Obligations.WindowWritesAndReservedReads : Prop :=
  ∀ (s : State) (rest : List HostAct) (off : Nat) (w : Word), s.hostMoves → off % 4 = 0 → off < 0x100 →
    (s.host = .read (s.cfg.rccBase + off) 4 :: rest → (s.busy = false ∧ (off = 0x00 ∨ off = 0x14)) ∨ 0x50 ≤ off →
      step s = .next { s with host := rest, reads := s.reads ++ [0] }) ∧
    (s.host = .write (s.cfg.rccBase + off) 4 w :: rest → off ∉ [0x00, 0x04, 0x08, 0x14] →
      step s = .next { s with host := rest }) ∧
    (s.host = .write (s.cfg.rccBase + off) 4 w :: rest → off = 0x04 →
      step s = .next { s with host := rest, cmdA := w.extractLsb' 0 24 }) ∧
    (s.host = .write (s.cfg.rccBase + off) 4 w :: rest → off = 0x08 → step s = .next { s with host := rest, cmdV := w })

/-- R65: an access to the window that is not 32 bits wide at a multiple of 4 is refused, a read as well as a write. -/
def Obligations.BadAccessRefused : Prop :=
  ∀ (s : State) (rest : List HostAct) (off width : Nat) (w : Word), s.hostMoves → off < 0x100 →
    (width ≠ 4 ∨ off % 4 ≠ 0) →
    (s.host = .write (s.cfg.rccBase + off) width w :: rest ∨ s.host = .read (s.cfg.rccBase + off) width :: rest) →
    step s = .refused .badAccess

/-- A step is refused only for the host's bus access: a bad one, or one outside the window (log 11). -/
def Obligations.RefusedOnlyForBusAccess : Prop :=
  ∀ (s : State) (r : Refusal), step s = .refused r →
    ∃ addr width, ((∃ w, s.host.head? = some (.write addr width w)) ∨ s.host.head? = some (.read addr width)) ∧
      (r = .badAccess ∧ (width ≠ 4 ∨ (addr - s.cfg.rccBase) % 4 ≠ 0) ∨
        r = .outsideWindow ∧ (addr < s.cfg.rccBase ∨ s.cfg.rccBase + 0x100 ≤ addr))

/-- An idle core, and a command that holds with nothing to lift the hold, keep all state while the host does nothing (R246, R247;
log 12); bytes the host offers join the queue and change nothing else; and a command that holds goes on when a byte is in the
queue or EOI = 1 (R61), before the host's next action (log 3). -/
def Obligations.HoldsWaitForTheHost : Prop :=
  ∀ s : State,
    (s.hostMoves → s.host = [] → step s = .next s) ∧
    (s.hostMoves → ∀ bs rest, s.host = .offer bs :: rest →
      step s = .next { s with host := rest, inQueue := s.inQueue ++ bs }) ∧
    ∀ k, s.task = some k →
      (s.inQueue ≠ [] ∨ s.eoi = true → step s = resume k s) ∧ (s.inQueue = [] → s.eoi = false → s.hostMoves)

/-! ### Probability cells and prices (spec/40_probability.md) -/

/-- R103: Update moves one cell by its rule and leaves every other cell and all else alone. -/
def Obligations.UpdateAdaptsOneCell : Prop :=
  ∀ (s : State) (a : Nat) (bit : Bool), s.memoryOk →
    ((s.adaptCell a bit).cell a).toNat =
      (if bit then (s.cell a).toNat - (s.cell a).toNat / 32 else (s.cell a).toNat + (2048 - (s.cell a).toNat) / 32) ∧
    (∀ b, b ≠ a → (s.adaptCell a bit).cell b = s.cell b) ∧
    s.adaptCell a bit = { s with cells := (s.adaptCell a bit).cells }

/-- R105: PROB_INIT sets the cells A .. A + V - 1 to 1024 and leaves every other cell and all else alone, or raises Operand. -/
def Obligations.ProbInitSetsRange : Prop :=
  encodedAs .probInit 0x02 ∧
  ∀ s : State,
    (1 ≤ s.latV.toNat ∧ s.latA.toNat + s.latV.toNat ≤ s.cfg.nprob →
      ∃ t, exec .probInit s = .next t ∧ t = { s.idle with cells := t.cells } ∧
        ∀ a, t.cell a = if s.latA.toNat ≤ a ∧ a < s.latA.toNat + s.latV.toNat then 1024 else s.cell a) ∧
    (¬ (1 ≤ s.latV.toNat ∧ s.latA.toNat + s.latV.toNat ≤ s.cfg.nprob) → exec .probInit s = raise .operand s)

/-- R106: PROB_WRITE sets cell A to V for 1 ≤ V ≤ 2047 and leaves all else alone; Operand, then ProbValue. -/
def Obligations.ProbWriteSetsCell : Prop :=
  encodedAs .probWrite 0x03 ∧
  ∀ s : State, Memory.wf s.cells →
    (s.latA.toNat < s.cfg.nprob → 1 ≤ s.latV.toNat → s.latV.toNat ≤ 2047 →
      ∃ t, exec .probWrite s = .next t ∧ t = { s.idle with cells := t.cells } ∧
        (t.cell s.latA.toNat).toNat = s.latV.toNat ∧ ∀ a, a ≠ s.latA.toNat → t.cell a = s.cell a) ∧
    (s.cfg.nprob ≤ s.latA.toNat → exec .probWrite s = raise .operand s) ∧
    (s.latA.toNat < s.cfg.nprob → s.latV.toNat = 0 ∨ 2048 ≤ s.latV.toNat → exec .probWrite s = raise .probValue s)

/-- R107: PROB_READ returns cell A in RES and leaves all else alone, or raises Operand. -/
def Obligations.ProbReadReturnsCell : Prop :=
  encodedAs .probRead 0x04 ∧
  ∀ s : State,
    (s.latA.toNat < s.cfg.nprob →
      exec .probRead s = .next { s.idle with res := BitVec.ofNat 32 (s.cell s.latA.toNat).toNat }) ∧
    (s.cfg.nprob ≤ s.latA.toNat → exec .probRead s = raise .operand s)

/-- R108: the price table: PT[0] = 0, the entries of each round of the loop, and entries the rule names for S = 4. -/
def Obligations.PriceTableConstruction : Prop :=
  (∀ shift, priceTable shift 0 = 0) ∧
  (∀ shift i j, i ≤ 8 → 2 ^ (8 - i) ≤ j → j ≤ 2 ^ (9 - i) - 1 →
    priceTable shift j = i * 2 ^ shift + (2 ^ (9 - i) - j) * 2 ^ shift / 2 ^ (8 - i)) ∧
  priceTable 4 1 = 144 ∧ priceTable 4 2 = 128 ∧ priceTable 4 7 = 100 ∧ priceTable 4 128 = 32 ∧ priceTable 4 256 = 16 ∧
  priceTable 4 257 = 15 ∧ priceTable 4 384 = 8 ∧ priceTable 4 496 = 1 ∧
  (∀ j, 497 ≤ j → j ≤ 511 → priceTable 4 j = 0)

/-- R109 and R110: the price of a bit through a cell of value p is PT[p >> 2] or PT[(2048 - p) >> 2], and PRICE_BIT returns it
and changes nothing else, or raises Operand. -/
def Obligations.PriceBitReturnsPrice : Prop :=
  encodedAs .priceBit 0x18 ∧
  ∀ s : State,
    (s.latA.toNat < s.cfg.nprob → s.latV.toNat ≤ 1 →
      exec .priceBit s = .next { s.idle with
        res := BitVec.ofNat 32 (priceTable s.cfg.priceShift
          ((if s.latV.toNat = 0 then (s.cell s.latA.toNat).toNat else 2048 - (s.cell s.latA.toNat).toNat) / 4)) }) ∧
    (s.cfg.nprob ≤ s.latA.toNat ∨ 1 < s.latV.toNat → exec .priceBit s = raise .operand s)

/-! ### Walks (spec/43_bit_tree.md R160, spec/44_literal.md R181) -/

/-- R160 and R181: the cells and bits the walks of the commands visit: node by node through one tree, MSB first or LSB first, and
for a matched literal through the tree of the match bit while all earlier bits agreed; no walk visits a cell twice. -/
def Obligations.WalksVisitTreeNodes : Prop :=
  (∀ base v n, treePath base v n 1 = treeWalk base n (msbFirst v n)) ∧
  (∀ base v n, reversePath base n v 1 = treeWalk base n (lsbFirst v)) ∧
  (∀ base sym, literalPath base sym = treeWalk base 8 (msbFirst sym 8)) ∧
  (∀ base sym mb, matchedPath base sym mb = matchedWalk base (msbFirst sym 8) (msbFirst mb 8)) ∧
  (∀ bits k, 2 ^ k ≤ treeNode bits k ∧ treeNode bits k < 2 ^ (k + 1)) ∧
  (∀ base n bits, ((treeWalk base n bits).map Prod.fst).Nodup) ∧
  ∀ base bits mbits, ((matchedWalk base bits mbits).map Prod.fst).Nodup

/-- R165, R166, R186, R187: the price of a symbol is the sum of the prices of the bits of its walk; it is returned in RES, and
nothing else changes. -/
def Obligations.PriceWalksReturnSums : Prop :=
  (encodedWith .priceBt 0x1C ∧ encodedWith .priceBtr 0x1D ∧ encodedAs .priceLit 0x1E ∧ encodedAs .priceLitm 0x1F) ∧
  ∀ s : State,
    let total (walk : List (Nat × Bool)) : Word :=
      BitVec.ofNat 32 ((walk.map fun e => price s.cfg.priceShift (s.cell e.1) e.2).sum)
    let sym := (s.latV.extractLsb' 0 8).toNat
    let mb := (s.latV.extractLsb' 8 8).toNat
    (∀ n, 1 ≤ n → n ≤ 16 → s.latA.toNat + 2 ^ n ≤ s.cfg.nprob → s.latV.toNat < 2 ^ n →
      exec (.priceBt n) s = .next { s.idle with res := total (treeWalk s.latA.toNat n (msbFirst s.latV.toNat n)) } ∧
      exec (.priceBtr n) s = .next { s.idle with res := total (treeWalk s.latA.toNat n (lsbFirst s.latV.toNat)) }) ∧
    (s.latA.toNat + 0x300 ≤ s.cfg.nprob → s.latV.toNat < 2 ^ 8 →
      exec .priceLit s = .next { s.idle with res := total (treeWalk s.latA.toNat 8 (msbFirst sym 8)) }) ∧
    (s.latA.toNat + 0x300 ≤ s.cfg.nprob → s.latV.toNat < 2 ^ 16 →
      exec .priceLitm s = .next { s.idle with res := total (matchedWalk s.latA.toNat (msbFirst sym 8) (msbFirst mb 8)) })

/-! ### The range encoder (spec/41_range_encoder.md) -/

/-- R121: ShiftLow emits every held byte plus the carry, counts them in OUTCNT and holds back the top byte, unless the top byte
is 0xFF without a carry; then it holds that byte back too. -/
def Obligations.ShiftLowEmitsOrHolds : Prop :=
  ∀ s : State,
    let hi := s.encLow.extractLsb' 32 8
    let low := (s.encLow.extractLsb' 0 24).setWidth 64 <<< 8
    (hi ≠ 0 ∨ s.encLow.toNat < 0xFF000000 →
      s.shiftLow = { s with
        outBytes := s.outBytes ++ (List.range s.encCsize.toNat).map fun j => (if j = 0 then s.encCache else 0xFF) + hi
        outcnt := s.outcnt + s.encCsize, encCache := s.encLow.extractLsb' 24 8, encCsize := 1, encLow := low }) ∧
    (hi = 0 → 0xFF000000 ≤ s.encLow.toNat → s.shiftLow = { s with encCsize := s.encCsize + 1, encLow := low })

/-- R122: RenormE shifts while the range is below 2^24, ends with a range of at least 2^24 for every range but 0 (for which its
loop never ends, log 9), and needs at most two rounds for a range of at least 2^13. A bit through a legal cell leaves such a range
of a range of at least 2^24 (R101), so its RenormE needs at most two. -/
def Obligations.RenormELoops : Prop :=
  ∀ s : State,
    (2 ^ 24 ≤ s.encRange.toNat → s.renormE = some s) ∧
    (0 < s.encRange.toNat → s.encRange.toNat < 2 ^ 24 →
      s.renormE = State.renormE { s with encRange := s.encRange <<< 8 }.shiftLow ∧
      ∃ t, s.renormE = some t ∧ 2 ^ 24 ≤ t.encRange.toNat) ∧
    (s.encRange.toNat = 0 → s.renormE = none) ∧
    (2 ^ 13 ≤ s.encRange.toNat → State.renormRounds 2 s = s.renormE) ∧
    ∀ (a : Nat) (bit : Bool), s.memoryOk → 2 ^ 24 ≤ s.encRange.toNat →
      2 ^ 13 ≤ (s.encodeSplit a bit).encRange.toNat ∧
        ∃ t, State.renormRounds 2 ((s.encodeSplit a bit).adaptCell a bit) = some t ∧ s.encodeBit a bit = some t

/-- R123 and R124: EncodeBit and one bit of EncodeDirect: the new interval, the updated cell, then RenormE. -/
def Obligations.EncodeSplitsInterval : Prop :=
  ∀ (s : State) (a v n : Nat),
    let b := (s.encRange >>> 11) * (s.cell a).setWidth 32
    let half := s.encRange >>> 1
    s.encodeBit a false =
      ({ s with encRange := b, cells := s.cells.write a (adapt (s.cell a) false) } : State).renormE ∧
    s.encodeBit a true =
      ({ s with
        encLow := s.encLow + b.setWidth 64, encRange := s.encRange - b,
        cells := s.cells.write a (adapt (s.cell a) true) } : State).renormE ∧
    State.encodeDirect v 0 s = some s ∧
    State.encodeDirect v (n + 1) s =
      (({ s with
        encRange := half, encLow := if v.testBit n then s.encLow + half.setWidth 64 else s.encLow } : State).renormE).bind
        (State.encodeDirect v n)

/-- R125: ENC_INIT opens an encoder stream from IDLE, and raises Mode otherwise. -/
def Obligations.EncInitOpensStream : Prop :=
  encodedAs .encInit 0x08 ∧
  ∀ s : State,
    (s.mode = .idle → exec .encInit s = .next { s.idle with
      encRange := 0xFFFFFFFF, encLow := 0, encCache := 0, encCsize := 1, outcnt := 0, mode := .enc }) ∧
    (s.mode ≠ .idle → exec .encInit s = raise .mode s)

/-- R126: ENC_BIT in a legal machine in ENC completes with EncodeBit(A, V[0]) done; otherwise Mode, then Operand. -/
def Obligations.EncBitEncodes : Prop :=
  encodedAs .encBit 0x09 ∧
  ∀ s : State,
    (s.Ready → s.mode = .enc → s.latA.toNat < s.cfg.nprob → s.latV.toNat ≤ 1 →
      ∃ u, s.encodeBit s.latA.toNat (s.latV.toNat = 1) = some u ∧ exec .encBit s = .next u.idle) ∧
    (s.mode ≠ .enc → exec .encBit s = raise .mode s) ∧
    (s.mode = .enc → s.cfg.nprob ≤ s.latA.toNat ∨ 1 < s.latV.toNat → exec .encBit s = raise .operand s)

/-- R127: ENC_DIRECT in a legal machine in ENC completes with the N low bits of V encoded; otherwise Mode, then Operand. -/
def Obligations.EncDirectEncodes : Prop :=
  encodedWith .encDirect 0x0A ∧
  ∀ (s : State) (n : Nat),
    (s.Ready → s.mode = .enc → 1 ≤ n → n ≤ 32 → (n < 32 → s.latV.toNat < 2 ^ n) →
      ∃ u, State.encodeDirect s.latV.toNat n s = some u ∧ exec (.encDirect n) s = .next u.idle ∧ u.cells = s.cells) ∧
    (s.mode ≠ .enc → exec (.encDirect n) s = raise .mode s) ∧
    (s.mode = .enc → n < 1 ∨ 32 < n ∨ (n < 32 ∧ 2 ^ n ≤ s.latV.toNat) → exec (.encDirect n) s = raise .operand s)

/-- R128: ENC_FLUSH runs ShiftLow five times and closes the stream; from the bounds of R129, with at least one byte held, that
emits the held bytes and four bytes more, and leaves ENC_LOW = 0, ENC_CACHE = 0, ENC_CSIZE = 1. Otherwise Mode. -/
def Obligations.EncFlushEmitsEverything : Prop :=
  encodedAs .encFlush 0x0B ∧
  ∀ s : State,
    (s.mode = .enc →
      exec .encFlush s = .next { s.shiftLow.shiftLow.shiftLow.shiftLow.shiftLow.idle with mode := .idle } ∧
      (s.encLow.toNat < 2 ^ 33 → 1 ≤ s.encCsize.toNat → s.encCsize.toNat + 4 < 2 ^ 64 →
        ∃ t bs, exec .encFlush s = .next t ∧ t.outBytes = s.outBytes ++ bs ∧ bs.length = s.encCsize.toNat + 4 ∧
          t.encLow = 0 ∧ t.encCache = 0 ∧ t.encCsize = 1)) ∧
    (s.mode ≠ .enc → exec .encFlush s = raise .mode s)

/-- R161, R162, R182, R183: ENC_BT, ENC_BTR, ENC_LIT and ENC_LITM in a legal machine in ENC complete with EncodeBit done for
every cell and bit of their walk, in order. -/
def Obligations.EncodeWalksComplete : Prop :=
  (encodedWith .encBt 0x0C ∧ encodedWith .encBtr 0x0D ∧ encodedAs .encLit 0x0E ∧ encodedAs .encLitm 0x0F) ∧
  ∀ s : State, s.Ready → s.mode = .enc →
    let sym := (s.latV.extractLsb' 0 8).toNat
    let mb := (s.latV.extractLsb' 8 8).toNat
    let completes (i : Instr) (walk : List (Nat × Bool)) : Prop :=
      ∃ u, walk.foldlM (fun t e => t.encodeBit e.1 e.2) s = some u ∧ exec i s = .next u.idle
    (∀ n, 1 ≤ n → n ≤ 16 → s.latA.toNat + 2 ^ n ≤ s.cfg.nprob → s.latV.toNat < 2 ^ n →
      completes (.encBt n) (treeWalk s.latA.toNat n (msbFirst s.latV.toNat n)) ∧
      completes (.encBtr n) (treeWalk s.latA.toNat n (lsbFirst s.latV.toNat))) ∧
    (s.latA.toNat + 0x300 ≤ s.cfg.nprob → s.latV.toNat < 2 ^ 8 →
      completes .encLit (treeWalk s.latA.toNat 8 (msbFirst sym 8))) ∧
    (s.latA.toNat + 0x300 ≤ s.cfg.nprob → s.latV.toNat < 2 ^ 16 →
      completes .encLitm (matchedWalk s.latA.toNat (msbFirst sym 8) (msbFirst mb 8)))

/-- What coding a walk does to the RAM: each visited cell is updated once for its bit, and every other cell reads as before;
of the rest, only the encoder's registers and the byte-out port change. -/
def Obligations.EncodedWalkUpdatesItsCells : Prop :=
  ∀ (s u : State) (walk : List (Nat × Bool)), s.memoryOk → (walk.map Prod.fst).Nodup →
    State.encodePath walk s = some u →
    (∀ e ∈ walk, u.cell e.1 = adapt (s.cell e.1) e.2) ∧
    (∀ a, a ∉ walk.map Prod.fst → u.cell a = s.cell a) ∧
    u = { s with
      cells := u.cells, encRange := u.encRange, encLow := u.encLow, encCache := u.encCache, encCsize := u.encCsize,
      outcnt := u.outcnt, outBytes := u.outBytes }

/-- OUTCNT counts the bytes emitted and INCNT the bytes taken: a command appends bytes to the byte-out port and takes a front part
of the byte-in queue, and the counters grow by their numbers, but for ENC_INIT and DEC_INIT, which count from 0 (R41, R61, R121,
R125, R144). -/
def Obligations.CountersCountPortBytes : Prop :=
  ∀ (i : Instr) (s t : State), exec i s = .next t →
    (∃ bs, t.outBytes = s.outBytes ++ bs ∧
      (t.outcnt = s.outcnt + BitVec.ofNat 64 bs.length ∨ (i = .encInit ∧ bs = [] ∧ t.outcnt = 0))) ∧
    ∃ taken, s.inQueue = taken ++ t.inQueue ∧
      (t.incnt = s.incnt + BitVec.ofNat 64 taken.length ∨
        (i = .decInit ∧ s.mode = .idle ∧ t.incnt = BitVec.ofNat 64 taken.length))

/-! ### The range decoder (spec/42_range_decoder.md) -/

/-- R141, R142 and R143: RenormD takes one byte per shift while the range is below 2^24, the byte before DEC_CODE and DEC_RANGE
change; and the split of DecodeBit and of one bit of DecodeDirect, before RenormD. -/
def Obligations.DecoderPrimitives : Prop :=
  ∀ (s : State) (a : Nat),
    let b := (s.decRange >>> 11) * (s.cell a).setWidth 32
    let half := s.decRange >>> 1
    (2 ^ 24 ≤ s.decRange.toNat → s.renormD = (true, s)) ∧
    (∀ x q, s.decRange.toNat < 2 ^ 24 → s.inQueue = x :: q →
      s.renormD = State.renormD { s with
        inQueue := q, incnt := s.incnt + 1, decCode := (s.decCode <<< 8) ||| x.setWidth 32,
        decRange := s.decRange <<< 8 }) ∧
    (s.decRange.toNat < 2 ^ 24 → s.inQueue = [] → s.renormD = (false, s)) ∧
    (s.decCode.toNat < b.toNat →
      s.decodeSplit a = (false, { s with decRange := b, cells := s.cells.write a (adapt (s.cell a) false) })) ∧
    (b.toNat ≤ s.decCode.toNat →
      s.decodeSplit a = (true, { s with
        decRange := s.decRange - b, decCode := s.decCode - b, cells := s.cells.write a (adapt (s.cell a) true) })) ∧
    ((s.decCode - half) >>> 31 = 0 → s.decodeHalf = (true, { s with decRange := half, decCode := s.decCode - half })) ∧
    ((s.decCode - half) >>> 31 ≠ 0 → s.decodeHalf = (false, { s with decRange := half }))

/-- R144: DEC_INIT from IDLE takes five bytes into DEC_CODE and opens the stream; with fewer it raises Truncated if EOI = 1, and
then MODE, DEC_CODE and INCNT show the bytes taken; with EOI = 0 it holds with the rest to take (R61). Otherwise Mode. -/
def Obligations.DecInitLoadsFiveBytes : Prop :=
  encodedAs .decInit 0x10 ∧
  ∀ s : State,
    let taken : State := { s with
      decRange := 0xFFFFFFFF, inQueue := [], incnt := BitVec.ofNat 64 s.inQueue.length
      decCode := s.inQueue.foldl (fun c b => (c <<< 8) ||| b.setWidth 32) 0 }
    (s.mode = .idle → ∀ b0 b1 b2 b3 b4 q, s.inQueue = [b0, b1, b2, b3, b4] ++ q →
      exec .decInit s = .next { s.idle with
        decRange := 0xFFFFFFFF, decCode := b1 ++ b2 ++ b3 ++ b4, incnt := 5, inQueue := q, mode := .dec }) ∧
    (s.mode = .idle → s.inQueue.length < 5 → s.eoi = true → exec .decInit s = raise .truncated taken) ∧
    (s.mode = .idle → s.inQueue.length < 5 → s.eoi = false →
      exec .decInit s = .next { taken with
        busy := true, inWait := true, task := some (.load (5 - s.inQueue.length)) }) ∧
    (s.mode ≠ .idle → exec .decInit s = raise .mode s)

/-- R145: DEC_BIT returns the bit of DecodeBit(A) in RES, and DEC_RANGE ends at 2^24 or above (R41, R141). A legal machine in DEC
with DEC_RANGE ≥ 2^24 needs at most two bytes for it. Where the queue runs out in its RenormD, it holds if EOI = 0 and raises
Truncated if EOI = 1 (R61), the cell updated and the failing round not begun (R149). Otherwise Mode, then Operand. -/
def Obligations.DecBitDecodes : Prop :=
  encodedAs .decBit 0x11 ∧
  ∀ s : State,
    (s.mode = .dec → s.latA.toNat < s.cfg.nprob →
      (∀ bit u, s.decodeBit s.latA.toNat = some (bit, u) →
        exec .decBit s = .next { u.idle with res := if bit then 1 else 0 } ∧ 2 ^ 24 ≤ u.decRange.toNat) ∧
      (s.decodeBit s.latA.toNat = none → ∃ u, runsDry .decBit s u ∧ holdsOrTruncates .decBit s u) ∧
      (s.memoryOk → 2 ^ 24 ≤ s.decRange.toNat → 2 ≤ s.inQueue.length → ∃ bit u, s.decodeBit s.latA.toNat = some (bit, u))) ∧
    (s.mode ≠ .dec → exec .decBit s = raise .mode s) ∧
    (s.mode = .dec → s.cfg.nprob ≤ s.latA.toNat → exec .decBit s = raise .operand s)

/-- R146: DEC_DIRECT returns DecodeDirect(N) in RES, and DEC_RANGE ends at 2^24 or above (R41, R141). With DEC_RANGE ≥ 2^24 it
needs at most N bytes. Where the queue runs out, it holds if EOI = 0 and raises Truncated if EOI = 1, inside the RenormD of the
failing bit (R61, R149). Otherwise Mode, then Operand. -/
def Obligations.DecDirectDecodes : Prop :=
  encodedWith .decDirect 0x12 ∧
  ∀ (s : State) (n : Nat),
    (s.mode = .dec → 1 ≤ n → n ≤ 32 →
      (∀ v u, State.decodeDirect n 0 s = some (v, u) →
        exec (.decDirect n) s = .next { u.idle with res := v } ∧ 2 ^ 24 ≤ u.decRange.toNat) ∧
      (State.decodeDirect n 0 s = none → ∃ u, runsDry (.decDirect n) s u ∧ holdsOrTruncates (.decDirect n) s u) ∧
      (2 ^ 24 ≤ s.decRange.toNat → n ≤ s.inQueue.length →
        ∃ v u, State.decodeDirect n 0 s = some (v, u) ∧ v.toNat < 2 ^ n ∧ u.cells = s.cells)) ∧
    (s.mode ≠ .dec → exec (.decDirect n) s = raise .mode s) ∧
    (s.mode = .dec → n < 1 ∨ 32 < n → exec (.decDirect n) s = raise .operand s)

/-- R147: DEC_END closes the decoder stream and leaves all else, the byte-in queue too, or raises Mode. -/
def Obligations.DecEndClosesStream : Prop :=
  encodedAs .decEnd 0x13 ∧
  ∀ s : State,
    (s.mode = .dec → exec .decEnd s = .next { s.idle with mode := .idle }) ∧
    (s.mode ≠ .dec → exec .decEnd s = raise .mode s)

/-- R163, R164, R184, R185: the bit-tree and literal decoding commands return in RES what the pseudocode of their rules decodes,
whenever the queue holds the bytes it takes; where it runs out, they hold if EOI = 0 and raise Truncated if EOI = 1 (R61), the bits
before decoded and the failing bit's cell updated (R149). The bit-by-bit walk that can hold is the same machine as the pseudocode. -/
def Obligations.DecodeWalksReturnSymbols : Prop :=
  (encodedWith .decBt 0x14 ∧ encodedWith .decBtr 0x15 ∧ encodedAs .decLit 0x16 ∧ encodedAs .decLitm 0x17) ∧
  ∀ s : State, s.mode = .dec →
    (∀ n, 1 ≤ n → n ≤ 16 → s.latA.toNat + 2 ^ n ≤ s.cfg.nprob →
      (State.decodeTree s.latA.toNat n 1 s = none → ∃ u, runsDry (.decBt n) s u ∧ holdsOrTruncates (.decBt n) s u) ∧
      (State.decodeReverse s.latA.toNat n 0 1 0 s = none → ∃ u, runsDry (.decBtr n) s u ∧ holdsOrTruncates (.decBtr n) s u)) ∧
    (s.latA.toNat + 0x300 ≤ s.cfg.nprob →
      (State.decodeTree s.latA.toNat 8 1 s = none → ∃ u, runsDry .decLit s u ∧ holdsOrTruncates .decLit s u) ∧
      (s.latV.toNat < 2 ^ 16 → State.decodeMatched s.latA.toNat 8 (s.latV.extractLsb' 8 8) 1 s = none →
        ∃ u, runsDry .decLitm s u ∧ holdsOrTruncates .decLitm s u)) ∧
    (∀ n v u, 1 ≤ n → n ≤ 16 → s.latA.toNat + 2 ^ n ≤ s.cfg.nprob →
      (State.decodeTree s.latA.toNat n 1 s = some (v, u) →
        exec (.decBt n) s = .next { u.idle with res := BitVec.ofNat 32 (v - 2 ^ n) }) ∧
      (State.decodeReverse s.latA.toNat n 0 1 0 s = some (v, u) →
        exec (.decBtr n) s = .next { u.idle with res := BitVec.ofNat 32 v })) ∧
    (∀ v u, s.latA.toNat + 0x300 ≤ s.cfg.nprob →
      (State.decodeTree s.latA.toNat 8 1 s = some (v, u) →
        exec .decLit s = .next { u.idle with res := BitVec.ofNat 32 (v - 0x100) }) ∧
      (s.latV.toNat < 2 ^ 16 → State.decodeMatched s.latA.toNat 8 (s.latV.extractLsb' 8 8) 1 s = some (v, u) →
        exec .decLitm s = .next { u.idle with res := BitVec.ofNat 32 (v - 0x100) }))

/-- The bit-tree and literal decoding commands of a legal machine in DEC with DEC_RANGE ≥ 2^24 complete when the queue holds two
bytes for each of their bits; the result fits their width, and DEC_RANGE ends at 2^24 or above (R141, R163, R184). -/
def Obligations.DecodeWalksComplete : Prop :=
  ∀ s : State, s.Ready → s.mode = .dec → 2 ^ 24 ≤ s.decRange.toNat →
    let completes (i : Instr) (n : Nat) : Prop :=
      2 * n ≤ s.inQueue.length →
        ∃ t, exec i s = .next t ∧ t.res.toNat < 2 ^ n ∧ 2 ^ 24 ≤ t.decRange.toNat ∧ t.busy = false ∧ t.fault = s.fault ∧
          t.mode = .dec
    (∀ n, 1 ≤ n → n ≤ 16 → s.latA.toNat + 2 ^ n ≤ s.cfg.nprob → completes (.decBt n) n ∧ completes (.decBtr n) n) ∧
    (s.latA.toNat + 0x300 ≤ s.cfg.nprob →
      completes .decLit 8 ∧ (s.latV.toNat < 2 ^ 16 → completes .decLitm 8))

/-- R149: what a Truncated fault leaves is the state in which the bytes ran out, with the command ended and the fault recorded: the
bits before decoded and their cells updated, the failing bit's cell updated, DEC_RANGE and DEC_CODE as they stood before the failing
round of its RenormD (R235: for DEC_INIT, the bytes taken in DEC_CODE and INCNT). So it writes neither RES nor MODE, took every byte
there was, and inside a decoding command leaves DEC_RANGE below 2^24. -/
def Obligations.TruncatedLeavesPartialEffects : Prop :=
  ∀ (i : Instr) (s t : State), exec i s = .next t → s.fault = .none → t.fault = .truncated →
    t.res = s.res ∧ t.mode = s.mode ∧ t.faultInfo = s.latW ∧ t.inQueue = [] ∧ t.busy = false ∧ t.task = none ∧
      s.eoi = true ∧ (i ≠ .decInit → t.decRange.toNat < 2 ^ 24) ∧
      ∃ u, runsDry i s u ∧ t = { u.idle with fault := .truncated, faultInfo := s.latW }

/-- What a Truncated fault leaves is what the hold shows in its place: with EOI = 1 the command ends with exactly the partial
effects with which it holds when EOI = 0 (R61, R149); and a held command whose hold the host lifts by SET_EOI raises Truncated in
the next step, with the effects of the hold and none more (R61, R235, R247), whether it held at once or after going on. That this is
the very next step, before whatever the host has pending, is the model's choice of order (log 3). -/
def Obligations.TruncatedEndsWhereHoldWaits : Prop :=
  (∀ (s : State) (k : Task) (rest : List HostAct), s.Inv → s.task = some k → s.inQueue = [] → s.eoi = false →
    s.host = .write (s.cfg.rccBase + 0x14) 4 4 :: rest →
    step s = .next { s with host := rest, eoi := true } ∧
      step { s with host := rest, eoi := true } = raise .truncated { s with host := rest, eoi := true }) ∧
  ∀ (i : Instr) (s t : State) (k : Task), s.eoi = false → s.task = none → exec i s = .next t → t.task = some k →
    exec i { s with eoi := true } = raise .truncated { t with eoi := true }

/-- R271: chunked operation. A command that holds and then goes on with the bytes offered does what it does with those bytes in
the queue from the start: the same registers, cells, result, and the same hold if it runs out again. And what the host does
meanwhile leaves the command alone: with other CMD_A and CMD_V (R72: it uses its latched copies), other reads and pending actions, it
goes on the same and leaves these as they are; and with a fault pending (an Overrun) it goes on the same and the first fault stays,
also where the command raises its own (R237, R239). -/
def Obligations.ChunkedDecodeSameAsWhole : Prop :=
  (∀ (s t : State) (k : Task) (a : BitVec 24) (v : Word) (rest : List HostAct) (got : List Word) (drawn : Nat),
    resume k s = .next t →
    let meanwhile (u : State) : State := { u with cmdA := a, cmdV := v, host := rest, reads := got, freeCtr := drawn }
    resume k (meanwhile s) = .next (meanwhile t) ∧
      ∀ (f : FaultCode) (x : Word), f ≠ .none →
        resume k { meanwhile s with fault := f, faultInfo := x } = .next { meanwhile t with fault := f, faultInfo := x }) ∧
  ∀ (i : Instr) (s t : State) (k : Task) (bs : List Byte),
    s.busy = true → s.inWait = false → s.task = none → exec i s = .next t → t.task = some k →
    resume k { t with inQueue := t.inQueue ++ bs } = exec i { s with inQueue := s.inQueue ++ bs }

/-- R148, R267: what an encoder stream emits, the decoder reads back. From equal cells, on the emitted bytes and whatever follows
them, the mirrored commands return the coded values one by one; after every pair the cells and the ranges are equal; no
command faults or holds; and the decoder takes exactly the bytes the encoder emitted, none of those that follow. The length bound
keeps ENC_CSIZE from wrapping (R121, decision D23). -/
def Obligations.StreamsDecodeToWhatTheyEncode : Prop :=
  ∀ (s d : State) (cs : List Coding), s.Ready → s.mode = .idle → s.fault = .none →
    d.cfg = s.cfg → d.cells = s.cells → d.mode = .idle → d.fault = .none →
    (∀ c ∈ cs, c.legal s.cfg.nprob) → cs.length < 2 ^ 56 →
    ∃ t bytes, encodeStream cs s = some t ∧ t.outBytes = s.outBytes ++ bytes ∧
      ∀ rest, d.inQueue = bytes ++ rest →
        (∀ k ≤ cs.length, ∃ e u, encodeOpen (cs.take k) s = some e ∧
          decodeOpen (cs.take k) d = some ((cs.take k).map Coding.value, u) ∧
          u.cells = e.cells ∧ u.decRange = e.encRange) ∧
        ∃ vs u, decodeOpen cs d = some (vs, u) ∧ u.inQueue = rest ∧ u.cells = t.cells ∧ u.incnt = t.outcnt

/-! ### The token state and contexts (spec/45_state_machine.md, spec/44_literal.md R180), control (spec/46_control.md) -/

/-- R201 to R206: the transition table, row by row; ST_RESET and the four transitions write STATE by it and nothing else, in
every MODE; three ST_LIT bring every STATE to 0. -/
def Obligations.TokenCommandsMoveState : Prop :=
  (encodedAs .stReset 0x20 ∧ encodedAs .stLit 0x21 ∧ encodedAs .stMatch 0x22 ∧ encodedAs .stRep 0x23 ∧
    encodedAs .stShortRep 0x24) ∧
  ([0, 1, 2, 3, 4, 5, 6, 7, 8, 9, 10, 11] : List (BitVec 4)).map
      (fun s => [afterLiteral s, afterMatch s, afterRep s, afterShortRep s]) =
    [[0, 7, 8, 9], [0, 7, 8, 9], [0, 7, 8, 9], [0, 7, 8, 9], [1, 7, 8, 9], [2, 7, 8, 9], [3, 7, 8, 9],
      [4, 10, 11, 11], [5, 10, 11, 11], [6, 10, 11, 11], [4, 10, 11, 11], [5, 10, 11, 11]] ∧
  ∀ s : State,
    exec .stReset s = .next { s.idle with state := 0 } ∧
    exec .stLit s = .next { s.idle with state := afterLiteral s.state } ∧
    exec .stMatch s = .next { s.idle with state := if s.state.toNat < 7 then 7 else 10 } ∧
    exec .stRep s = .next { s.idle with state := if s.state.toNat < 7 then 8 else 11 } ∧
    exec .stShortRep s = .next { s.idle with state := if s.state.toNat < 7 then 9 else 11 } ∧
    (s.state.toNat ≤ 11 → afterLiteral (afterLiteral (afterLiteral s.state)) = 0)

/-- R207 and R208: ST_ISCHAR returns whether STATE < 7, which STATUS.ISCHAR shows too, and ST_READ returns STATE; nothing else
changes. -/
def Obligations.StateReadCommandsReturn : Prop :=
  (encodedAs .stIsChar 0x25 ∧ encodedAs .stRead 0x26) ∧
  ∀ s : State,
    exec .stIsChar s = .next { s.idle with res := if s.state.toNat < 7 then 1 else 0 } ∧
    s.status.getLsbD 20 = decide (s.state.toNat < 7) ∧
    exec .stRead s = .next { s.idle with res := BitVec.ofNat 32 s.state.toNat }

/-- R180, R209, R210: the context commands return their index, within its bound where STATE, LC, LP and PB hold legal values, and
change nothing else. -/
def Obligations.ContextCommandsReturnIndex : Prop :=
  (encodedAs .ctxLit 0x28 ∧ encodedAs .ctxPosState 0x29 ∧ encodedAs .ctxStPos 0x2A) ∧
  ∀ s : State, s.fieldsOk →
    let pos := s.latV.toNat / 2 ^ 8
    let prev := s.latV.toNat % 2 ^ 8
    let lit := pos % 2 ^ s.lp.toNat * 2 ^ s.lc.toNat + prev / 2 ^ (8 - s.lc.toNat)
    let posState := s.latV.toNat % 2 ^ s.pb.toNat
    exec .ctxLit s = .next { s.idle with res := BitVec.ofNat 32 lit } ∧ lit < 2 ^ (s.lc.toNat + s.lp.toNat) ∧
    exec .ctxPosState s = .next { s.idle with res := BitVec.ofNat 32 posState } ∧ posState < 2 ^ s.pb.toNat ∧
    exec .ctxStPos s = .next { s.idle with res := BitVec.ofNat 32 (s.state.toNat * 16 + posState) } ∧
      s.state.toNat * 16 + posState ≤ 191

/-- R220: NOP changes nothing but its own BUSY, in every MODE; any other bit of its word makes it another word. -/
def Obligations.NopDoesNothing : Prop :=
  encodedAs .nop 0x00 ∧ (∀ w : Word, decode w = .ok .nop → w = 0) ∧ ∀ s : State, exec .nop s = .next s.idle

/-- R221 and R222: SETPROPS loads LC, LP and PB from the properties byte, and the byte (pb * 5 + lp) * 9 + lc loads exactly lc, lp
and pb; otherwise Mode, then Operand, then Config. -/
def Obligations.SetPropsLoadsProperties : Prop :=
  encodedAs .setProps 0x01 ∧
  ∀ s : State,
    (s.mode = .idle → ∀ lc lp pb, lc ≤ 8 → lp ≤ 4 → pb ≤ 4 → s.latV.toNat = (pb * 5 + lp) * 9 + lc →
      exec .setProps s = .next { s.idle with
        lc := BitVec.ofNat 4 lc, lp := BitVec.ofNat 3 lp, pb := BitVec.ofNat 3 pb }) ∧
    (s.mode = .idle → s.latV.toNat < 225 → ∃ lc lp pb, lc ≤ 8 ∧ lp ≤ 4 ∧ pb ≤ 4 ∧
      s.latV.toNat = (pb * 5 + lp) * 9 + lc ∧ lc = s.latV.toNat % 9 ∧ lp = s.latV.toNat / 9 % 5 ∧ pb = s.latV.toNat / 45) ∧
    (s.mode ≠ .idle → exec .setProps s = raise .mode s) ∧
    (s.mode = .idle → 256 ≤ s.latV.toNat → exec .setProps s = raise .operand s) ∧
    (s.mode = .idle → 225 ≤ s.latV.toNat → s.latV.toNat < 256 → exec .setProps s = raise .config s)

/-! ### Faults of the operand checks (spec/30_encoding.md R83 to R85, spec/60_exceptions.md R234, R238) -/

/-- R84: a command that needs a MODE raises Mode in every other, whatever its operands. -/
def Obligations.WrongModeRaisesMode : Prop :=
  ∀ (s : State) (n : Nat),
    (∀ i ∈ [Instr.setProps, .encInit, .decInit], s.mode ≠ .idle → exec i s = raise .mode s) ∧
    (∀ i ∈ [Instr.encBit, .encDirect n, .encFlush, .encBt n, .encBtr n, .encLit, .encLitm], s.mode ≠ .enc →
      exec i s = raise .mode s) ∧
    (∀ i ∈ [Instr.decBit, .decDirect n, .decEnd, .decBt n, .decBtr n, .decLit, .decLitm], s.mode ≠ .dec →
      exec i s = raise .mode s) ∧
    (∀ i t, exec i s = .next t → s.fault = .none → t.fault = .mode →
      (i ∈ [Instr.setProps, .encInit, .decInit] ∧ s.mode ≠ .idle) ∨
      (∃ m, i ∈ [Instr.encBit, .encDirect m, .encFlush, .encBt m, .encBtr m, .encLit, .encLitm] ∧ s.mode ≠ .enc) ∨
      (∃ m, i ∈ [Instr.decBit, .decDirect m, .decEnd, .decBt m, .decBtr m, .decLit, .decLitm] ∧ s.mode ≠ .dec))

/-- R83, R85: the bit-tree and literal commands raise Operand for an N out of range, a cell range that leaves the RAM, or a value
too wide, in the MODE they need. -/
def Obligations.BadOperandsRaiseOperand : Prop :=
  ∀ (s : State) (n : Nat),
    let badTree := n < 1 ∨ 16 < n ∨ s.cfg.nprob < s.latA.toNat + 2 ^ n
    let badLit := s.cfg.nprob < s.latA.toNat + 0x300
    (badTree ∨ 2 ^ n ≤ s.latV.toNat →
      (s.mode = .enc → exec (.encBt n) s = raise .operand s ∧ exec (.encBtr n) s = raise .operand s) ∧
      exec (.priceBt n) s = raise .operand s ∧ exec (.priceBtr n) s = raise .operand s) ∧
    (badTree → s.mode = .dec → exec (.decBt n) s = raise .operand s ∧ exec (.decBtr n) s = raise .operand s) ∧
    (badLit ∨ 2 ^ 8 ≤ s.latV.toNat →
      (s.mode = .enc → exec .encLit s = raise .operand s) ∧ exec .priceLit s = raise .operand s) ∧
    (badLit ∨ 2 ^ 16 ≤ s.latV.toNat →
      (s.mode = .enc → exec .encLitm s = raise .operand s) ∧ exec .priceLitm s = raise .operand s ∧
      (s.mode = .dec → exec .decLitm s = raise .operand s)) ∧
    (badLit → s.mode = .dec → exec .decLit s = raise .operand s)

/-- R234: a command that raises Illegal, Operand, Mode, Config or ProbValue has no effect except FAULT and FAULTINFO. -/
def Obligations.CheckFaultsChangeNothingElse : Prop :=
  ∀ (i : Instr) (s t : State), exec i s = .next t → s.fault = .none →
    t.fault ∈ [FaultCode.illegal, .operand, .mode, .config, .probValue] →
    t = { s.idle with fault := t.fault, faultInfo := s.latW }

/-! ### What each command may write -/

/-- The frame of all commands: which may write each register, the RAM and the ports, in every next state; what they are not named
for they leave as it was. CMD_A, CMD_V, EOI, the parameters and the host's side no command writes (10_state.md R26 to R33). -/
def Obligations.CommandsWriteOnlyTheirRegisters : Prop :=
  ∀ (i : Instr) (s t : State), exec i s = .next t →
    (t.cmdA = s.cmdA ∧ t.cmdV = s.cmdV ∧ t.eoi = s.eoi ∧ t.cfg = s.cfg ∧ t.host = s.host ∧ t.reads = s.reads ∧
      t.cmdIndex = s.cmdIndex ∧ t.freeCtr = s.freeCtr ∧ (s.outWait = false → t.outWait = false)) ∧
    (i ∉ [Instr.stReset, .stLit, .stMatch, .stRep, .stShortRep] → t.state = s.state) ∧
    (i ≠ .setProps → t.lc = s.lc ∧ t.lp = s.lp ∧ t.pb = s.pb) ∧
    (i ∉ [Instr.encInit, .encFlush, .decInit, .decEnd] → t.mode = s.mode) ∧
    ((∀ n, i ∉ [Instr.probRead, .priceBit, .priceBt n, .priceBtr n, .priceLit, .priceLitm, .decBit, .decDirect n, .decBt n,
        .decBtr n, .decLit, .decLitm, .stIsChar, .stRead, .ctxLit, .ctxPosState, .ctxStPos]) → t.res = s.res) ∧
    ((∀ n, i ∉ [Instr.encInit, .encBit, .encDirect n, .encFlush, .encBt n, .encBtr n, .encLit, .encLitm]) →
      t.encRange = s.encRange ∧ t.encLow = s.encLow ∧ t.encCache = s.encCache ∧ t.encCsize = s.encCsize ∧
      t.outcnt = s.outcnt ∧ t.outBytes = s.outBytes) ∧
    ((∀ n, i ∉ [Instr.decInit, .decBit, .decDirect n, .decBt n, .decBtr n, .decLit, .decLitm]) →
      t.decRange = s.decRange ∧ t.decCode = s.decCode ∧ t.incnt = s.incnt ∧ t.inQueue = s.inQueue ∧ t.task = none ∧
      t.busy = false) ∧
    ((∀ n, i ∉ [Instr.probInit, .probWrite, .encBit, .encBt n, .encBtr n, .encLit, .encLitm, .decBit, .decBt n, .decBtr n,
        .decLit, .decLitm]) → t.cells = s.cells) ∧
    (t.fault = s.fault ∧ t.faultInfo = s.faultInfo ∨
      s.fault = .none ∧ t.faultInfo = s.latW ∧ t.res = s.res ∧
        t.fault ∈ [FaultCode.operand, .mode, .config, .truncated, .probValue])

/-- The frame of the RAM: a bit-tree or literal command changes no cell outside the cells of its tree or context, ENC_BIT and DEC_BIT
none but cell A; every other cell reads as before (43_bit_tree.md R160, 44_literal.md R181). -/
def Obligations.CodingCommandsStayInTheirCells : Prop :=
  ∀ (s t : State) (a n : Nat),
    (∀ i ∈ [Instr.encBit, .decBit], exec i s = .next t → a ≠ s.latA.toNat → t.cell a = s.cell a) ∧
    (∀ i ∈ [Instr.encBt n, .encBtr n, .decBt n, .decBtr n], exec i s = .next t →
      (a ≤ s.latA.toNat ∨ s.latA.toNat + 2 ^ n ≤ a) → t.cell a = s.cell a) ∧
    (∀ i ∈ [Instr.encLit, .encLitm, .decLit, .decLitm], exec i s = .next t →
      (a ≤ s.latA.toNat ∨ a = s.latA.toNat + 0x100 ∨ a = s.latA.toNat + 0x200 ∨ s.latA.toNat + 0x300 ≤ a) →
      t.cell a = s.cell a)

/-- Cells in 31..2017 stay there under every command but PROB_WRITE (R104, R41). -/
def Obligations.CellsStayInUpdateRange : Prop :=
  ∀ (i : Instr) (s t : State), i ≠ .probWrite → Memory.wf s.cells →
    (∀ a, 31 ≤ (s.cell a).toNat ∧ (s.cell a).toNat ≤ 2017) → exec i s = .next t →
    ∀ a, 31 ≤ (t.cell a).toNat ∧ (t.cell a).toNat ≤ 2017

/-! ### The invariant of every run (spec/10_state.md R41, spec/41_range_encoder.md R129) -/

/-- The invariant holds after reset, for every legal choice of the parameters, and DEC_RANGE is at 2^24 or above. -/
def Obligations.InvariantHoldsAtReset : Prop :=
  State.reset.Inv ∧ State.reset.decoderOk ∧ ∀ c : Config, c.wf → (State.resetWith c).Inv ∧ (State.resetWith c).decoderOk

/-- Every step keeps the invariant: the RAM canonical and legal, STATE and the properties in range, the encoder's interval in its
bounds, BUSY exactly while a command holds, and a held command fit to go on. And DEC_RANGE stays at 2^24 or above but while a
decoding command holds (R41, in any MODE), unless the step raised Truncated, recorded or not: EOI was 1, the queue is empty and a
fault is pending (R41 speaks of command sequences that raise no fault). -/
def Obligations.StepKeepsInvariant : Prop :=
  ∀ s t : State, s.Inv → step s = .next t →
    t.Inv ∧ (s.decoderOk → t.decoderOk ∨ (s.eoi = true ∧ t.inQueue = [] ∧ t.fault ≠ .none))

/-- From a state of the invariant a step never stops the model: RenormE always ends, so no encoding command diverges. -/
def Obligations.StepNeverFaults : Prop :=
  ∀ (s : State) (r : Fault), s.Inv → step s ≠ .fault r
end

