-- ==== Sys2Proof/Laws/Memory.lean ====
section
/-! SUPPORT. The laws of the probability RAM: reading after a write and after PROB_INIT, and the canonical form every
operation keeps. -/

namespace Sys2Proof.Machine

theorem Memory.mem_write {m : Memory} {a : Nat} {v : Cell} {e : Nat × Cell} (h : e ∈ Memory.write m a v) :
    e ∈ m ∨ (e = (a, v) ∧ v ≠ resetCell) := by
  induction m with
  | nil =>
    unfold Memory.write at h
    split at h
    · exact absurd h (by simp)
    · exact .inr ⟨by simpa using h, by assumption⟩
  | cons x m ih =>
    obtain ⟨k, c⟩ := x
    unfold Memory.write at h
    split_ifs at h with h1 h2 h3 h4
    · exact .inl h
    · rcases List.mem_cons.mp h with rfl | h
      · exact .inr ⟨rfl, h2⟩
      · exact .inl h
    · exact .inl (List.mem_cons_of_mem _ h)
    · rcases List.mem_cons.mp h with rfl | h
      · exact .inr ⟨rfl, h4⟩
      · exact .inl (List.mem_cons_of_mem _ h)
    · rcases List.mem_cons.mp h with rfl | h
      · exact .inl List.mem_cons_self
      · exact (ih h).imp_left (List.mem_cons_of_mem _)

/-- A write keeps the canonical form. -/
theorem Memory.write_wf {m : Memory} (hm : Memory.wf m) (a : Nat) (v : Cell) : Memory.wf (Memory.write m a v) := by
  refine ⟨?_, fun e he => ?_⟩
  · obtain ⟨hp, -⟩ := hm
    induction m with
    | nil => unfold Memory.write; split <;> simp
    | cons x m ih =>
      obtain ⟨k, c⟩ := x
      obtain ⟨hx, hp⟩ := List.pairwise_cons.mp hp
      unfold Memory.write
      split_ifs with h1 h2 h3 h4
      · exact List.pairwise_cons.mpr ⟨hx, hp⟩
      · refine List.pairwise_cons.mpr ⟨fun e he => ?_, List.pairwise_cons.mpr ⟨hx, hp⟩⟩
        rcases List.mem_cons.mp he with rfl | he
        · exact h1
        · exact h1.trans (hx e he)
      · exact hp
      · exact List.pairwise_cons.mpr ⟨fun e he => h3 ▸ hx e he, hp⟩
      · refine List.pairwise_cons.mpr ⟨fun e he => ?_, ih hp⟩
        rcases Memory.mem_write he with he | ⟨rfl, -⟩
        · exact hx e he
        · show k < a; omega
  · rcases Memory.mem_write he with he | ⟨rfl, hv⟩
    · exact hm.2 e he
    · exact hv

/-- PROB_INIT's clearing keeps the canonical form. -/
theorem Memory.init_wf {m : Memory} (hm : Memory.wf m) (lo n : Nat) : Memory.wf (Memory.init m lo n) :=
  ⟨hm.1.filter _, fun e he => hm.2 e (List.mem_filter.mp he).1⟩

theorem Memory.read_of_forall_ne {m : Memory} {a : Nat} (h : ∀ e ∈ m, e.1 ≠ a) : Memory.read m a = resetCell := by
  induction m with
  | nil => rfl
  | cons x m ih =>
    unfold Memory.read
    rw [if_neg (h x List.mem_cons_self)]
    exact ih fun e he => h e (List.mem_cons_of_mem _ he)

/-- A cell reads as its entry, or as the reset value where it has none. -/
theorem Memory.read_mem_or (m : Memory) (a : Nat) : (a, Memory.read m a) ∈ m ∨ Memory.read m a = resetCell := by
  induction m with
  | nil => exact .inr rfl
  | cons x m ih =>
    unfold Memory.read
    split_ifs with h
    · exact .inl (h ▸ List.mem_cons_self)
    · exact ih.imp_left (List.mem_cons_of_mem _)

/-- A read after a write to the same cell gives the value written. -/
theorem Memory.read_write_same {m : Memory} (hm : Memory.wf m) (a : Nat) (v : Cell) :
    Memory.read (Memory.write m a v) a = v := by
  obtain ⟨hp, -⟩ := hm
  induction m with
  | nil => unfold Memory.write; split_ifs with h <;> simp [Memory.read, h]
  | cons x m ih =>
    obtain ⟨k, c⟩ := x
    obtain ⟨hx, hp⟩ := List.pairwise_cons.mp hp
    unfold Memory.write
    split_ifs with h1 h2 h3 h4
    · refine (Memory.read_of_forall_ne fun e he => ?_).trans h2.symm
      rcases List.mem_cons.mp he with rfl | he
      · exact (Nat.ne_of_lt h1).symm
      · exact (Nat.ne_of_lt (h1.trans (hx e he))).symm
    · simp [Memory.read]
    · exact (Memory.read_of_forall_ne fun e he => h3 ▸ (Nat.ne_of_lt (hx e he)).symm).trans h4.symm
    · simp [Memory.read]
    · rw [Memory.read, if_neg fun h => h3 h.symm, ih hp]

/-- A write leaves every other cell alone. -/
theorem Memory.read_write_other (m : Memory) {a b : Nat} (v : Cell) (h : b ≠ a) :
    Memory.read (Memory.write m a v) b = Memory.read m b := by
  induction m with
  | nil => unfold Memory.write; split_ifs <;> simp [Memory.read, h.symm]
  | cons x m ih =>
    obtain ⟨k, c⟩ := x
    unfold Memory.write
    split_ifs with h1 h2 h3 h4
    · rfl
    · rw [Memory.read, if_neg h.symm]
    · rw [Memory.read, if_neg (h3 ▸ h.symm)]
    · subst h3; simp [Memory.read, h.symm]
    · simp [Memory.read, ih]

/-- After PROB_INIT's clearing a cell of the range reads 1024, and every other cell as before. -/
theorem Memory.read_init (m : Memory) (lo n a : Nat) :
    Memory.read (Memory.init m lo n) a = if lo ≤ a ∧ a < lo + n then resetCell else Memory.read m a := by
  induction m with
  | nil => simp [Memory.init, Memory.read]
  | cons x m ih =>
    obtain ⟨k, c⟩ := x
    unfold Memory.init at ih ⊢
    rw [List.filter_cons]
    split_ifs with h1 h2 h2
    · rw [Memory.read, if_neg, ih, if_pos h2]
      rintro rfl; simp at h1; omega
    · rw [Memory.read, ih, if_neg h2]; rfl
    · rw [ih, if_pos h2]
    · rw [ih, if_neg h2, Memory.read, if_neg]
      rintro rfl; simp at h1; omega

/-- Two memories in canonical form that read alike are equal data. -/
theorem Memory.ext_of_read {m m' : Memory} (hm : Memory.wf m) (hm' : Memory.wf m')
    (h : ∀ a, Memory.read m a = Memory.read m' a) : m = m' := by
  induction m generalizing m' with
  | nil =>
    cases m' with
    | nil => rfl
    | cons x m' => exact absurd (by simpa [Memory.read] using (h x.1).symm) (hm'.2 x List.mem_cons_self)
  | cons x m ih =>
    cases m' with
    | nil => exact absurd (by simpa [Memory.read] using h x.1) (hm.2 x List.mem_cons_self)
    | cons y m' =>
      obtain ⟨k, c⟩ := x
      obtain ⟨l, d⟩ := y
      obtain ⟨hx, hp⟩ := List.pairwise_cons.mp hm.1
      obtain ⟨hy, hp'⟩ := List.pairwise_cons.mp hm'.1
      have hk : k = l := by
        rcases Nat.lt_trichotomy k l with hlt | heq | hgt
        · have := h k
          rw [Memory.read_of_forall_ne (m := (l, d) :: m')] at this
          · exact absurd (by simpa [Memory.read] using this) (hm.2 (k, c) List.mem_cons_self)
          · intro e he
            rcases List.mem_cons.mp he with rfl | he
            · exact (Nat.ne_of_lt hlt).symm
            · exact (Nat.ne_of_lt (hlt.trans (hy e he))).symm
        · exact heq
        · have := h l
          rw [Memory.read_of_forall_ne (m := (k, c) :: m)] at this
          · exact absurd (by simpa [Memory.read] using this.symm) (hm'.2 (l, d) List.mem_cons_self)
          · intro e he
            rcases List.mem_cons.mp he with rfl | he
            · exact (Nat.ne_of_lt hgt).symm
            · exact (Nat.ne_of_lt (hgt.trans (hx e he))).symm
      subst hk
      have hc : c = d := by simpa [Memory.read] using h k
      subst hc
      congr 1
      refine ih ⟨hp, fun e he => hm.2 e (List.mem_cons_of_mem _ he)⟩
        ⟨hp', fun e he => hm'.2 e (List.mem_cons_of_mem _ he)⟩ fun a => ?_
      by_cases ha : k = a
      · subst ha
        rw [Memory.read_of_forall_ne fun e he => (Nat.ne_of_lt (hx e he)).symm,
          Memory.read_of_forall_ne fun e he => (Nat.ne_of_lt (hy e he)).symm]
      · simpa [Memory.read, ha] using h a

/-! ### The RAM of a state -/

theorem State.cell_setCell_same {s : State} (h : Memory.wf s.cells) (a : Nat) (v : Cell) :
    (s.setCell a v).cell a = v := Memory.read_write_same h a v

theorem State.cell_setCell_other (s : State) {a b : Nat} (v : Cell) (h : b ≠ a) :
    (s.setCell a v).cell b = s.cell b := Memory.read_write_other s.cells v h

end Sys2Proof.Machine
end

