-- ==== Sys2Proof/Laws/State.lean ====
section
/-! SUPPORT. One lemma per field of State and named update: what the update leaves in the field. -/

namespace Sys2Proof.Machine

variable (s : State)

/-! ### setCell -/

@[simp] theorem State.setCell_cfg (a : Nat) (v : Cell) : (s.setCell a v).cfg = s.cfg := rfl
@[simp] theorem State.setCell_cells (a : Nat) (v : Cell) : (s.setCell a v).cells = s.cells.write a v := rfl
@[simp] theorem State.setCell_encRange (a : Nat) (v : Cell) : (s.setCell a v).encRange = s.encRange := rfl
@[simp] theorem State.setCell_encLow (a : Nat) (v : Cell) : (s.setCell a v).encLow = s.encLow := rfl
@[simp] theorem State.setCell_encCache (a : Nat) (v : Cell) : (s.setCell a v).encCache = s.encCache := rfl
@[simp] theorem State.setCell_encCsize (a : Nat) (v : Cell) : (s.setCell a v).encCsize = s.encCsize := rfl
@[simp] theorem State.setCell_outcnt (a : Nat) (v : Cell) : (s.setCell a v).outcnt = s.outcnt := rfl
@[simp] theorem State.setCell_decRange (a : Nat) (v : Cell) : (s.setCell a v).decRange = s.decRange := rfl
@[simp] theorem State.setCell_decCode (a : Nat) (v : Cell) : (s.setCell a v).decCode = s.decCode := rfl
@[simp] theorem State.setCell_incnt (a : Nat) (v : Cell) : (s.setCell a v).incnt = s.incnt := rfl
@[simp] theorem State.setCell_state (a : Nat) (v : Cell) : (s.setCell a v).state = s.state := rfl
@[simp] theorem State.setCell_lc (a : Nat) (v : Cell) : (s.setCell a v).lc = s.lc := rfl
@[simp] theorem State.setCell_lp (a : Nat) (v : Cell) : (s.setCell a v).lp = s.lp := rfl
@[simp] theorem State.setCell_pb (a : Nat) (v : Cell) : (s.setCell a v).pb = s.pb := rfl
@[simp] theorem State.setCell_mode (a : Nat) (v : Cell) : (s.setCell a v).mode = s.mode := rfl
@[simp] theorem State.setCell_res (a : Nat) (v : Cell) : (s.setCell a v).res = s.res := rfl
@[simp] theorem State.setCell_cmdA (a : Nat) (v : Cell) : (s.setCell a v).cmdA = s.cmdA := rfl
@[simp] theorem State.setCell_cmdV (a : Nat) (v : Cell) : (s.setCell a v).cmdV = s.cmdV := rfl
@[simp] theorem State.setCell_fault (a : Nat) (v : Cell) : (s.setCell a v).fault = s.fault := rfl
@[simp] theorem State.setCell_faultInfo (a : Nat) (v : Cell) : (s.setCell a v).faultInfo = s.faultInfo := rfl
@[simp] theorem State.setCell_busy (a : Nat) (v : Cell) : (s.setCell a v).busy = s.busy := rfl
@[simp] theorem State.setCell_inWait (a : Nat) (v : Cell) : (s.setCell a v).inWait = s.inWait := rfl
@[simp] theorem State.setCell_outWait (a : Nat) (v : Cell) : (s.setCell a v).outWait = s.outWait := rfl
@[simp] theorem State.setCell_eoi (a : Nat) (v : Cell) : (s.setCell a v).eoi = s.eoi := rfl
@[simp] theorem State.setCell_inQueue (a : Nat) (v : Cell) : (s.setCell a v).inQueue = s.inQueue := rfl
@[simp] theorem State.setCell_outBytes (a : Nat) (v : Cell) : (s.setCell a v).outBytes = s.outBytes := rfl
@[simp] theorem State.setCell_latched (a : Nat) (v : Cell) : (s.setCell a v).latched = s.latched := rfl
@[simp] theorem State.setCell_latW (a : Nat) (v : Cell) : (s.setCell a v).latW = s.latW := rfl
@[simp] theorem State.setCell_latA (a : Nat) (v : Cell) : (s.setCell a v).latA = s.latA := rfl
@[simp] theorem State.setCell_latV (a : Nat) (v : Cell) : (s.setCell a v).latV = s.latV := rfl
@[simp] theorem State.setCell_task (a : Nat) (v : Cell) : (s.setCell a v).task = s.task := rfl
@[simp] theorem State.setCell_cmdIndex (a : Nat) (v : Cell) : (s.setCell a v).cmdIndex = s.cmdIndex := rfl
@[simp] theorem State.setCell_host (a : Nat) (v : Cell) : (s.setCell a v).host = s.host := rfl
@[simp] theorem State.setCell_reads (a : Nat) (v : Cell) : (s.setCell a v).reads = s.reads := rfl
@[simp] theorem State.setCell_freeCtr (a : Nat) (v : Cell) : (s.setCell a v).freeCtr = s.freeCtr := rfl

/-! ### adaptCell -/

@[simp] theorem State.adaptCell_cfg (a : Nat) (b : Bool) : (s.adaptCell a b).cfg = s.cfg := rfl
@[simp] theorem State.adaptCell_cells (a : Nat) (b : Bool) : (s.adaptCell a b).cells = s.cells.write a (adapt (s.cell a) b) := rfl
@[simp] theorem State.adaptCell_encRange (a : Nat) (b : Bool) : (s.adaptCell a b).encRange = s.encRange := rfl
@[simp] theorem State.adaptCell_encLow (a : Nat) (b : Bool) : (s.adaptCell a b).encLow = s.encLow := rfl
@[simp] theorem State.adaptCell_encCache (a : Nat) (b : Bool) : (s.adaptCell a b).encCache = s.encCache := rfl
@[simp] theorem State.adaptCell_encCsize (a : Nat) (b : Bool) : (s.adaptCell a b).encCsize = s.encCsize := rfl
@[simp] theorem State.adaptCell_outcnt (a : Nat) (b : Bool) : (s.adaptCell a b).outcnt = s.outcnt := rfl
@[simp] theorem State.adaptCell_decRange (a : Nat) (b : Bool) : (s.adaptCell a b).decRange = s.decRange := rfl
@[simp] theorem State.adaptCell_decCode (a : Nat) (b : Bool) : (s.adaptCell a b).decCode = s.decCode := rfl
@[simp] theorem State.adaptCell_incnt (a : Nat) (b : Bool) : (s.adaptCell a b).incnt = s.incnt := rfl
@[simp] theorem State.adaptCell_state (a : Nat) (b : Bool) : (s.adaptCell a b).state = s.state := rfl
@[simp] theorem State.adaptCell_lc (a : Nat) (b : Bool) : (s.adaptCell a b).lc = s.lc := rfl
@[simp] theorem State.adaptCell_lp (a : Nat) (b : Bool) : (s.adaptCell a b).lp = s.lp := rfl
@[simp] theorem State.adaptCell_pb (a : Nat) (b : Bool) : (s.adaptCell a b).pb = s.pb := rfl
@[simp] theorem State.adaptCell_mode (a : Nat) (b : Bool) : (s.adaptCell a b).mode = s.mode := rfl
@[simp] theorem State.adaptCell_res (a : Nat) (b : Bool) : (s.adaptCell a b).res = s.res := rfl
@[simp] theorem State.adaptCell_cmdA (a : Nat) (b : Bool) : (s.adaptCell a b).cmdA = s.cmdA := rfl
@[simp] theorem State.adaptCell_cmdV (a : Nat) (b : Bool) : (s.adaptCell a b).cmdV = s.cmdV := rfl
@[simp] theorem State.adaptCell_fault (a : Nat) (b : Bool) : (s.adaptCell a b).fault = s.fault := rfl
@[simp] theorem State.adaptCell_faultInfo (a : Nat) (b : Bool) : (s.adaptCell a b).faultInfo = s.faultInfo := rfl
@[simp] theorem State.adaptCell_busy (a : Nat) (b : Bool) : (s.adaptCell a b).busy = s.busy := rfl
@[simp] theorem State.adaptCell_inWait (a : Nat) (b : Bool) : (s.adaptCell a b).inWait = s.inWait := rfl
@[simp] theorem State.adaptCell_outWait (a : Nat) (b : Bool) : (s.adaptCell a b).outWait = s.outWait := rfl
@[simp] theorem State.adaptCell_eoi (a : Nat) (b : Bool) : (s.adaptCell a b).eoi = s.eoi := rfl
@[simp] theorem State.adaptCell_inQueue (a : Nat) (b : Bool) : (s.adaptCell a b).inQueue = s.inQueue := rfl
@[simp] theorem State.adaptCell_outBytes (a : Nat) (b : Bool) : (s.adaptCell a b).outBytes = s.outBytes := rfl
@[simp] theorem State.adaptCell_latched (a : Nat) (b : Bool) : (s.adaptCell a b).latched = s.latched := rfl
@[simp] theorem State.adaptCell_latW (a : Nat) (b : Bool) : (s.adaptCell a b).latW = s.latW := rfl
@[simp] theorem State.adaptCell_latA (a : Nat) (b : Bool) : (s.adaptCell a b).latA = s.latA := rfl
@[simp] theorem State.adaptCell_latV (a : Nat) (b : Bool) : (s.adaptCell a b).latV = s.latV := rfl
@[simp] theorem State.adaptCell_task (a : Nat) (b : Bool) : (s.adaptCell a b).task = s.task := rfl
@[simp] theorem State.adaptCell_cmdIndex (a : Nat) (b : Bool) : (s.adaptCell a b).cmdIndex = s.cmdIndex := rfl
@[simp] theorem State.adaptCell_host (a : Nat) (b : Bool) : (s.adaptCell a b).host = s.host := rfl
@[simp] theorem State.adaptCell_reads (a : Nat) (b : Bool) : (s.adaptCell a b).reads = s.reads := rfl
@[simp] theorem State.adaptCell_freeCtr (a : Nat) (b : Bool) : (s.adaptCell a b).freeCtr = s.freeCtr := rfl

/-! ### setRes -/

@[simp] theorem State.setRes_cfg (v : Word) : (s.setRes v).cfg = s.cfg := rfl
@[simp] theorem State.setRes_cells (v : Word) : (s.setRes v).cells = s.cells := rfl
@[simp] theorem State.setRes_encRange (v : Word) : (s.setRes v).encRange = s.encRange := rfl
@[simp] theorem State.setRes_encLow (v : Word) : (s.setRes v).encLow = s.encLow := rfl
@[simp] theorem State.setRes_encCache (v : Word) : (s.setRes v).encCache = s.encCache := rfl
@[simp] theorem State.setRes_encCsize (v : Word) : (s.setRes v).encCsize = s.encCsize := rfl
@[simp] theorem State.setRes_outcnt (v : Word) : (s.setRes v).outcnt = s.outcnt := rfl
@[simp] theorem State.setRes_decRange (v : Word) : (s.setRes v).decRange = s.decRange := rfl
@[simp] theorem State.setRes_decCode (v : Word) : (s.setRes v).decCode = s.decCode := rfl
@[simp] theorem State.setRes_incnt (v : Word) : (s.setRes v).incnt = s.incnt := rfl
@[simp] theorem State.setRes_state (v : Word) : (s.setRes v).state = s.state := rfl
@[simp] theorem State.setRes_lc (v : Word) : (s.setRes v).lc = s.lc := rfl
@[simp] theorem State.setRes_lp (v : Word) : (s.setRes v).lp = s.lp := rfl
@[simp] theorem State.setRes_pb (v : Word) : (s.setRes v).pb = s.pb := rfl
@[simp] theorem State.setRes_mode (v : Word) : (s.setRes v).mode = s.mode := rfl
@[simp] theorem State.setRes_res (v : Word) : (s.setRes v).res = v := rfl
@[simp] theorem State.setRes_cmdA (v : Word) : (s.setRes v).cmdA = s.cmdA := rfl
@[simp] theorem State.setRes_cmdV (v : Word) : (s.setRes v).cmdV = s.cmdV := rfl
@[simp] theorem State.setRes_fault (v : Word) : (s.setRes v).fault = s.fault := rfl
@[simp] theorem State.setRes_faultInfo (v : Word) : (s.setRes v).faultInfo = s.faultInfo := rfl
@[simp] theorem State.setRes_busy (v : Word) : (s.setRes v).busy = s.busy := rfl
@[simp] theorem State.setRes_inWait (v : Word) : (s.setRes v).inWait = s.inWait := rfl
@[simp] theorem State.setRes_outWait (v : Word) : (s.setRes v).outWait = s.outWait := rfl
@[simp] theorem State.setRes_eoi (v : Word) : (s.setRes v).eoi = s.eoi := rfl
@[simp] theorem State.setRes_inQueue (v : Word) : (s.setRes v).inQueue = s.inQueue := rfl
@[simp] theorem State.setRes_outBytes (v : Word) : (s.setRes v).outBytes = s.outBytes := rfl
@[simp] theorem State.setRes_latched (v : Word) : (s.setRes v).latched = s.latched := rfl
@[simp] theorem State.setRes_latW (v : Word) : (s.setRes v).latW = s.latW := rfl
@[simp] theorem State.setRes_latA (v : Word) : (s.setRes v).latA = s.latA := rfl
@[simp] theorem State.setRes_latV (v : Word) : (s.setRes v).latV = s.latV := rfl
@[simp] theorem State.setRes_task (v : Word) : (s.setRes v).task = s.task := rfl
@[simp] theorem State.setRes_cmdIndex (v : Word) : (s.setRes v).cmdIndex = s.cmdIndex := rfl
@[simp] theorem State.setRes_host (v : Word) : (s.setRes v).host = s.host := rfl
@[simp] theorem State.setRes_reads (v : Word) : (s.setRes v).reads = s.reads := rfl
@[simp] theorem State.setRes_freeCtr (v : Word) : (s.setRes v).freeCtr = s.freeCtr := rfl

/-! ### setState -/

@[simp] theorem State.setState_cfg (v : BitVec 4) : (s.setState v).cfg = s.cfg := rfl
@[simp] theorem State.setState_cells (v : BitVec 4) : (s.setState v).cells = s.cells := rfl
@[simp] theorem State.setState_encRange (v : BitVec 4) : (s.setState v).encRange = s.encRange := rfl
@[simp] theorem State.setState_encLow (v : BitVec 4) : (s.setState v).encLow = s.encLow := rfl
@[simp] theorem State.setState_encCache (v : BitVec 4) : (s.setState v).encCache = s.encCache := rfl
@[simp] theorem State.setState_encCsize (v : BitVec 4) : (s.setState v).encCsize = s.encCsize := rfl
@[simp] theorem State.setState_outcnt (v : BitVec 4) : (s.setState v).outcnt = s.outcnt := rfl
@[simp] theorem State.setState_decRange (v : BitVec 4) : (s.setState v).decRange = s.decRange := rfl
@[simp] theorem State.setState_decCode (v : BitVec 4) : (s.setState v).decCode = s.decCode := rfl
@[simp] theorem State.setState_incnt (v : BitVec 4) : (s.setState v).incnt = s.incnt := rfl
@[simp] theorem State.setState_state (v : BitVec 4) : (s.setState v).state = v := rfl
@[simp] theorem State.setState_lc (v : BitVec 4) : (s.setState v).lc = s.lc := rfl
@[simp] theorem State.setState_lp (v : BitVec 4) : (s.setState v).lp = s.lp := rfl
@[simp] theorem State.setState_pb (v : BitVec 4) : (s.setState v).pb = s.pb := rfl
@[simp] theorem State.setState_mode (v : BitVec 4) : (s.setState v).mode = s.mode := rfl
@[simp] theorem State.setState_res (v : BitVec 4) : (s.setState v).res = s.res := rfl
@[simp] theorem State.setState_cmdA (v : BitVec 4) : (s.setState v).cmdA = s.cmdA := rfl
@[simp] theorem State.setState_cmdV (v : BitVec 4) : (s.setState v).cmdV = s.cmdV := rfl
@[simp] theorem State.setState_fault (v : BitVec 4) : (s.setState v).fault = s.fault := rfl
@[simp] theorem State.setState_faultInfo (v : BitVec 4) : (s.setState v).faultInfo = s.faultInfo := rfl
@[simp] theorem State.setState_busy (v : BitVec 4) : (s.setState v).busy = s.busy := rfl
@[simp] theorem State.setState_inWait (v : BitVec 4) : (s.setState v).inWait = s.inWait := rfl
@[simp] theorem State.setState_outWait (v : BitVec 4) : (s.setState v).outWait = s.outWait := rfl
@[simp] theorem State.setState_eoi (v : BitVec 4) : (s.setState v).eoi = s.eoi := rfl
@[simp] theorem State.setState_inQueue (v : BitVec 4) : (s.setState v).inQueue = s.inQueue := rfl
@[simp] theorem State.setState_outBytes (v : BitVec 4) : (s.setState v).outBytes = s.outBytes := rfl
@[simp] theorem State.setState_latched (v : BitVec 4) : (s.setState v).latched = s.latched := rfl
@[simp] theorem State.setState_latW (v : BitVec 4) : (s.setState v).latW = s.latW := rfl
@[simp] theorem State.setState_latA (v : BitVec 4) : (s.setState v).latA = s.latA := rfl
@[simp] theorem State.setState_latV (v : BitVec 4) : (s.setState v).latV = s.latV := rfl
@[simp] theorem State.setState_task (v : BitVec 4) : (s.setState v).task = s.task := rfl
@[simp] theorem State.setState_cmdIndex (v : BitVec 4) : (s.setState v).cmdIndex = s.cmdIndex := rfl
@[simp] theorem State.setState_host (v : BitVec 4) : (s.setState v).host = s.host := rfl
@[simp] theorem State.setState_reads (v : BitVec 4) : (s.setState v).reads = s.reads := rfl
@[simp] theorem State.setState_freeCtr (v : BitVec 4) : (s.setState v).freeCtr = s.freeCtr := rfl

/-! ### setMode -/

@[simp] theorem State.setMode_cfg (m : Mode) : (s.setMode m).cfg = s.cfg := rfl
@[simp] theorem State.setMode_cells (m : Mode) : (s.setMode m).cells = s.cells := rfl
@[simp] theorem State.setMode_encRange (m : Mode) : (s.setMode m).encRange = s.encRange := rfl
@[simp] theorem State.setMode_encLow (m : Mode) : (s.setMode m).encLow = s.encLow := rfl
@[simp] theorem State.setMode_encCache (m : Mode) : (s.setMode m).encCache = s.encCache := rfl
@[simp] theorem State.setMode_encCsize (m : Mode) : (s.setMode m).encCsize = s.encCsize := rfl
@[simp] theorem State.setMode_outcnt (m : Mode) : (s.setMode m).outcnt = s.outcnt := rfl
@[simp] theorem State.setMode_decRange (m : Mode) : (s.setMode m).decRange = s.decRange := rfl
@[simp] theorem State.setMode_decCode (m : Mode) : (s.setMode m).decCode = s.decCode := rfl
@[simp] theorem State.setMode_incnt (m : Mode) : (s.setMode m).incnt = s.incnt := rfl
@[simp] theorem State.setMode_state (m : Mode) : (s.setMode m).state = s.state := rfl
@[simp] theorem State.setMode_lc (m : Mode) : (s.setMode m).lc = s.lc := rfl
@[simp] theorem State.setMode_lp (m : Mode) : (s.setMode m).lp = s.lp := rfl
@[simp] theorem State.setMode_pb (m : Mode) : (s.setMode m).pb = s.pb := rfl
@[simp] theorem State.setMode_mode (m : Mode) : (s.setMode m).mode = m := rfl
@[simp] theorem State.setMode_res (m : Mode) : (s.setMode m).res = s.res := rfl
@[simp] theorem State.setMode_cmdA (m : Mode) : (s.setMode m).cmdA = s.cmdA := rfl
@[simp] theorem State.setMode_cmdV (m : Mode) : (s.setMode m).cmdV = s.cmdV := rfl
@[simp] theorem State.setMode_fault (m : Mode) : (s.setMode m).fault = s.fault := rfl
@[simp] theorem State.setMode_faultInfo (m : Mode) : (s.setMode m).faultInfo = s.faultInfo := rfl
@[simp] theorem State.setMode_busy (m : Mode) : (s.setMode m).busy = s.busy := rfl
@[simp] theorem State.setMode_inWait (m : Mode) : (s.setMode m).inWait = s.inWait := rfl
@[simp] theorem State.setMode_outWait (m : Mode) : (s.setMode m).outWait = s.outWait := rfl
@[simp] theorem State.setMode_eoi (m : Mode) : (s.setMode m).eoi = s.eoi := rfl
@[simp] theorem State.setMode_inQueue (m : Mode) : (s.setMode m).inQueue = s.inQueue := rfl
@[simp] theorem State.setMode_outBytes (m : Mode) : (s.setMode m).outBytes = s.outBytes := rfl
@[simp] theorem State.setMode_latched (m : Mode) : (s.setMode m).latched = s.latched := rfl
@[simp] theorem State.setMode_latW (m : Mode) : (s.setMode m).latW = s.latW := rfl
@[simp] theorem State.setMode_latA (m : Mode) : (s.setMode m).latA = s.latA := rfl
@[simp] theorem State.setMode_latV (m : Mode) : (s.setMode m).latV = s.latV := rfl
@[simp] theorem State.setMode_task (m : Mode) : (s.setMode m).task = s.task := rfl
@[simp] theorem State.setMode_cmdIndex (m : Mode) : (s.setMode m).cmdIndex = s.cmdIndex := rfl
@[simp] theorem State.setMode_host (m : Mode) : (s.setMode m).host = s.host := rfl
@[simp] theorem State.setMode_reads (m : Mode) : (s.setMode m).reads = s.reads := rfl
@[simp] theorem State.setMode_freeCtr (m : Mode) : (s.setMode m).freeCtr = s.freeCtr := rfl

/-! ### launch -/

@[simp] theorem State.launch_cfg (w : Word) : (s.launch w).cfg = s.cfg := rfl
@[simp] theorem State.launch_cells (w : Word) : (s.launch w).cells = s.cells := rfl
@[simp] theorem State.launch_encRange (w : Word) : (s.launch w).encRange = s.encRange := rfl
@[simp] theorem State.launch_encLow (w : Word) : (s.launch w).encLow = s.encLow := rfl
@[simp] theorem State.launch_encCache (w : Word) : (s.launch w).encCache = s.encCache := rfl
@[simp] theorem State.launch_encCsize (w : Word) : (s.launch w).encCsize = s.encCsize := rfl
@[simp] theorem State.launch_outcnt (w : Word) : (s.launch w).outcnt = s.outcnt := rfl
@[simp] theorem State.launch_decRange (w : Word) : (s.launch w).decRange = s.decRange := rfl
@[simp] theorem State.launch_decCode (w : Word) : (s.launch w).decCode = s.decCode := rfl
@[simp] theorem State.launch_incnt (w : Word) : (s.launch w).incnt = s.incnt := rfl
@[simp] theorem State.launch_state (w : Word) : (s.launch w).state = s.state := rfl
@[simp] theorem State.launch_lc (w : Word) : (s.launch w).lc = s.lc := rfl
@[simp] theorem State.launch_lp (w : Word) : (s.launch w).lp = s.lp := rfl
@[simp] theorem State.launch_pb (w : Word) : (s.launch w).pb = s.pb := rfl
@[simp] theorem State.launch_mode (w : Word) : (s.launch w).mode = s.mode := rfl
@[simp] theorem State.launch_res (w : Word) : (s.launch w).res = s.res := rfl
@[simp] theorem State.launch_cmdA (w : Word) : (s.launch w).cmdA = s.cmdA := rfl
@[simp] theorem State.launch_cmdV (w : Word) : (s.launch w).cmdV = s.cmdV := rfl
@[simp] theorem State.launch_fault (w : Word) : (s.launch w).fault = s.fault := rfl
@[simp] theorem State.launch_faultInfo (w : Word) : (s.launch w).faultInfo = s.faultInfo := rfl
@[simp] theorem State.launch_busy (w : Word) : (s.launch w).busy = true := rfl
@[simp] theorem State.launch_inWait (w : Word) : (s.launch w).inWait = s.inWait := rfl
@[simp] theorem State.launch_outWait (w : Word) : (s.launch w).outWait = s.outWait := rfl
@[simp] theorem State.launch_eoi (w : Word) : (s.launch w).eoi = s.eoi := rfl
@[simp] theorem State.launch_inQueue (w : Word) : (s.launch w).inQueue = s.inQueue := rfl
@[simp] theorem State.launch_outBytes (w : Word) : (s.launch w).outBytes = s.outBytes := rfl
@[simp] theorem State.launch_latched (w : Word) : (s.launch w).latched = some ⟨w, s.cmdA, s.cmdV⟩ := rfl
@[simp] theorem State.launch_latW (w : Word) : (s.launch w).latW = w := rfl
@[simp] theorem State.launch_latA (w : Word) : (s.launch w).latA = s.cmdA := rfl
@[simp] theorem State.launch_latV (w : Word) : (s.launch w).latV = s.cmdV := rfl
@[simp] theorem State.launch_task (w : Word) : (s.launch w).task = s.task := rfl
@[simp] theorem State.launch_cmdIndex (w : Word) : (s.launch w).cmdIndex = s.cmdIndex + 1 := rfl
@[simp] theorem State.launch_host (w : Word) : (s.launch w).host = s.host := rfl
@[simp] theorem State.launch_reads (w : Word) : (s.launch w).reads = s.reads := rfl
@[simp] theorem State.launch_freeCtr (w : Word) : (s.launch w).freeCtr = s.freeCtr := rfl

/-! ### idle -/

@[simp] theorem State.idle_cfg : (s.idle).cfg = s.cfg := rfl
@[simp] theorem State.idle_cells : (s.idle).cells = s.cells := rfl
@[simp] theorem State.idle_encRange : (s.idle).encRange = s.encRange := rfl
@[simp] theorem State.idle_encLow : (s.idle).encLow = s.encLow := rfl
@[simp] theorem State.idle_encCache : (s.idle).encCache = s.encCache := rfl
@[simp] theorem State.idle_encCsize : (s.idle).encCsize = s.encCsize := rfl
@[simp] theorem State.idle_outcnt : (s.idle).outcnt = s.outcnt := rfl
@[simp] theorem State.idle_decRange : (s.idle).decRange = s.decRange := rfl
@[simp] theorem State.idle_decCode : (s.idle).decCode = s.decCode := rfl
@[simp] theorem State.idle_incnt : (s.idle).incnt = s.incnt := rfl
@[simp] theorem State.idle_state : (s.idle).state = s.state := rfl
@[simp] theorem State.idle_lc : (s.idle).lc = s.lc := rfl
@[simp] theorem State.idle_lp : (s.idle).lp = s.lp := rfl
@[simp] theorem State.idle_pb : (s.idle).pb = s.pb := rfl
@[simp] theorem State.idle_mode : (s.idle).mode = s.mode := rfl
@[simp] theorem State.idle_res : (s.idle).res = s.res := rfl
@[simp] theorem State.idle_cmdA : (s.idle).cmdA = s.cmdA := rfl
@[simp] theorem State.idle_cmdV : (s.idle).cmdV = s.cmdV := rfl
@[simp] theorem State.idle_fault : (s.idle).fault = s.fault := rfl
@[simp] theorem State.idle_faultInfo : (s.idle).faultInfo = s.faultInfo := rfl
@[simp] theorem State.idle_busy : (s.idle).busy = false := rfl
@[simp] theorem State.idle_inWait : (s.idle).inWait = false := rfl
@[simp] theorem State.idle_outWait : (s.idle).outWait = false := rfl
@[simp] theorem State.idle_eoi : (s.idle).eoi = s.eoi := rfl
@[simp] theorem State.idle_inQueue : (s.idle).inQueue = s.inQueue := rfl
@[simp] theorem State.idle_outBytes : (s.idle).outBytes = s.outBytes := rfl
@[simp] theorem State.idle_latched : (s.idle).latched = none := rfl
@[simp] theorem State.idle_latW : (s.idle).latW = 0 := rfl
@[simp] theorem State.idle_latA : (s.idle).latA = 0 := rfl
@[simp] theorem State.idle_latV : (s.idle).latV = 0 := rfl
@[simp] theorem State.idle_task : (s.idle).task = none := rfl
@[simp] theorem State.idle_cmdIndex : (s.idle).cmdIndex = s.cmdIndex := rfl
@[simp] theorem State.idle_host : (s.idle).host = s.host := rfl
@[simp] theorem State.idle_reads : (s.idle).reads = s.reads := rfl
@[simp] theorem State.idle_freeCtr : (s.idle).freeCtr = s.freeCtr := rfl

/-! ### clearFault -/

@[simp] theorem State.clearFault_cfg : (s.clearFault).cfg = s.cfg := rfl
@[simp] theorem State.clearFault_cells : (s.clearFault).cells = s.cells := rfl
@[simp] theorem State.clearFault_encRange : (s.clearFault).encRange = s.encRange := rfl
@[simp] theorem State.clearFault_encLow : (s.clearFault).encLow = s.encLow := rfl
@[simp] theorem State.clearFault_encCache : (s.clearFault).encCache = s.encCache := rfl
@[simp] theorem State.clearFault_encCsize : (s.clearFault).encCsize = s.encCsize := rfl
@[simp] theorem State.clearFault_outcnt : (s.clearFault).outcnt = s.outcnt := rfl
@[simp] theorem State.clearFault_decRange : (s.clearFault).decRange = s.decRange := rfl
@[simp] theorem State.clearFault_decCode : (s.clearFault).decCode = s.decCode := rfl
@[simp] theorem State.clearFault_incnt : (s.clearFault).incnt = s.incnt := rfl
@[simp] theorem State.clearFault_state : (s.clearFault).state = s.state := rfl
@[simp] theorem State.clearFault_lc : (s.clearFault).lc = s.lc := rfl
@[simp] theorem State.clearFault_lp : (s.clearFault).lp = s.lp := rfl
@[simp] theorem State.clearFault_pb : (s.clearFault).pb = s.pb := rfl
@[simp] theorem State.clearFault_mode : (s.clearFault).mode = s.mode := rfl
@[simp] theorem State.clearFault_res : (s.clearFault).res = s.res := rfl
@[simp] theorem State.clearFault_cmdA : (s.clearFault).cmdA = s.cmdA := rfl
@[simp] theorem State.clearFault_cmdV : (s.clearFault).cmdV = s.cmdV := rfl
@[simp] theorem State.clearFault_fault : (s.clearFault).fault = .none := rfl
@[simp] theorem State.clearFault_faultInfo : (s.clearFault).faultInfo = 0 := rfl
@[simp] theorem State.clearFault_busy : (s.clearFault).busy = s.busy := rfl
@[simp] theorem State.clearFault_inWait : (s.clearFault).inWait = s.inWait := rfl
@[simp] theorem State.clearFault_outWait : (s.clearFault).outWait = s.outWait := rfl
@[simp] theorem State.clearFault_eoi : (s.clearFault).eoi = s.eoi := rfl
@[simp] theorem State.clearFault_inQueue : (s.clearFault).inQueue = s.inQueue := rfl
@[simp] theorem State.clearFault_outBytes : (s.clearFault).outBytes = s.outBytes := rfl
@[simp] theorem State.clearFault_latched : (s.clearFault).latched = s.latched := rfl
@[simp] theorem State.clearFault_latW : (s.clearFault).latW = s.latW := rfl
@[simp] theorem State.clearFault_latA : (s.clearFault).latA = s.latA := rfl
@[simp] theorem State.clearFault_latV : (s.clearFault).latV = s.latV := rfl
@[simp] theorem State.clearFault_task : (s.clearFault).task = s.task := rfl
@[simp] theorem State.clearFault_cmdIndex : (s.clearFault).cmdIndex = s.cmdIndex := rfl
@[simp] theorem State.clearFault_host : (s.clearFault).host = s.host := rfl
@[simp] theorem State.clearFault_reads : (s.clearFault).reads = s.reads := rfl
@[simp] theorem State.clearFault_freeCtr : (s.clearFault).freeCtr = s.freeCtr := rfl

/-! ### takeByte -/

@[simp] theorem State.takeByte_cfg (q : List Byte) : (s.takeByte q).cfg = s.cfg := rfl
@[simp] theorem State.takeByte_cells (q : List Byte) : (s.takeByte q).cells = s.cells := rfl
@[simp] theorem State.takeByte_encRange (q : List Byte) : (s.takeByte q).encRange = s.encRange := rfl
@[simp] theorem State.takeByte_encLow (q : List Byte) : (s.takeByte q).encLow = s.encLow := rfl
@[simp] theorem State.takeByte_encCache (q : List Byte) : (s.takeByte q).encCache = s.encCache := rfl
@[simp] theorem State.takeByte_encCsize (q : List Byte) : (s.takeByte q).encCsize = s.encCsize := rfl
@[simp] theorem State.takeByte_outcnt (q : List Byte) : (s.takeByte q).outcnt = s.outcnt := rfl
@[simp] theorem State.takeByte_decRange (q : List Byte) : (s.takeByte q).decRange = s.decRange := rfl
@[simp] theorem State.takeByte_decCode (q : List Byte) : (s.takeByte q).decCode = s.decCode := rfl
@[simp] theorem State.takeByte_incnt (q : List Byte) : (s.takeByte q).incnt = s.incnt + 1 := rfl
@[simp] theorem State.takeByte_state (q : List Byte) : (s.takeByte q).state = s.state := rfl
@[simp] theorem State.takeByte_lc (q : List Byte) : (s.takeByte q).lc = s.lc := rfl
@[simp] theorem State.takeByte_lp (q : List Byte) : (s.takeByte q).lp = s.lp := rfl
@[simp] theorem State.takeByte_pb (q : List Byte) : (s.takeByte q).pb = s.pb := rfl
@[simp] theorem State.takeByte_mode (q : List Byte) : (s.takeByte q).mode = s.mode := rfl
@[simp] theorem State.takeByte_res (q : List Byte) : (s.takeByte q).res = s.res := rfl
@[simp] theorem State.takeByte_cmdA (q : List Byte) : (s.takeByte q).cmdA = s.cmdA := rfl
@[simp] theorem State.takeByte_cmdV (q : List Byte) : (s.takeByte q).cmdV = s.cmdV := rfl
@[simp] theorem State.takeByte_fault (q : List Byte) : (s.takeByte q).fault = s.fault := rfl
@[simp] theorem State.takeByte_faultInfo (q : List Byte) : (s.takeByte q).faultInfo = s.faultInfo := rfl
@[simp] theorem State.takeByte_busy (q : List Byte) : (s.takeByte q).busy = s.busy := rfl
@[simp] theorem State.takeByte_inWait (q : List Byte) : (s.takeByte q).inWait = s.inWait := rfl
@[simp] theorem State.takeByte_outWait (q : List Byte) : (s.takeByte q).outWait = s.outWait := rfl
@[simp] theorem State.takeByte_eoi (q : List Byte) : (s.takeByte q).eoi = s.eoi := rfl
@[simp] theorem State.takeByte_inQueue (q : List Byte) : (s.takeByte q).inQueue = q := rfl
@[simp] theorem State.takeByte_outBytes (q : List Byte) : (s.takeByte q).outBytes = s.outBytes := rfl
@[simp] theorem State.takeByte_latched (q : List Byte) : (s.takeByte q).latched = s.latched := rfl
@[simp] theorem State.takeByte_latW (q : List Byte) : (s.takeByte q).latW = s.latW := rfl
@[simp] theorem State.takeByte_latA (q : List Byte) : (s.takeByte q).latA = s.latA := rfl
@[simp] theorem State.takeByte_latV (q : List Byte) : (s.takeByte q).latV = s.latV := rfl
@[simp] theorem State.takeByte_task (q : List Byte) : (s.takeByte q).task = s.task := rfl
@[simp] theorem State.takeByte_cmdIndex (q : List Byte) : (s.takeByte q).cmdIndex = s.cmdIndex := rfl
@[simp] theorem State.takeByte_host (q : List Byte) : (s.takeByte q).host = s.host := rfl
@[simp] theorem State.takeByte_reads (q : List Byte) : (s.takeByte q).reads = s.reads := rfl
@[simp] theorem State.takeByte_freeCtr (q : List Byte) : (s.takeByte q).freeCtr = s.freeCtr := rfl

/-! ### shiftCode -/

@[simp] theorem State.shiftCode_cfg (b : Byte) : (s.shiftCode b).cfg = s.cfg := rfl
@[simp] theorem State.shiftCode_cells (b : Byte) : (s.shiftCode b).cells = s.cells := rfl
@[simp] theorem State.shiftCode_encRange (b : Byte) : (s.shiftCode b).encRange = s.encRange := rfl
@[simp] theorem State.shiftCode_encLow (b : Byte) : (s.shiftCode b).encLow = s.encLow := rfl
@[simp] theorem State.shiftCode_encCache (b : Byte) : (s.shiftCode b).encCache = s.encCache := rfl
@[simp] theorem State.shiftCode_encCsize (b : Byte) : (s.shiftCode b).encCsize = s.encCsize := rfl
@[simp] theorem State.shiftCode_outcnt (b : Byte) : (s.shiftCode b).outcnt = s.outcnt := rfl
@[simp] theorem State.shiftCode_decRange (b : Byte) : (s.shiftCode b).decRange = s.decRange := rfl
@[simp] theorem State.shiftCode_decCode (b : Byte) : (s.shiftCode b).decCode = (s.decCode <<< 8) ||| b.setWidth 32 := rfl
@[simp] theorem State.shiftCode_incnt (b : Byte) : (s.shiftCode b).incnt = s.incnt := rfl
@[simp] theorem State.shiftCode_state (b : Byte) : (s.shiftCode b).state = s.state := rfl
@[simp] theorem State.shiftCode_lc (b : Byte) : (s.shiftCode b).lc = s.lc := rfl
@[simp] theorem State.shiftCode_lp (b : Byte) : (s.shiftCode b).lp = s.lp := rfl
@[simp] theorem State.shiftCode_pb (b : Byte) : (s.shiftCode b).pb = s.pb := rfl
@[simp] theorem State.shiftCode_mode (b : Byte) : (s.shiftCode b).mode = s.mode := rfl
@[simp] theorem State.shiftCode_res (b : Byte) : (s.shiftCode b).res = s.res := rfl
@[simp] theorem State.shiftCode_cmdA (b : Byte) : (s.shiftCode b).cmdA = s.cmdA := rfl
@[simp] theorem State.shiftCode_cmdV (b : Byte) : (s.shiftCode b).cmdV = s.cmdV := rfl
@[simp] theorem State.shiftCode_fault (b : Byte) : (s.shiftCode b).fault = s.fault := rfl
@[simp] theorem State.shiftCode_faultInfo (b : Byte) : (s.shiftCode b).faultInfo = s.faultInfo := rfl
@[simp] theorem State.shiftCode_busy (b : Byte) : (s.shiftCode b).busy = s.busy := rfl
@[simp] theorem State.shiftCode_inWait (b : Byte) : (s.shiftCode b).inWait = s.inWait := rfl
@[simp] theorem State.shiftCode_outWait (b : Byte) : (s.shiftCode b).outWait = s.outWait := rfl
@[simp] theorem State.shiftCode_eoi (b : Byte) : (s.shiftCode b).eoi = s.eoi := rfl
@[simp] theorem State.shiftCode_inQueue (b : Byte) : (s.shiftCode b).inQueue = s.inQueue := rfl
@[simp] theorem State.shiftCode_outBytes (b : Byte) : (s.shiftCode b).outBytes = s.outBytes := rfl
@[simp] theorem State.shiftCode_latched (b : Byte) : (s.shiftCode b).latched = s.latched := rfl
@[simp] theorem State.shiftCode_latW (b : Byte) : (s.shiftCode b).latW = s.latW := rfl
@[simp] theorem State.shiftCode_latA (b : Byte) : (s.shiftCode b).latA = s.latA := rfl
@[simp] theorem State.shiftCode_latV (b : Byte) : (s.shiftCode b).latV = s.latV := rfl
@[simp] theorem State.shiftCode_task (b : Byte) : (s.shiftCode b).task = s.task := rfl
@[simp] theorem State.shiftCode_cmdIndex (b : Byte) : (s.shiftCode b).cmdIndex = s.cmdIndex := rfl
@[simp] theorem State.shiftCode_host (b : Byte) : (s.shiftCode b).host = s.host := rfl
@[simp] theorem State.shiftCode_reads (b : Byte) : (s.shiftCode b).reads = s.reads := rfl
@[simp] theorem State.shiftCode_freeCtr (b : Byte) : (s.shiftCode b).freeCtr = s.freeCtr := rfl

/-! ### renormByte -/

@[simp] theorem State.renormByte_cfg (b : Byte) (q : List Byte) : (s.renormByte b q).cfg = s.cfg := rfl
@[simp] theorem State.renormByte_cells (b : Byte) (q : List Byte) : (s.renormByte b q).cells = s.cells := rfl
@[simp] theorem State.renormByte_encRange (b : Byte) (q : List Byte) : (s.renormByte b q).encRange = s.encRange := rfl
@[simp] theorem State.renormByte_encLow (b : Byte) (q : List Byte) : (s.renormByte b q).encLow = s.encLow := rfl
@[simp] theorem State.renormByte_encCache (b : Byte) (q : List Byte) : (s.renormByte b q).encCache = s.encCache := rfl
@[simp] theorem State.renormByte_encCsize (b : Byte) (q : List Byte) : (s.renormByte b q).encCsize = s.encCsize := rfl
@[simp] theorem State.renormByte_outcnt (b : Byte) (q : List Byte) : (s.renormByte b q).outcnt = s.outcnt := rfl
@[simp] theorem State.renormByte_decRange (b : Byte) (q : List Byte) : (s.renormByte b q).decRange = s.decRange <<< 8 := rfl
@[simp] theorem State.renormByte_decCode (b : Byte) (q : List Byte) : (s.renormByte b q).decCode = (s.decCode <<< 8) ||| b.setWidth 32 := rfl
@[simp] theorem State.renormByte_incnt (b : Byte) (q : List Byte) : (s.renormByte b q).incnt = s.incnt + 1 := rfl
@[simp] theorem State.renormByte_state (b : Byte) (q : List Byte) : (s.renormByte b q).state = s.state := rfl
@[simp] theorem State.renormByte_lc (b : Byte) (q : List Byte) : (s.renormByte b q).lc = s.lc := rfl
@[simp] theorem State.renormByte_lp (b : Byte) (q : List Byte) : (s.renormByte b q).lp = s.lp := rfl
@[simp] theorem State.renormByte_pb (b : Byte) (q : List Byte) : (s.renormByte b q).pb = s.pb := rfl
@[simp] theorem State.renormByte_mode (b : Byte) (q : List Byte) : (s.renormByte b q).mode = s.mode := rfl
@[simp] theorem State.renormByte_res (b : Byte) (q : List Byte) : (s.renormByte b q).res = s.res := rfl
@[simp] theorem State.renormByte_cmdA (b : Byte) (q : List Byte) : (s.renormByte b q).cmdA = s.cmdA := rfl
@[simp] theorem State.renormByte_cmdV (b : Byte) (q : List Byte) : (s.renormByte b q).cmdV = s.cmdV := rfl
@[simp] theorem State.renormByte_fault (b : Byte) (q : List Byte) : (s.renormByte b q).fault = s.fault := rfl
@[simp] theorem State.renormByte_faultInfo (b : Byte) (q : List Byte) : (s.renormByte b q).faultInfo = s.faultInfo := rfl
@[simp] theorem State.renormByte_busy (b : Byte) (q : List Byte) : (s.renormByte b q).busy = s.busy := rfl
@[simp] theorem State.renormByte_inWait (b : Byte) (q : List Byte) : (s.renormByte b q).inWait = s.inWait := rfl
@[simp] theorem State.renormByte_outWait (b : Byte) (q : List Byte) : (s.renormByte b q).outWait = s.outWait := rfl
@[simp] theorem State.renormByte_eoi (b : Byte) (q : List Byte) : (s.renormByte b q).eoi = s.eoi := rfl
@[simp] theorem State.renormByte_inQueue (b : Byte) (q : List Byte) : (s.renormByte b q).inQueue = q := rfl
@[simp] theorem State.renormByte_outBytes (b : Byte) (q : List Byte) : (s.renormByte b q).outBytes = s.outBytes := rfl
@[simp] theorem State.renormByte_latched (b : Byte) (q : List Byte) : (s.renormByte b q).latched = s.latched := rfl
@[simp] theorem State.renormByte_latW (b : Byte) (q : List Byte) : (s.renormByte b q).latW = s.latW := rfl
@[simp] theorem State.renormByte_latA (b : Byte) (q : List Byte) : (s.renormByte b q).latA = s.latA := rfl
@[simp] theorem State.renormByte_latV (b : Byte) (q : List Byte) : (s.renormByte b q).latV = s.latV := rfl
@[simp] theorem State.renormByte_task (b : Byte) (q : List Byte) : (s.renormByte b q).task = s.task := rfl
@[simp] theorem State.renormByte_cmdIndex (b : Byte) (q : List Byte) : (s.renormByte b q).cmdIndex = s.cmdIndex := rfl
@[simp] theorem State.renormByte_host (b : Byte) (q : List Byte) : (s.renormByte b q).host = s.host := rfl
@[simp] theorem State.renormByte_reads (b : Byte) (q : List Byte) : (s.renormByte b q).reads = s.reads := rfl
@[simp] theorem State.renormByte_freeCtr (b : Byte) (q : List Byte) : (s.renormByte b q).freeCtr = s.freeCtr := rfl

/-! ### hold -/

@[simp] theorem State.hold_cfg (t : Task) : (s.hold t).cfg = s.cfg := rfl
@[simp] theorem State.hold_cells (t : Task) : (s.hold t).cells = s.cells := rfl
@[simp] theorem State.hold_encRange (t : Task) : (s.hold t).encRange = s.encRange := rfl
@[simp] theorem State.hold_encLow (t : Task) : (s.hold t).encLow = s.encLow := rfl
@[simp] theorem State.hold_encCache (t : Task) : (s.hold t).encCache = s.encCache := rfl
@[simp] theorem State.hold_encCsize (t : Task) : (s.hold t).encCsize = s.encCsize := rfl
@[simp] theorem State.hold_outcnt (t : Task) : (s.hold t).outcnt = s.outcnt := rfl
@[simp] theorem State.hold_decRange (t : Task) : (s.hold t).decRange = s.decRange := rfl
@[simp] theorem State.hold_decCode (t : Task) : (s.hold t).decCode = s.decCode := rfl
@[simp] theorem State.hold_incnt (t : Task) : (s.hold t).incnt = s.incnt := rfl
@[simp] theorem State.hold_state (t : Task) : (s.hold t).state = s.state := rfl
@[simp] theorem State.hold_lc (t : Task) : (s.hold t).lc = s.lc := rfl
@[simp] theorem State.hold_lp (t : Task) : (s.hold t).lp = s.lp := rfl
@[simp] theorem State.hold_pb (t : Task) : (s.hold t).pb = s.pb := rfl
@[simp] theorem State.hold_mode (t : Task) : (s.hold t).mode = s.mode := rfl
@[simp] theorem State.hold_res (t : Task) : (s.hold t).res = s.res := rfl
@[simp] theorem State.hold_cmdA (t : Task) : (s.hold t).cmdA = s.cmdA := rfl
@[simp] theorem State.hold_cmdV (t : Task) : (s.hold t).cmdV = s.cmdV := rfl
@[simp] theorem State.hold_fault (t : Task) : (s.hold t).fault = s.fault := rfl
@[simp] theorem State.hold_faultInfo (t : Task) : (s.hold t).faultInfo = s.faultInfo := rfl
@[simp] theorem State.hold_busy (t : Task) : (s.hold t).busy = true := rfl
@[simp] theorem State.hold_inWait (t : Task) : (s.hold t).inWait = true := rfl
@[simp] theorem State.hold_outWait (t : Task) : (s.hold t).outWait = s.outWait := rfl
@[simp] theorem State.hold_eoi (t : Task) : (s.hold t).eoi = s.eoi := rfl
@[simp] theorem State.hold_inQueue (t : Task) : (s.hold t).inQueue = s.inQueue := rfl
@[simp] theorem State.hold_outBytes (t : Task) : (s.hold t).outBytes = s.outBytes := rfl
@[simp] theorem State.hold_latched (t : Task) : (s.hold t).latched = s.latched := rfl
@[simp] theorem State.hold_latW (t : Task) : (s.hold t).latW = s.latW := rfl
@[simp] theorem State.hold_latA (t : Task) : (s.hold t).latA = s.latA := rfl
@[simp] theorem State.hold_latV (t : Task) : (s.hold t).latV = s.latV := rfl
@[simp] theorem State.hold_task (t : Task) : (s.hold t).task = some t := rfl
@[simp] theorem State.hold_cmdIndex (t : Task) : (s.hold t).cmdIndex = s.cmdIndex := rfl
@[simp] theorem State.hold_host (t : Task) : (s.hold t).host = s.host := rfl
@[simp] theorem State.hold_reads (t : Task) : (s.hold t).reads = s.reads := rfl
@[simp] theorem State.hold_freeCtr (t : Task) : (s.hold t).freeCtr = s.freeCtr := rfl

/-! ### unhold -/

@[simp] theorem State.unhold_cfg : (s.unhold).cfg = s.cfg := rfl
@[simp] theorem State.unhold_cells : (s.unhold).cells = s.cells := rfl
@[simp] theorem State.unhold_encRange : (s.unhold).encRange = s.encRange := rfl
@[simp] theorem State.unhold_encLow : (s.unhold).encLow = s.encLow := rfl
@[simp] theorem State.unhold_encCache : (s.unhold).encCache = s.encCache := rfl
@[simp] theorem State.unhold_encCsize : (s.unhold).encCsize = s.encCsize := rfl
@[simp] theorem State.unhold_outcnt : (s.unhold).outcnt = s.outcnt := rfl
@[simp] theorem State.unhold_decRange : (s.unhold).decRange = s.decRange := rfl
@[simp] theorem State.unhold_decCode : (s.unhold).decCode = s.decCode := rfl
@[simp] theorem State.unhold_incnt : (s.unhold).incnt = s.incnt := rfl
@[simp] theorem State.unhold_state : (s.unhold).state = s.state := rfl
@[simp] theorem State.unhold_lc : (s.unhold).lc = s.lc := rfl
@[simp] theorem State.unhold_lp : (s.unhold).lp = s.lp := rfl
@[simp] theorem State.unhold_pb : (s.unhold).pb = s.pb := rfl
@[simp] theorem State.unhold_mode : (s.unhold).mode = s.mode := rfl
@[simp] theorem State.unhold_res : (s.unhold).res = s.res := rfl
@[simp] theorem State.unhold_cmdA : (s.unhold).cmdA = s.cmdA := rfl
@[simp] theorem State.unhold_cmdV : (s.unhold).cmdV = s.cmdV := rfl
@[simp] theorem State.unhold_fault : (s.unhold).fault = s.fault := rfl
@[simp] theorem State.unhold_faultInfo : (s.unhold).faultInfo = s.faultInfo := rfl
@[simp] theorem State.unhold_busy : (s.unhold).busy = s.busy := rfl
@[simp] theorem State.unhold_inWait : (s.unhold).inWait = false := rfl
@[simp] theorem State.unhold_outWait : (s.unhold).outWait = s.outWait := rfl
@[simp] theorem State.unhold_eoi : (s.unhold).eoi = s.eoi := rfl
@[simp] theorem State.unhold_inQueue : (s.unhold).inQueue = s.inQueue := rfl
@[simp] theorem State.unhold_outBytes : (s.unhold).outBytes = s.outBytes := rfl
@[simp] theorem State.unhold_latched : (s.unhold).latched = s.latched := rfl
@[simp] theorem State.unhold_latW : (s.unhold).latW = s.latW := rfl
@[simp] theorem State.unhold_latA : (s.unhold).latA = s.latA := rfl
@[simp] theorem State.unhold_latV : (s.unhold).latV = s.latV := rfl
@[simp] theorem State.unhold_task : (s.unhold).task = none := rfl
@[simp] theorem State.unhold_cmdIndex : (s.unhold).cmdIndex = s.cmdIndex := rfl
@[simp] theorem State.unhold_host : (s.unhold).host = s.host := rfl
@[simp] theorem State.unhold_reads : (s.unhold).reads = s.reads := rfl
@[simp] theorem State.unhold_freeCtr : (s.unhold).freeCtr = s.freeCtr := rfl

/-! ### offerBytes -/

@[simp] theorem State.offerBytes_cfg (bs : List Byte) : (s.offerBytes bs).cfg = s.cfg := rfl
@[simp] theorem State.offerBytes_cells (bs : List Byte) : (s.offerBytes bs).cells = s.cells := rfl
@[simp] theorem State.offerBytes_encRange (bs : List Byte) : (s.offerBytes bs).encRange = s.encRange := rfl
@[simp] theorem State.offerBytes_encLow (bs : List Byte) : (s.offerBytes bs).encLow = s.encLow := rfl
@[simp] theorem State.offerBytes_encCache (bs : List Byte) : (s.offerBytes bs).encCache = s.encCache := rfl
@[simp] theorem State.offerBytes_encCsize (bs : List Byte) : (s.offerBytes bs).encCsize = s.encCsize := rfl
@[simp] theorem State.offerBytes_outcnt (bs : List Byte) : (s.offerBytes bs).outcnt = s.outcnt := rfl
@[simp] theorem State.offerBytes_decRange (bs : List Byte) : (s.offerBytes bs).decRange = s.decRange := rfl
@[simp] theorem State.offerBytes_decCode (bs : List Byte) : (s.offerBytes bs).decCode = s.decCode := rfl
@[simp] theorem State.offerBytes_incnt (bs : List Byte) : (s.offerBytes bs).incnt = s.incnt := rfl
@[simp] theorem State.offerBytes_state (bs : List Byte) : (s.offerBytes bs).state = s.state := rfl
@[simp] theorem State.offerBytes_lc (bs : List Byte) : (s.offerBytes bs).lc = s.lc := rfl
@[simp] theorem State.offerBytes_lp (bs : List Byte) : (s.offerBytes bs).lp = s.lp := rfl
@[simp] theorem State.offerBytes_pb (bs : List Byte) : (s.offerBytes bs).pb = s.pb := rfl
@[simp] theorem State.offerBytes_mode (bs : List Byte) : (s.offerBytes bs).mode = s.mode := rfl
@[simp] theorem State.offerBytes_res (bs : List Byte) : (s.offerBytes bs).res = s.res := rfl
@[simp] theorem State.offerBytes_cmdA (bs : List Byte) : (s.offerBytes bs).cmdA = s.cmdA := rfl
@[simp] theorem State.offerBytes_cmdV (bs : List Byte) : (s.offerBytes bs).cmdV = s.cmdV := rfl
@[simp] theorem State.offerBytes_fault (bs : List Byte) : (s.offerBytes bs).fault = s.fault := rfl
@[simp] theorem State.offerBytes_faultInfo (bs : List Byte) : (s.offerBytes bs).faultInfo = s.faultInfo := rfl
@[simp] theorem State.offerBytes_busy (bs : List Byte) : (s.offerBytes bs).busy = s.busy := rfl
@[simp] theorem State.offerBytes_inWait (bs : List Byte) : (s.offerBytes bs).inWait = s.inWait := rfl
@[simp] theorem State.offerBytes_outWait (bs : List Byte) : (s.offerBytes bs).outWait = s.outWait := rfl
@[simp] theorem State.offerBytes_eoi (bs : List Byte) : (s.offerBytes bs).eoi = s.eoi := rfl
@[simp] theorem State.offerBytes_inQueue (bs : List Byte) : (s.offerBytes bs).inQueue = s.inQueue ++ bs := rfl
@[simp] theorem State.offerBytes_outBytes (bs : List Byte) : (s.offerBytes bs).outBytes = s.outBytes := rfl
@[simp] theorem State.offerBytes_latched (bs : List Byte) : (s.offerBytes bs).latched = s.latched := rfl
@[simp] theorem State.offerBytes_latW (bs : List Byte) : (s.offerBytes bs).latW = s.latW := rfl
@[simp] theorem State.offerBytes_latA (bs : List Byte) : (s.offerBytes bs).latA = s.latA := rfl
@[simp] theorem State.offerBytes_latV (bs : List Byte) : (s.offerBytes bs).latV = s.latV := rfl
@[simp] theorem State.offerBytes_task (bs : List Byte) : (s.offerBytes bs).task = s.task := rfl
@[simp] theorem State.offerBytes_cmdIndex (bs : List Byte) : (s.offerBytes bs).cmdIndex = s.cmdIndex := rfl
@[simp] theorem State.offerBytes_host (bs : List Byte) : (s.offerBytes bs).host = s.host := rfl
@[simp] theorem State.offerBytes_reads (bs : List Byte) : (s.offerBytes bs).reads = s.reads := rfl
@[simp] theorem State.offerBytes_freeCtr (bs : List Byte) : (s.offerBytes bs).freeCtr = s.freeCtr := rfl

/-! ### loadProps -/

@[simp] theorem State.loadProps_cfg (d : Nat) : (s.loadProps d).cfg = s.cfg := rfl
@[simp] theorem State.loadProps_cells (d : Nat) : (s.loadProps d).cells = s.cells := rfl
@[simp] theorem State.loadProps_encRange (d : Nat) : (s.loadProps d).encRange = s.encRange := rfl
@[simp] theorem State.loadProps_encLow (d : Nat) : (s.loadProps d).encLow = s.encLow := rfl
@[simp] theorem State.loadProps_encCache (d : Nat) : (s.loadProps d).encCache = s.encCache := rfl
@[simp] theorem State.loadProps_encCsize (d : Nat) : (s.loadProps d).encCsize = s.encCsize := rfl
@[simp] theorem State.loadProps_outcnt (d : Nat) : (s.loadProps d).outcnt = s.outcnt := rfl
@[simp] theorem State.loadProps_decRange (d : Nat) : (s.loadProps d).decRange = s.decRange := rfl
@[simp] theorem State.loadProps_decCode (d : Nat) : (s.loadProps d).decCode = s.decCode := rfl
@[simp] theorem State.loadProps_incnt (d : Nat) : (s.loadProps d).incnt = s.incnt := rfl
@[simp] theorem State.loadProps_state (d : Nat) : (s.loadProps d).state = s.state := rfl
@[simp] theorem State.loadProps_lc (d : Nat) : (s.loadProps d).lc = BitVec.ofNat 4 (d % 9) := rfl
@[simp] theorem State.loadProps_lp (d : Nat) : (s.loadProps d).lp = BitVec.ofNat 3 (d / 9 % 5) := rfl
@[simp] theorem State.loadProps_pb (d : Nat) : (s.loadProps d).pb = BitVec.ofNat 3 (d / 45) := rfl
@[simp] theorem State.loadProps_mode (d : Nat) : (s.loadProps d).mode = s.mode := rfl
@[simp] theorem State.loadProps_res (d : Nat) : (s.loadProps d).res = s.res := rfl
@[simp] theorem State.loadProps_cmdA (d : Nat) : (s.loadProps d).cmdA = s.cmdA := rfl
@[simp] theorem State.loadProps_cmdV (d : Nat) : (s.loadProps d).cmdV = s.cmdV := rfl
@[simp] theorem State.loadProps_fault (d : Nat) : (s.loadProps d).fault = s.fault := rfl
@[simp] theorem State.loadProps_faultInfo (d : Nat) : (s.loadProps d).faultInfo = s.faultInfo := rfl
@[simp] theorem State.loadProps_busy (d : Nat) : (s.loadProps d).busy = s.busy := rfl
@[simp] theorem State.loadProps_inWait (d : Nat) : (s.loadProps d).inWait = s.inWait := rfl
@[simp] theorem State.loadProps_outWait (d : Nat) : (s.loadProps d).outWait = s.outWait := rfl
@[simp] theorem State.loadProps_eoi (d : Nat) : (s.loadProps d).eoi = s.eoi := rfl
@[simp] theorem State.loadProps_inQueue (d : Nat) : (s.loadProps d).inQueue = s.inQueue := rfl
@[simp] theorem State.loadProps_outBytes (d : Nat) : (s.loadProps d).outBytes = s.outBytes := rfl
@[simp] theorem State.loadProps_latched (d : Nat) : (s.loadProps d).latched = s.latched := rfl
@[simp] theorem State.loadProps_latW (d : Nat) : (s.loadProps d).latW = s.latW := rfl
@[simp] theorem State.loadProps_latA (d : Nat) : (s.loadProps d).latA = s.latA := rfl
@[simp] theorem State.loadProps_latV (d : Nat) : (s.loadProps d).latV = s.latV := rfl
@[simp] theorem State.loadProps_task (d : Nat) : (s.loadProps d).task = s.task := rfl
@[simp] theorem State.loadProps_cmdIndex (d : Nat) : (s.loadProps d).cmdIndex = s.cmdIndex := rfl
@[simp] theorem State.loadProps_host (d : Nat) : (s.loadProps d).host = s.host := rfl
@[simp] theorem State.loadProps_reads (d : Nat) : (s.loadProps d).reads = s.reads := rfl
@[simp] theorem State.loadProps_freeCtr (d : Nat) : (s.loadProps d).freeCtr = s.freeCtr := rfl

/-! ### emit -/

@[simp] theorem State.emit_cfg (bs : List Byte) : (s.emit bs).cfg = s.cfg := rfl
@[simp] theorem State.emit_cells (bs : List Byte) : (s.emit bs).cells = s.cells := rfl
@[simp] theorem State.emit_encRange (bs : List Byte) : (s.emit bs).encRange = s.encRange := rfl
@[simp] theorem State.emit_encLow (bs : List Byte) : (s.emit bs).encLow = s.encLow := rfl
@[simp] theorem State.emit_encCache (bs : List Byte) : (s.emit bs).encCache = s.encCache := rfl
@[simp] theorem State.emit_encCsize (bs : List Byte) : (s.emit bs).encCsize = s.encCsize := rfl
@[simp] theorem State.emit_outcnt (bs : List Byte) : (s.emit bs).outcnt = s.outcnt := rfl
@[simp] theorem State.emit_decRange (bs : List Byte) : (s.emit bs).decRange = s.decRange := rfl
@[simp] theorem State.emit_decCode (bs : List Byte) : (s.emit bs).decCode = s.decCode := rfl
@[simp] theorem State.emit_incnt (bs : List Byte) : (s.emit bs).incnt = s.incnt := rfl
@[simp] theorem State.emit_state (bs : List Byte) : (s.emit bs).state = s.state := rfl
@[simp] theorem State.emit_lc (bs : List Byte) : (s.emit bs).lc = s.lc := rfl
@[simp] theorem State.emit_lp (bs : List Byte) : (s.emit bs).lp = s.lp := rfl
@[simp] theorem State.emit_pb (bs : List Byte) : (s.emit bs).pb = s.pb := rfl
@[simp] theorem State.emit_mode (bs : List Byte) : (s.emit bs).mode = s.mode := rfl
@[simp] theorem State.emit_res (bs : List Byte) : (s.emit bs).res = s.res := rfl
@[simp] theorem State.emit_cmdA (bs : List Byte) : (s.emit bs).cmdA = s.cmdA := rfl
@[simp] theorem State.emit_cmdV (bs : List Byte) : (s.emit bs).cmdV = s.cmdV := rfl
@[simp] theorem State.emit_fault (bs : List Byte) : (s.emit bs).fault = s.fault := rfl
@[simp] theorem State.emit_faultInfo (bs : List Byte) : (s.emit bs).faultInfo = s.faultInfo := rfl
@[simp] theorem State.emit_busy (bs : List Byte) : (s.emit bs).busy = s.busy := rfl
@[simp] theorem State.emit_inWait (bs : List Byte) : (s.emit bs).inWait = s.inWait := rfl
@[simp] theorem State.emit_outWait (bs : List Byte) : (s.emit bs).outWait = s.outWait := rfl
@[simp] theorem State.emit_eoi (bs : List Byte) : (s.emit bs).eoi = s.eoi := rfl
@[simp] theorem State.emit_inQueue (bs : List Byte) : (s.emit bs).inQueue = s.inQueue := rfl
@[simp] theorem State.emit_outBytes (bs : List Byte) : (s.emit bs).outBytes = s.outBytes ++ bs := rfl
@[simp] theorem State.emit_latched (bs : List Byte) : (s.emit bs).latched = s.latched := rfl
@[simp] theorem State.emit_latW (bs : List Byte) : (s.emit bs).latW = s.latW := rfl
@[simp] theorem State.emit_latA (bs : List Byte) : (s.emit bs).latA = s.latA := rfl
@[simp] theorem State.emit_latV (bs : List Byte) : (s.emit bs).latV = s.latV := rfl
@[simp] theorem State.emit_task (bs : List Byte) : (s.emit bs).task = s.task := rfl
@[simp] theorem State.emit_cmdIndex (bs : List Byte) : (s.emit bs).cmdIndex = s.cmdIndex := rfl
@[simp] theorem State.emit_host (bs : List Byte) : (s.emit bs).host = s.host := rfl
@[simp] theorem State.emit_reads (bs : List Byte) : (s.emit bs).reads = s.reads := rfl
@[simp] theorem State.emit_freeCtr (bs : List Byte) : (s.emit bs).freeCtr = s.freeCtr := rfl

/-! ### record -/

/-- The frame of record: it writes no other field. -/
theorem State.record_frame (c : FaultCode) (w : Word) :
    s.record c w = { s with fault := (s.record c w).fault, faultInfo := (s.record c w).faultInfo } := by
  unfold State.record; split <;> rfl

@[simp] theorem State.record_cfg (c : FaultCode) (w : Word) : (s.record c w).cfg = s.cfg := by rw [State.record_frame]
@[simp] theorem State.record_cells (c : FaultCode) (w : Word) : (s.record c w).cells = s.cells := by rw [State.record_frame]
@[simp] theorem State.record_encRange (c : FaultCode) (w : Word) : (s.record c w).encRange = s.encRange := by rw [State.record_frame]
@[simp] theorem State.record_encLow (c : FaultCode) (w : Word) : (s.record c w).encLow = s.encLow := by rw [State.record_frame]
@[simp] theorem State.record_encCache (c : FaultCode) (w : Word) : (s.record c w).encCache = s.encCache := by rw [State.record_frame]
@[simp] theorem State.record_encCsize (c : FaultCode) (w : Word) : (s.record c w).encCsize = s.encCsize := by rw [State.record_frame]
@[simp] theorem State.record_outcnt (c : FaultCode) (w : Word) : (s.record c w).outcnt = s.outcnt := by rw [State.record_frame]
@[simp] theorem State.record_decRange (c : FaultCode) (w : Word) : (s.record c w).decRange = s.decRange := by rw [State.record_frame]
@[simp] theorem State.record_decCode (c : FaultCode) (w : Word) : (s.record c w).decCode = s.decCode := by rw [State.record_frame]
@[simp] theorem State.record_incnt (c : FaultCode) (w : Word) : (s.record c w).incnt = s.incnt := by rw [State.record_frame]
@[simp] theorem State.record_state (c : FaultCode) (w : Word) : (s.record c w).state = s.state := by rw [State.record_frame]
@[simp] theorem State.record_lc (c : FaultCode) (w : Word) : (s.record c w).lc = s.lc := by rw [State.record_frame]
@[simp] theorem State.record_lp (c : FaultCode) (w : Word) : (s.record c w).lp = s.lp := by rw [State.record_frame]
@[simp] theorem State.record_pb (c : FaultCode) (w : Word) : (s.record c w).pb = s.pb := by rw [State.record_frame]
@[simp] theorem State.record_mode (c : FaultCode) (w : Word) : (s.record c w).mode = s.mode := by rw [State.record_frame]
@[simp] theorem State.record_res (c : FaultCode) (w : Word) : (s.record c w).res = s.res := by rw [State.record_frame]
@[simp] theorem State.record_cmdA (c : FaultCode) (w : Word) : (s.record c w).cmdA = s.cmdA := by rw [State.record_frame]
@[simp] theorem State.record_cmdV (c : FaultCode) (w : Word) : (s.record c w).cmdV = s.cmdV := by rw [State.record_frame]
@[simp] theorem State.record_busy (c : FaultCode) (w : Word) : (s.record c w).busy = s.busy := by rw [State.record_frame]
@[simp] theorem State.record_inWait (c : FaultCode) (w : Word) : (s.record c w).inWait = s.inWait := by rw [State.record_frame]
@[simp] theorem State.record_outWait (c : FaultCode) (w : Word) : (s.record c w).outWait = s.outWait := by rw [State.record_frame]
@[simp] theorem State.record_eoi (c : FaultCode) (w : Word) : (s.record c w).eoi = s.eoi := by rw [State.record_frame]
@[simp] theorem State.record_inQueue (c : FaultCode) (w : Word) : (s.record c w).inQueue = s.inQueue := by rw [State.record_frame]
@[simp] theorem State.record_outBytes (c : FaultCode) (w : Word) : (s.record c w).outBytes = s.outBytes := by rw [State.record_frame]
@[simp] theorem State.record_latched (c : FaultCode) (w : Word) : (s.record c w).latched = s.latched := by rw [State.record_frame]
@[simp] theorem State.record_latW (c : FaultCode) (w : Word) : (s.record c w).latW = s.latW := by rw [State.record_frame]; rfl
@[simp] theorem State.record_latA (c : FaultCode) (w : Word) : (s.record c w).latA = s.latA := by rw [State.record_frame]; rfl
@[simp] theorem State.record_latV (c : FaultCode) (w : Word) : (s.record c w).latV = s.latV := by rw [State.record_frame]; rfl
@[simp] theorem State.record_task (c : FaultCode) (w : Word) : (s.record c w).task = s.task := by rw [State.record_frame]
@[simp] theorem State.record_cmdIndex (c : FaultCode) (w : Word) : (s.record c w).cmdIndex = s.cmdIndex := by rw [State.record_frame]
@[simp] theorem State.record_host (c : FaultCode) (w : Word) : (s.record c w).host = s.host := by rw [State.record_frame]
@[simp] theorem State.record_reads (c : FaultCode) (w : Word) : (s.record c w).reads = s.reads := by rw [State.record_frame]
@[simp] theorem State.record_freeCtr (c : FaultCode) (w : Word) : (s.record c w).freeCtr = s.freeCtr := by rw [State.record_frame]

/-! ### shiftLow -/

/-- The frame of shiftLow: it writes no other field. -/
theorem State.shiftLow_frame :
    s.shiftLow = { s with encLow := (s.shiftLow).encLow, encCache := (s.shiftLow).encCache, encCsize := (s.shiftLow).encCsize, outcnt := (s.shiftLow).outcnt, outBytes := (s.shiftLow).outBytes } := by
  unfold State.shiftLow; cases s.carryKnown <;> rfl

@[simp] theorem State.shiftLow_cfg : (s.shiftLow).cfg = s.cfg := by rw [State.shiftLow_frame]
@[simp] theorem State.shiftLow_cells : (s.shiftLow).cells = s.cells := by rw [State.shiftLow_frame]
@[simp] theorem State.shiftLow_encRange : (s.shiftLow).encRange = s.encRange := by rw [State.shiftLow_frame]
@[simp] theorem State.shiftLow_decRange : (s.shiftLow).decRange = s.decRange := by rw [State.shiftLow_frame]
@[simp] theorem State.shiftLow_decCode : (s.shiftLow).decCode = s.decCode := by rw [State.shiftLow_frame]
@[simp] theorem State.shiftLow_incnt : (s.shiftLow).incnt = s.incnt := by rw [State.shiftLow_frame]
@[simp] theorem State.shiftLow_state : (s.shiftLow).state = s.state := by rw [State.shiftLow_frame]
@[simp] theorem State.shiftLow_lc : (s.shiftLow).lc = s.lc := by rw [State.shiftLow_frame]
@[simp] theorem State.shiftLow_lp : (s.shiftLow).lp = s.lp := by rw [State.shiftLow_frame]
@[simp] theorem State.shiftLow_pb : (s.shiftLow).pb = s.pb := by rw [State.shiftLow_frame]
@[simp] theorem State.shiftLow_mode : (s.shiftLow).mode = s.mode := by rw [State.shiftLow_frame]
@[simp] theorem State.shiftLow_res : (s.shiftLow).res = s.res := by rw [State.shiftLow_frame]
@[simp] theorem State.shiftLow_cmdA : (s.shiftLow).cmdA = s.cmdA := by rw [State.shiftLow_frame]
@[simp] theorem State.shiftLow_cmdV : (s.shiftLow).cmdV = s.cmdV := by rw [State.shiftLow_frame]
@[simp] theorem State.shiftLow_fault : (s.shiftLow).fault = s.fault := by rw [State.shiftLow_frame]
@[simp] theorem State.shiftLow_faultInfo : (s.shiftLow).faultInfo = s.faultInfo := by rw [State.shiftLow_frame]
@[simp] theorem State.shiftLow_busy : (s.shiftLow).busy = s.busy := by rw [State.shiftLow_frame]
@[simp] theorem State.shiftLow_inWait : (s.shiftLow).inWait = s.inWait := by rw [State.shiftLow_frame]
@[simp] theorem State.shiftLow_outWait : (s.shiftLow).outWait = s.outWait := by rw [State.shiftLow_frame]
@[simp] theorem State.shiftLow_eoi : (s.shiftLow).eoi = s.eoi := by rw [State.shiftLow_frame]
@[simp] theorem State.shiftLow_inQueue : (s.shiftLow).inQueue = s.inQueue := by rw [State.shiftLow_frame]
@[simp] theorem State.shiftLow_latched : (s.shiftLow).latched = s.latched := by rw [State.shiftLow_frame]
@[simp] theorem State.shiftLow_latW : (s.shiftLow).latW = s.latW := by rw [State.shiftLow_frame]; rfl
@[simp] theorem State.shiftLow_latA : (s.shiftLow).latA = s.latA := by rw [State.shiftLow_frame]; rfl
@[simp] theorem State.shiftLow_latV : (s.shiftLow).latV = s.latV := by rw [State.shiftLow_frame]; rfl
@[simp] theorem State.shiftLow_task : (s.shiftLow).task = s.task := by rw [State.shiftLow_frame]
@[simp] theorem State.shiftLow_cmdIndex : (s.shiftLow).cmdIndex = s.cmdIndex := by rw [State.shiftLow_frame]
@[simp] theorem State.shiftLow_host : (s.shiftLow).host = s.host := by rw [State.shiftLow_frame]
@[simp] theorem State.shiftLow_reads : (s.shiftLow).reads = s.reads := by rw [State.shiftLow_frame]
@[simp] theorem State.shiftLow_freeCtr : (s.shiftLow).freeCtr = s.freeCtr := by rw [State.shiftLow_frame]

/-! ### encodeSplit -/

/-- The frame of encodeSplit: it writes no other field. -/
theorem State.encodeSplit_frame (a : Nat) (b : Bool) :
    s.encodeSplit a b = { s with encRange := (s.encodeSplit a b).encRange, encLow := (s.encodeSplit a b).encLow } := by
  unfold State.encodeSplit; cases b <;> rfl

@[simp] theorem State.encodeSplit_cfg (a : Nat) (b : Bool) : (s.encodeSplit a b).cfg = s.cfg := by rw [State.encodeSplit_frame]
@[simp] theorem State.encodeSplit_cells (a : Nat) (b : Bool) : (s.encodeSplit a b).cells = s.cells := by rw [State.encodeSplit_frame]
@[simp] theorem State.encodeSplit_encCache (a : Nat) (b : Bool) : (s.encodeSplit a b).encCache = s.encCache := by rw [State.encodeSplit_frame]
@[simp] theorem State.encodeSplit_encCsize (a : Nat) (b : Bool) : (s.encodeSplit a b).encCsize = s.encCsize := by rw [State.encodeSplit_frame]
@[simp] theorem State.encodeSplit_outcnt (a : Nat) (b : Bool) : (s.encodeSplit a b).outcnt = s.outcnt := by rw [State.encodeSplit_frame]
@[simp] theorem State.encodeSplit_decRange (a : Nat) (b : Bool) : (s.encodeSplit a b).decRange = s.decRange := by rw [State.encodeSplit_frame]
@[simp] theorem State.encodeSplit_decCode (a : Nat) (b : Bool) : (s.encodeSplit a b).decCode = s.decCode := by rw [State.encodeSplit_frame]
@[simp] theorem State.encodeSplit_incnt (a : Nat) (b : Bool) : (s.encodeSplit a b).incnt = s.incnt := by rw [State.encodeSplit_frame]
@[simp] theorem State.encodeSplit_state (a : Nat) (b : Bool) : (s.encodeSplit a b).state = s.state := by rw [State.encodeSplit_frame]
@[simp] theorem State.encodeSplit_lc (a : Nat) (b : Bool) : (s.encodeSplit a b).lc = s.lc := by rw [State.encodeSplit_frame]
@[simp] theorem State.encodeSplit_lp (a : Nat) (b : Bool) : (s.encodeSplit a b).lp = s.lp := by rw [State.encodeSplit_frame]
@[simp] theorem State.encodeSplit_pb (a : Nat) (b : Bool) : (s.encodeSplit a b).pb = s.pb := by rw [State.encodeSplit_frame]
@[simp] theorem State.encodeSplit_mode (a : Nat) (b : Bool) : (s.encodeSplit a b).mode = s.mode := by rw [State.encodeSplit_frame]
@[simp] theorem State.encodeSplit_res (a : Nat) (b : Bool) : (s.encodeSplit a b).res = s.res := by rw [State.encodeSplit_frame]
@[simp] theorem State.encodeSplit_cmdA (a : Nat) (b : Bool) : (s.encodeSplit a b).cmdA = s.cmdA := by rw [State.encodeSplit_frame]
@[simp] theorem State.encodeSplit_cmdV (a : Nat) (b : Bool) : (s.encodeSplit a b).cmdV = s.cmdV := by rw [State.encodeSplit_frame]
@[simp] theorem State.encodeSplit_fault (a : Nat) (b : Bool) : (s.encodeSplit a b).fault = s.fault := by rw [State.encodeSplit_frame]
@[simp] theorem State.encodeSplit_faultInfo (a : Nat) (b : Bool) : (s.encodeSplit a b).faultInfo = s.faultInfo := by rw [State.encodeSplit_frame]
@[simp] theorem State.encodeSplit_busy (a : Nat) (b : Bool) : (s.encodeSplit a b).busy = s.busy := by rw [State.encodeSplit_frame]
@[simp] theorem State.encodeSplit_inWait (a : Nat) (b : Bool) : (s.encodeSplit a b).inWait = s.inWait := by rw [State.encodeSplit_frame]
@[simp] theorem State.encodeSplit_outWait (a : Nat) (b : Bool) : (s.encodeSplit a b).outWait = s.outWait := by rw [State.encodeSplit_frame]
@[simp] theorem State.encodeSplit_eoi (a : Nat) (b : Bool) : (s.encodeSplit a b).eoi = s.eoi := by rw [State.encodeSplit_frame]
@[simp] theorem State.encodeSplit_inQueue (a : Nat) (b : Bool) : (s.encodeSplit a b).inQueue = s.inQueue := by rw [State.encodeSplit_frame]
@[simp] theorem State.encodeSplit_outBytes (a : Nat) (b : Bool) : (s.encodeSplit a b).outBytes = s.outBytes := by rw [State.encodeSplit_frame]
@[simp] theorem State.encodeSplit_latched (a : Nat) (b : Bool) : (s.encodeSplit a b).latched = s.latched := by rw [State.encodeSplit_frame]
@[simp] theorem State.encodeSplit_latW (a : Nat) (b : Bool) : (s.encodeSplit a b).latW = s.latW := by rw [State.encodeSplit_frame]; rfl
@[simp] theorem State.encodeSplit_latA (a : Nat) (b : Bool) : (s.encodeSplit a b).latA = s.latA := by rw [State.encodeSplit_frame]; rfl
@[simp] theorem State.encodeSplit_latV (a : Nat) (b : Bool) : (s.encodeSplit a b).latV = s.latV := by rw [State.encodeSplit_frame]; rfl
@[simp] theorem State.encodeSplit_task (a : Nat) (b : Bool) : (s.encodeSplit a b).task = s.task := by rw [State.encodeSplit_frame]
@[simp] theorem State.encodeSplit_cmdIndex (a : Nat) (b : Bool) : (s.encodeSplit a b).cmdIndex = s.cmdIndex := by rw [State.encodeSplit_frame]
@[simp] theorem State.encodeSplit_host (a : Nat) (b : Bool) : (s.encodeSplit a b).host = s.host := by rw [State.encodeSplit_frame]
@[simp] theorem State.encodeSplit_reads (a : Nat) (b : Bool) : (s.encodeSplit a b).reads = s.reads := by rw [State.encodeSplit_frame]
@[simp] theorem State.encodeSplit_freeCtr (a : Nat) (b : Bool) : (s.encodeSplit a b).freeCtr = s.freeCtr := by rw [State.encodeSplit_frame]

/-! ### directSplit -/

/-- The frame of directSplit: it writes no other field. -/
theorem State.directSplit_frame (b : Bool) :
    s.directSplit b = { s with encRange := (s.directSplit b).encRange, encLow := (s.directSplit b).encLow } := by
  unfold State.directSplit; cases b <;> rfl

@[simp] theorem State.directSplit_cfg (b : Bool) : (s.directSplit b).cfg = s.cfg := by rw [State.directSplit_frame]
@[simp] theorem State.directSplit_cells (b : Bool) : (s.directSplit b).cells = s.cells := by rw [State.directSplit_frame]
@[simp] theorem State.directSplit_encCache (b : Bool) : (s.directSplit b).encCache = s.encCache := by rw [State.directSplit_frame]
@[simp] theorem State.directSplit_encCsize (b : Bool) : (s.directSplit b).encCsize = s.encCsize := by rw [State.directSplit_frame]
@[simp] theorem State.directSplit_outcnt (b : Bool) : (s.directSplit b).outcnt = s.outcnt := by rw [State.directSplit_frame]
@[simp] theorem State.directSplit_decRange (b : Bool) : (s.directSplit b).decRange = s.decRange := by rw [State.directSplit_frame]
@[simp] theorem State.directSplit_decCode (b : Bool) : (s.directSplit b).decCode = s.decCode := by rw [State.directSplit_frame]
@[simp] theorem State.directSplit_incnt (b : Bool) : (s.directSplit b).incnt = s.incnt := by rw [State.directSplit_frame]
@[simp] theorem State.directSplit_state (b : Bool) : (s.directSplit b).state = s.state := by rw [State.directSplit_frame]
@[simp] theorem State.directSplit_lc (b : Bool) : (s.directSplit b).lc = s.lc := by rw [State.directSplit_frame]
@[simp] theorem State.directSplit_lp (b : Bool) : (s.directSplit b).lp = s.lp := by rw [State.directSplit_frame]
@[simp] theorem State.directSplit_pb (b : Bool) : (s.directSplit b).pb = s.pb := by rw [State.directSplit_frame]
@[simp] theorem State.directSplit_mode (b : Bool) : (s.directSplit b).mode = s.mode := by rw [State.directSplit_frame]
@[simp] theorem State.directSplit_res (b : Bool) : (s.directSplit b).res = s.res := by rw [State.directSplit_frame]
@[simp] theorem State.directSplit_cmdA (b : Bool) : (s.directSplit b).cmdA = s.cmdA := by rw [State.directSplit_frame]
@[simp] theorem State.directSplit_cmdV (b : Bool) : (s.directSplit b).cmdV = s.cmdV := by rw [State.directSplit_frame]
@[simp] theorem State.directSplit_fault (b : Bool) : (s.directSplit b).fault = s.fault := by rw [State.directSplit_frame]
@[simp] theorem State.directSplit_faultInfo (b : Bool) : (s.directSplit b).faultInfo = s.faultInfo := by rw [State.directSplit_frame]
@[simp] theorem State.directSplit_busy (b : Bool) : (s.directSplit b).busy = s.busy := by rw [State.directSplit_frame]
@[simp] theorem State.directSplit_inWait (b : Bool) : (s.directSplit b).inWait = s.inWait := by rw [State.directSplit_frame]
@[simp] theorem State.directSplit_outWait (b : Bool) : (s.directSplit b).outWait = s.outWait := by rw [State.directSplit_frame]
@[simp] theorem State.directSplit_eoi (b : Bool) : (s.directSplit b).eoi = s.eoi := by rw [State.directSplit_frame]
@[simp] theorem State.directSplit_inQueue (b : Bool) : (s.directSplit b).inQueue = s.inQueue := by rw [State.directSplit_frame]
@[simp] theorem State.directSplit_outBytes (b : Bool) : (s.directSplit b).outBytes = s.outBytes := by rw [State.directSplit_frame]
@[simp] theorem State.directSplit_latched (b : Bool) : (s.directSplit b).latched = s.latched := by rw [State.directSplit_frame]
@[simp] theorem State.directSplit_latW (b : Bool) : (s.directSplit b).latW = s.latW := by rw [State.directSplit_frame]; rfl
@[simp] theorem State.directSplit_latA (b : Bool) : (s.directSplit b).latA = s.latA := by rw [State.directSplit_frame]; rfl
@[simp] theorem State.directSplit_latV (b : Bool) : (s.directSplit b).latV = s.latV := by rw [State.directSplit_frame]; rfl
@[simp] theorem State.directSplit_task (b : Bool) : (s.directSplit b).task = s.task := by rw [State.directSplit_frame]
@[simp] theorem State.directSplit_cmdIndex (b : Bool) : (s.directSplit b).cmdIndex = s.cmdIndex := by rw [State.directSplit_frame]
@[simp] theorem State.directSplit_host (b : Bool) : (s.directSplit b).host = s.host := by rw [State.directSplit_frame]
@[simp] theorem State.directSplit_reads (b : Bool) : (s.directSplit b).reads = s.reads := by rw [State.directSplit_frame]
@[simp] theorem State.directSplit_freeCtr (b : Bool) : (s.directSplit b).freeCtr = s.freeCtr := by rw [State.directSplit_frame]

/-! ### decodeSplit -/

/-- The frame of decodeSplit: it writes no other field. -/
theorem State.decodeSplit_frame (a : Nat) :
    (s.decodeSplit a).2 = { s with cells := (s.decodeSplit a).2.cells, decRange := (s.decodeSplit a).2.decRange, decCode := (s.decodeSplit a).2.decCode } := by
  unfold State.decodeSplit; dsimp only; split <;> rfl

@[simp] theorem State.decodeSplit_cfg (a : Nat) : (s.decodeSplit a).2.cfg = s.cfg := by rw [State.decodeSplit_frame]
@[simp] theorem State.decodeSplit_encRange (a : Nat) : (s.decodeSplit a).2.encRange = s.encRange := by rw [State.decodeSplit_frame]
@[simp] theorem State.decodeSplit_encLow (a : Nat) : (s.decodeSplit a).2.encLow = s.encLow := by rw [State.decodeSplit_frame]
@[simp] theorem State.decodeSplit_encCache (a : Nat) : (s.decodeSplit a).2.encCache = s.encCache := by rw [State.decodeSplit_frame]
@[simp] theorem State.decodeSplit_encCsize (a : Nat) : (s.decodeSplit a).2.encCsize = s.encCsize := by rw [State.decodeSplit_frame]
@[simp] theorem State.decodeSplit_outcnt (a : Nat) : (s.decodeSplit a).2.outcnt = s.outcnt := by rw [State.decodeSplit_frame]
@[simp] theorem State.decodeSplit_incnt (a : Nat) : (s.decodeSplit a).2.incnt = s.incnt := by rw [State.decodeSplit_frame]
@[simp] theorem State.decodeSplit_state (a : Nat) : (s.decodeSplit a).2.state = s.state := by rw [State.decodeSplit_frame]
@[simp] theorem State.decodeSplit_lc (a : Nat) : (s.decodeSplit a).2.lc = s.lc := by rw [State.decodeSplit_frame]
@[simp] theorem State.decodeSplit_lp (a : Nat) : (s.decodeSplit a).2.lp = s.lp := by rw [State.decodeSplit_frame]
@[simp] theorem State.decodeSplit_pb (a : Nat) : (s.decodeSplit a).2.pb = s.pb := by rw [State.decodeSplit_frame]
@[simp] theorem State.decodeSplit_mode (a : Nat) : (s.decodeSplit a).2.mode = s.mode := by rw [State.decodeSplit_frame]
@[simp] theorem State.decodeSplit_res (a : Nat) : (s.decodeSplit a).2.res = s.res := by rw [State.decodeSplit_frame]
@[simp] theorem State.decodeSplit_cmdA (a : Nat) : (s.decodeSplit a).2.cmdA = s.cmdA := by rw [State.decodeSplit_frame]
@[simp] theorem State.decodeSplit_cmdV (a : Nat) : (s.decodeSplit a).2.cmdV = s.cmdV := by rw [State.decodeSplit_frame]
@[simp] theorem State.decodeSplit_fault (a : Nat) : (s.decodeSplit a).2.fault = s.fault := by rw [State.decodeSplit_frame]
@[simp] theorem State.decodeSplit_faultInfo (a : Nat) : (s.decodeSplit a).2.faultInfo = s.faultInfo := by rw [State.decodeSplit_frame]
@[simp] theorem State.decodeSplit_busy (a : Nat) : (s.decodeSplit a).2.busy = s.busy := by rw [State.decodeSplit_frame]
@[simp] theorem State.decodeSplit_inWait (a : Nat) : (s.decodeSplit a).2.inWait = s.inWait := by rw [State.decodeSplit_frame]
@[simp] theorem State.decodeSplit_outWait (a : Nat) : (s.decodeSplit a).2.outWait = s.outWait := by rw [State.decodeSplit_frame]
@[simp] theorem State.decodeSplit_eoi (a : Nat) : (s.decodeSplit a).2.eoi = s.eoi := by rw [State.decodeSplit_frame]
@[simp] theorem State.decodeSplit_inQueue (a : Nat) : (s.decodeSplit a).2.inQueue = s.inQueue := by rw [State.decodeSplit_frame]
@[simp] theorem State.decodeSplit_outBytes (a : Nat) : (s.decodeSplit a).2.outBytes = s.outBytes := by rw [State.decodeSplit_frame]
@[simp] theorem State.decodeSplit_latched (a : Nat) : (s.decodeSplit a).2.latched = s.latched := by rw [State.decodeSplit_frame]
@[simp] theorem State.decodeSplit_latW (a : Nat) : (s.decodeSplit a).2.latW = s.latW := by rw [State.decodeSplit_frame]; rfl
@[simp] theorem State.decodeSplit_latA (a : Nat) : (s.decodeSplit a).2.latA = s.latA := by rw [State.decodeSplit_frame]; rfl
@[simp] theorem State.decodeSplit_latV (a : Nat) : (s.decodeSplit a).2.latV = s.latV := by rw [State.decodeSplit_frame]; rfl
@[simp] theorem State.decodeSplit_task (a : Nat) : (s.decodeSplit a).2.task = s.task := by rw [State.decodeSplit_frame]
@[simp] theorem State.decodeSplit_cmdIndex (a : Nat) : (s.decodeSplit a).2.cmdIndex = s.cmdIndex := by rw [State.decodeSplit_frame]
@[simp] theorem State.decodeSplit_host (a : Nat) : (s.decodeSplit a).2.host = s.host := by rw [State.decodeSplit_frame]
@[simp] theorem State.decodeSplit_reads (a : Nat) : (s.decodeSplit a).2.reads = s.reads := by rw [State.decodeSplit_frame]
@[simp] theorem State.decodeSplit_freeCtr (a : Nat) : (s.decodeSplit a).2.freeCtr = s.freeCtr := by rw [State.decodeSplit_frame]

/-! ### decodeHalf -/

/-- The frame of decodeHalf: it writes no other field. -/
theorem State.decodeHalf_frame :
    s.decodeHalf.2 = { s with decRange := s.decodeHalf.2.decRange, decCode := s.decodeHalf.2.decCode } := by
  unfold State.decodeHalf; dsimp only; split <;> rfl

@[simp] theorem State.decodeHalf_cfg : s.decodeHalf.2.cfg = s.cfg := by rw [State.decodeHalf_frame]
@[simp] theorem State.decodeHalf_cells : s.decodeHalf.2.cells = s.cells := by rw [State.decodeHalf_frame]
@[simp] theorem State.decodeHalf_encRange : s.decodeHalf.2.encRange = s.encRange := by rw [State.decodeHalf_frame]
@[simp] theorem State.decodeHalf_encLow : s.decodeHalf.2.encLow = s.encLow := by rw [State.decodeHalf_frame]
@[simp] theorem State.decodeHalf_encCache : s.decodeHalf.2.encCache = s.encCache := by rw [State.decodeHalf_frame]
@[simp] theorem State.decodeHalf_encCsize : s.decodeHalf.2.encCsize = s.encCsize := by rw [State.decodeHalf_frame]
@[simp] theorem State.decodeHalf_outcnt : s.decodeHalf.2.outcnt = s.outcnt := by rw [State.decodeHalf_frame]
@[simp] theorem State.decodeHalf_incnt : s.decodeHalf.2.incnt = s.incnt := by rw [State.decodeHalf_frame]
@[simp] theorem State.decodeHalf_state : s.decodeHalf.2.state = s.state := by rw [State.decodeHalf_frame]
@[simp] theorem State.decodeHalf_lc : s.decodeHalf.2.lc = s.lc := by rw [State.decodeHalf_frame]
@[simp] theorem State.decodeHalf_lp : s.decodeHalf.2.lp = s.lp := by rw [State.decodeHalf_frame]
@[simp] theorem State.decodeHalf_pb : s.decodeHalf.2.pb = s.pb := by rw [State.decodeHalf_frame]
@[simp] theorem State.decodeHalf_mode : s.decodeHalf.2.mode = s.mode := by rw [State.decodeHalf_frame]
@[simp] theorem State.decodeHalf_res : s.decodeHalf.2.res = s.res := by rw [State.decodeHalf_frame]
@[simp] theorem State.decodeHalf_cmdA : s.decodeHalf.2.cmdA = s.cmdA := by rw [State.decodeHalf_frame]
@[simp] theorem State.decodeHalf_cmdV : s.decodeHalf.2.cmdV = s.cmdV := by rw [State.decodeHalf_frame]
@[simp] theorem State.decodeHalf_fault : s.decodeHalf.2.fault = s.fault := by rw [State.decodeHalf_frame]
@[simp] theorem State.decodeHalf_faultInfo : s.decodeHalf.2.faultInfo = s.faultInfo := by rw [State.decodeHalf_frame]
@[simp] theorem State.decodeHalf_busy : s.decodeHalf.2.busy = s.busy := by rw [State.decodeHalf_frame]
@[simp] theorem State.decodeHalf_inWait : s.decodeHalf.2.inWait = s.inWait := by rw [State.decodeHalf_frame]
@[simp] theorem State.decodeHalf_outWait : s.decodeHalf.2.outWait = s.outWait := by rw [State.decodeHalf_frame]
@[simp] theorem State.decodeHalf_eoi : s.decodeHalf.2.eoi = s.eoi := by rw [State.decodeHalf_frame]
@[simp] theorem State.decodeHalf_inQueue : s.decodeHalf.2.inQueue = s.inQueue := by rw [State.decodeHalf_frame]
@[simp] theorem State.decodeHalf_outBytes : s.decodeHalf.2.outBytes = s.outBytes := by rw [State.decodeHalf_frame]
@[simp] theorem State.decodeHalf_latched : s.decodeHalf.2.latched = s.latched := by rw [State.decodeHalf_frame]
@[simp] theorem State.decodeHalf_latW : s.decodeHalf.2.latW = s.latW := by rw [State.decodeHalf_frame]; rfl
@[simp] theorem State.decodeHalf_latA : s.decodeHalf.2.latA = s.latA := by rw [State.decodeHalf_frame]; rfl
@[simp] theorem State.decodeHalf_latV : s.decodeHalf.2.latV = s.latV := by rw [State.decodeHalf_frame]; rfl
@[simp] theorem State.decodeHalf_task : s.decodeHalf.2.task = s.task := by rw [State.decodeHalf_frame]
@[simp] theorem State.decodeHalf_cmdIndex : s.decodeHalf.2.cmdIndex = s.cmdIndex := by rw [State.decodeHalf_frame]
@[simp] theorem State.decodeHalf_host : s.decodeHalf.2.host = s.host := by rw [State.decodeHalf_frame]
@[simp] theorem State.decodeHalf_reads : s.decodeHalf.2.reads = s.reads := by rw [State.decodeHalf_frame]
@[simp] theorem State.decodeHalf_freeCtr : s.decodeHalf.2.freeCtr = s.freeCtr := by rw [State.decodeHalf_frame]

/-! ### cell values -/

theorem State.cell_congr {s t : State} (h : s.cells = t.cells) (a : Nat) : s.cell a = t.cell a := by
  unfold State.cell; rw [h]

end Sys2Proof.Machine
end

