-- ==== Sys2Proof/Laws/Ops.lean ====
section
/-! SUPPORT. What each shared operation can do, said once: ending a command, raising a fault, running out of input. -/

namespace Sys2Proof.Machine

/-! ### Ending a command -/

theorem complete_eq_next {s t : State} : complete s = .next t ↔ t = s.idle := by
  unfold complete; constructor
  · intro h; injection h with h; exact h.symm
  · rintro rfl; rfl

theorem completeWith_eq_next {v : Word} {s t : State} : completeWith v s = .next t ↔ t = (s.setRes v).idle :=
  complete_eq_next

theorem raise_eq_next {c : FaultCode} {s t : State} : raise c s = .next t ↔ t = (s.record c s.latW).idle :=
  complete_eq_next

/-- With no fault pending, raising records the code and the command word. -/
theorem State.record_of_none {s : State} (h : s.fault = .none) (c : FaultCode) (w : Word) :
    s.record c w = { s with fault := c, faultInfo := w } := if_pos h

/-- With a fault pending, the first fault wins. -/
theorem State.record_of_some {s : State} (h : s.fault ≠ .none) (c : FaultCode) (w : Word) : s.record c w = s := if_neg h

/-- What a command held with is gone when it raises. -/
theorem raise_unhold (c : FaultCode) (s : State) : raise c s.unhold = raise c s := by
  unfold raise
  by_cases h : s.fault = .none
  · rw [State.record_of_none h, State.record_of_none (s := s.unhold) h]; rfl
  · rw [State.record_of_some h, State.record_of_some (s := s.unhold) h]; rfl

/-- Running out of input raises Truncated if EOI = 1 and holds otherwise. -/
theorem starve_eq_next {k : Task} {s t : State} :
    starve k s = .next t ↔
      (s.eoi = true ∧ t = (s.record .truncated s.latW).idle) ∨ (s.eoi = false ∧ t = s.hold k) := by
  unfold starve
  cases s.eoi
  · simp [eq_comm]
  · simp [raise_eq_next]

theorem finishEncode_eq_next {o : Option State} {t : State} :
    finishEncode o = .next t ↔ ∃ u, o = some u ∧ t = u.idle := by
  cases o <;> simp [finishEncode, complete_eq_next]

theorem finishEncode_eq_fault {o : Option State} {r : Fault} : finishEncode o = .fault r ↔ o = none := by
  cases o <;> cases r <;> simp [finishEncode, complete]

theorem finishEncode_ne_refused {o : Option State} {r : Refusal} : finishEncode o ≠ .refused r := by
  cases o <;> simp [finishEncode, complete]

/-! ### What a command finds -/

theorem State.Inv.ready {s : State} (h : s.Inv) : s.Ready := ⟨h.cfg, h.memory, h.fields, h.interval⟩

/-- Ready depends on these fields alone. -/
theorem State.Ready.congr {s t : State} (h : s.Ready) (hc : t.cfg = s.cfg) (hm : t.cells = s.cells)
    (hs : t.state = s.state) (hl : t.lc = s.lc) (hp : t.lp = s.lp) (hb : t.pb = s.pb)
    (hi : t.mode = .enc → s.mode = .enc ∧ t.encRange = s.encRange ∧ t.encLow = s.encLow) : t.Ready := by
  obtain ⟨h1, h2, h3, h4⟩ := h
  refine ⟨hc ▸ h1, ?_, ?_, fun hm' => ?_⟩
  · unfold State.memoryOk at *; rw [hm, hc]; exact h2
  · unfold State.fieldsOk at *; rw [hs, hl, hp, hb]; exact h3
  · obtain ⟨ha, hr, hlo⟩ := hi hm'
    have := h4 ha
    unfold State.intervalOk at *; rw [hr, hlo]; exact this

theorem State.Ready.idle {s : State} (h : s.Ready) : s.idle.Ready :=
  h.congr rfl rfl rfl rfl rfl rfl fun hm => ⟨hm, rfl, rfl⟩

theorem State.Ready.setRes {s : State} (h : s.Ready) (v : Word) : (s.setRes v).Ready :=
  h.congr rfl rfl rfl rfl rfl rfl fun hm => ⟨hm, rfl, rfl⟩

theorem State.Ready.record {s : State} (h : s.Ready) (c : FaultCode) (w : Word) : (s.record c w).Ready :=
  h.congr (by simp) (by simp) (by simp) (by simp) (by simp) (by simp) fun hm => ⟨by simpa using hm, by simp, by simp⟩

theorem State.Ready.launch {s : State} (h : s.Ready) (w : Word) : (s.launch w).Ready :=
  h.congr rfl rfl rfl rfl rfl rfl fun hm => ⟨hm, rfl, rfl⟩

theorem State.Ready.hold {s : State} (h : s.Ready) (t : Task) : (s.hold t).Ready :=
  h.congr rfl rfl rfl rfl rfl rfl fun hm => ⟨hm, rfl, rfl⟩

theorem State.Ready.unhold {s : State} (h : s.Ready) : s.unhold.Ready :=
  h.congr rfl rfl rfl rfl rfl rfl fun hm => ⟨hm, rfl, rfl⟩

/-- A command that ended leaves the invariant. -/
theorem State.Ready.inv_idle {s : State} (h : s.Ready) : s.idle.Inv := by
  have h' := h.idle
  exact ⟨h'.cfg, h'.memory, h'.fields, h'.interval, ⟨rfl, rfl, rfl, rfl⟩, by simp⟩

/-- Raising a fault leaves the invariant. -/
theorem State.Ready.inv_raise {s t : State} {c : FaultCode} (h : s.Ready) (ht : raise c s = .next t) : t.Inv := by
  rw [raise_eq_next] at ht; subst ht; exact (h.record c _).inv_idle

/-! ### The probability RAM -/

theorem State.memoryOk.cell_ne_zero {s : State} (h : s.memoryOk) (a : Nat) : s.cell a ≠ 0 := by
  rcases Memory.read_mem_or s.cells a with hm | hr
  · exact (h.2 _ hm).2
  · unfold State.cell; rw [hr]; decide

theorem State.memoryOk.setCell {s : State} (h : s.memoryOk) {a : Nat} (ha : a < s.cfg.nprob) {v : Cell} (hv : v ≠ 0) :
    (s.setCell a v).memoryOk := by
  refine ⟨Memory.write_wf h.1 a v, fun e he => ?_⟩
  rcases Memory.mem_write he with he | ⟨rfl, -⟩
  · exact h.2 e he
  · exact ⟨ha, hv⟩

/-- The updated value as a number: no truncation, and 1..2047 stays in 1..2047 (40_probability.md R103, R104). -/
theorem adapt_toNat {p : Cell} (h : p ≠ 0) (bit : Bool) :
    (adapt p bit).toNat = if bit then p.toNat - p.toNat / 32 else p.toNat + (2048 - p.toNat) / 32 := by
  have hp : 0 < p.toNat := Nat.pos_of_ne_zero fun h0 => h (BitVec.eq_of_toNat_eq h0)
  have hl := p.isLt
  have hm : p.toNat + (2048 - p.toNat) / 32 < 2048 := by omega
  unfold adapt
  cases bit
  · simpa [Nat.shiftRight_eq_div_pow] using hm
  · simp only [if_true, BitVec.toNat_ofNat, Nat.shiftRight_eq_div_pow]; omega

theorem adapt_ne_zero {p : Cell} (h : p ≠ 0) (bit : Bool) : adapt p bit ≠ 0 := by
  have hp : 0 < p.toNat := Nat.pos_of_ne_zero fun h0 => h (BitVec.eq_of_toNat_eq h0)
  intro h0
  have h1 := adapt_toNat h bit
  rw [h0] at h1
  cases bit <;> simp at h1 <;> omega

/-- Update keeps the RAM legal. -/
theorem State.memoryOk.adaptCell {s : State} (h : s.memoryOk) {a : Nat} (ha : a < s.cfg.nprob) (bit : Bool) :
    (s.adaptCell a bit).memoryOk := h.setCell ha (adapt_ne_zero (h.cell_ne_zero a) bit)

/-! ### Bound -/

/-- The product of Bound fits in 32 bits (40_probability.md R101). -/
theorem bound_toNat (range : Word) (p : Cell) : (bound range p).toNat = range.toNat / 2048 * p.toNat := by
  have h1 := range.isLt
  have h2 := p.isLt
  have h3 : range.toNat / 2048 * p.toNat < 2 ^ 32 :=
    calc range.toNat / 2048 * p.toNat ≤ 2097151 * 2047 := Nat.mul_le_mul (by omega) (by omega)
      _ < 2 ^ 32 := by norm_num
  simp only [bound, BitVec.toNat_mul, BitVec.toNat_ushiftRight, BitVec.toNat_setWidth, Nat.shiftRight_eq_div_pow]
  rw [Nat.mod_eq_of_lt (show p.toNat < 2 ^ 32 by omega)]
  exact Nat.mod_eq_of_lt h3

/-- 2^13 ≤ Bound ≤ range - 2^13 for range ≥ 2^24 and a legal cell. -/
theorem bound_between {range : Word} {p : Cell} (hr : 2 ^ 24 ≤ range.toNat) (hp : p ≠ 0) :
    2 ^ 13 ≤ (bound range p).toNat ∧ (bound range p).toNat + 2 ^ 13 ≤ range.toNat := by
  have hp : 0 < p.toNat := Nat.pos_of_ne_zero fun h0 => hp (BitVec.eq_of_toNat_eq h0)
  have hl := p.isLt
  rw [bound_toNat]
  have hq : 2 ^ 13 ≤ range.toNat / 2048 := by omega
  have h1 : range.toNat / 2048 * 1 ≤ range.toNat / 2048 * p.toNat := Nat.mul_le_mul_left _ hp
  have h2 : range.toNat / 2048 * p.toNat ≤ range.toNat / 2048 * 2047 := Nat.mul_le_mul_left _ (by omega)
  omega

end Sys2Proof.Machine
end

