-- ==== Sys2Proof/Laws/Decoder.lean ====
section
/-! SUPPORT. What RenormD, DecodeBit, DecodeDirect and the walk of a decoding command can do, said once: their frame, when
they need no more input than the queue holds, and how a walk ends. -/

namespace Sys2Proof.Machine

/-- `t` differs from `s` at most in the cells, the decoder's registers and the byte-in queue. -/
def decTouch (s t : State) : Prop :=
  t = { s with
    cells := t.cells, decRange := t.decRange, decCode := t.decCode, incnt := t.incnt, inQueue := t.inQueue }

theorem decTouch.refl (s : State) : decTouch s s := rfl

theorem decTouch.trans {s t u : State} (h : decTouch s t) (h' : decTouch t u) : decTouch s u := by
  unfold decTouch at *; rw [h']; rw [h]

/-! ### RenormD -/

theorem renormOver_touch (q : List Byte) (s : State) :
    decTouch s (renormOver q s).2 ∧ (renormOver q s).2.cells = s.cells := by
  induction q generalizing s with
  | nil => exact ⟨decTouch.refl s, rfl⟩
  | cons b q ih =>
    unfold renormOver
    split
    · exact ⟨decTouch.refl s, rfl⟩
    · exact ⟨decTouch.trans (by rfl) (ih _).1, (ih _).2⟩

theorem renormD_touch (s : State) : decTouch s s.renormD.2 := (renormOver_touch s.inQueue s).1

theorem renormD_cells (s : State) : s.renormD.2.cells = s.cells := (renormOver_touch s.inQueue s).2

/-- RenormD that ended left DEC_RANGE at 2^24 or above. -/
theorem renormOver_ready {q : List Byte} {s : State} (h : (renormOver q s).1 = true) :
    2 ^ 24 ≤ (renormOver q s).2.decRange.toNat := by
  induction q generalizing s with
  | nil => simpa [renormOver] using h
  | cons b q ih =>
    unfold renormOver at h ⊢
    split at h
    · rename_i hr; rw [if_pos hr]; exact hr
    · rename_i hr; rw [if_neg hr]; exact ih h

/-- RenormD that did not end took the whole queue and left DEC_RANGE below 2^24. -/
theorem renormOver_starved {q : List Byte} {s : State} (hq : s.inQueue = q) (h : (renormOver q s).1 = false) :
    (renormOver q s).2.inQueue = [] ∧ (renormOver q s).2.decRange.toNat < 2 ^ 24 := by
  induction q generalizing s with
  | nil => exact ⟨hq, by simpa [renormOver] using h⟩
  | cons b q ih =>
    unfold renormOver at h ⊢
    split at h
    · cases h
    · rename_i hr; rw [if_neg hr]; exact ih rfl h

/-- RenormD ends when the queue holds the bytes it needs: `k` rounds bring a range of 2^(24 - 8k) to 2^24. -/
theorem renormOver_enough {k : Nat} {q : List Byte} {s : State} (hq : s.inQueue = q) (hk : k ≤ q.length)
    (hr : 2 ^ 24 ≤ s.decRange.toNat * 2 ^ (8 * k)) :
    (renormOver q s).1 = true ∧ q.length ≤ (renormOver q s).2.inQueue.length + k := by
  induction q generalizing k s with
  | nil =>
    have : k = 0 := by simpa using hk
    subst this
    exact ⟨by simp [renormOver]; omega, by simp⟩
  | cons b q ih =>
    unfold renormOver
    split
    · exact ⟨rfl, by rw [hq]; omega⟩
    · rename_i hlt
      cases k with
      | zero => omega
      | succ k =>
        have e1 : (s.decRange <<< 8).toNat = s.decRange.toNat * 2 ^ 8 := by
          rw [BitVec.toNat_shiftLeft, Nat.shiftLeft_eq]; omega
        obtain ⟨h1, h2⟩ := ih (k := k) (s := s.renormByte b q) rfl (by simpa using hk) (by
          simp only [State.renormByte_decRange, e1]
          rw [Nat.mul_assoc, ← Nat.pow_add, show 8 + 8 * k = 8 * (k + 1) by ring]; exact hr)
        exact ⟨h1, by simp only [List.length_cons]; omega⟩

/-- RenormD takes a front part of the queue and INCNT counts it. -/
theorem renormOver_takes {q : List Byte} {s : State} (hq : s.inQueue = q) :
    ∃ taken, q = taken ++ (renormOver q s).2.inQueue ∧
      (renormOver q s).2.incnt = s.incnt + BitVec.ofNat 64 taken.length := by
  induction q generalizing s with
  | nil => exact ⟨[], by simp [renormOver, hq], by simp [renormOver]⟩
  | cons b q ih =>
    unfold renormOver
    split
    · exact ⟨[], by simp [hq], by simp⟩
    · obtain ⟨taken, h1, h2⟩ := ih (s := s.renormByte b q) rfl
      refine ⟨b :: taken, by simp [← h1], ?_⟩
      rw [h2, State.renormByte_incnt, List.length_cons, Nat.add_comm taken.length 1, BitVec.ofNat_add, BitVec.add_assoc]
      rfl

/-! ### DecodeBit and DecodeDirect up to RenormD -/

theorem walkSplit_touch (w : Walk) (s : State) :
    decTouch s (w.split s).2 ∧ (w.split s).2.incnt = s.incnt ∧ (w.split s).2.inQueue = s.inQueue := by
  unfold Walk.split
  split
  · refine ⟨?_, by simp, by simp⟩
    unfold decTouch; rw [State.decodeSplit_frame]
  · refine ⟨?_, by simp, by simp⟩
    unfold decTouch; rw [State.decodeHalf_frame]

/-- A decoded bit changes the walk's cell alone. -/
theorem walkSplit_cells (w : Walk) (s : State) :
    (w.split s).2.cells = match w.cell with
      | some a => s.cells.write a (adapt (s.cell a) (w.split s).1)
      | none => s.cells := by
  unfold Walk.split
  cases w.cell with
  | none => exact State.decodeHalf_cells s
  | some a =>
    simp only
    unfold State.decodeSplit
    dsimp only
    split <;> rfl

theorem walkSplit_memoryOk {w : Walk} {s : State} (h : s.memoryOk) (ha : ∀ a ∈ w.cell, a < s.cfg.nprob) :
    (w.split s).2.memoryOk := by
  have hc := walkSplit_cells w s
  have hcfg : (w.split s).2.cfg = s.cfg := by rw [(walkSplit_touch w s).1]
  cases hw : w.cell with
  | none =>
    rw [hw] at hc
    unfold State.memoryOk at *; rw [hc, hcfg]; exact h
  | some a =>
    rw [hw] at hc
    have := h.adaptCell (ha a hw) (w.split s).1
    unfold State.memoryOk at *; rw [hc, hcfg]; exact this

/-- One decoded bit leaves DEC_RANGE at least 2^13 wide. -/
theorem walkSplit_range {w : Walk} {s : State} (h : s.memoryOk) (hr : 2 ^ 24 ≤ s.decRange.toNat) :
    2 ^ 13 ≤ (w.split s).2.decRange.toNat := by
  unfold Walk.split
  split
  · rename_i a _
    obtain ⟨h1, h2⟩ := bound_between hr (h.cell_ne_zero a)
    unfold State.decodeSplit
    dsimp only
    split
    · simpa using h1
    · have e1 : (s.decRange - bound s.decRange (s.cell a)).toNat
          = s.decRange.toNat - (bound s.decRange (s.cell a)).toNat :=
        BitVec.toNat_sub_of_le (by rw [BitVec.le_def]; omega)
      simp only [State.adaptCell_decRange, e1]; omega
  · have e1 : (s.decRange >>> 1).toNat = s.decRange.toNat / 2 := by
      rw [BitVec.toNat_ushiftRight, Nat.shiftRight_eq_div_pow]
    unfold State.decodeHalf
    dsimp only
    split <;> simp only [e1] <;> omega

/-! ### The walk -/

/-- The walk moves on inside the RAM, and its next cell lies in the RAM. -/
theorem Walk.inRam_next {nprob left : Nat} {w : Walk} (h : w.inRam nprob (left + 1) = true) :
    (∀ a ∈ w.cell, a < nprob) ∧ ∀ bit, (w.advance bit).inRam nprob left = true := by
  cases w with
  | bit a r => exact ⟨by simpa [Walk.cell, Walk.inRam, eq_comm] using h, fun _ => h⟩
  | direct r => exact ⟨by simp [Walk.cell], fun _ => rfl⟩
  | tree base n m =>
    simp only [Walk.inRam, decide_eq_true_eq] at h
    obtain ⟨h1, h2⟩ := h
    have hp : 1 ≤ 2 ^ left := Nat.one_le_two_pow
    have e1 : 2 ^ (left + 1) = 2 ^ left * 2 := Nat.pow_succ ..
    have e2 : 2 ^ (n + 1) = 2 ^ n * 2 := Nat.pow_succ ..
    refine ⟨fun a ha => ?_, fun bit => ?_⟩
    · simp only [Walk.cell, Option.mem_def, Option.some.injEq] at ha
      have h3 : (m + 1) * 2 ≤ 2 ^ n * 2 :=
        (Nat.mul_le_mul_left (m + 1) (show 2 ≤ 2 ^ (left + 1) by omega)).trans (e2 ▸ h2)
      omega
    · simp only [Walk.advance, Walk.inRam, decide_eq_true_eq]
      refine ⟨h1, le_trans ?_ h2⟩
      rw [e1, Nat.mul_comm (2 ^ left) 2, ← Nat.mul_assoc]
      exact Nat.mul_le_mul_right _ (by cases bit <;> simp <;> omega)
  | rev base i m s =>
    simp only [Walk.inRam, decide_eq_true_eq] at h
    obtain ⟨h1, h2⟩ := h
    have hp : 1 ≤ 2 ^ left := Nat.one_le_two_pow
    have e1 : 2 ^ (left + 1) = 2 ^ left * 2 := Nat.pow_succ ..
    have e2 : 2 ^ (i + (left + 1) + 1) = 2 ^ (i + (left + 1)) * 2 := Nat.pow_succ ..
    refine ⟨fun a ha => ?_, fun bit => ?_⟩
    · simp only [Walk.cell, Option.mem_def, Option.some.injEq] at ha
      have h3 : (m + 1) * 2 ≤ 2 ^ (i + (left + 1)) * 2 :=
        (Nat.mul_le_mul_left (m + 1) (show 2 ≤ 2 ^ (left + 1) by omega)).trans (e2 ▸ h2)
      omega
    · simp only [Walk.advance, Walk.inRam, decide_eq_true_eq]
      rw [show i + 1 + left = i + (left + 1) by ring]
      refine ⟨h1, le_trans ?_ h2⟩
      rw [e1, Nat.mul_comm (2 ^ left) 2, ← Nat.mul_assoc]
      exact Nat.mul_le_mul_right _ (by cases bit <;> simp <;> omega)
  | litm base s mb same =>
    simp only [Walk.inRam, decide_eq_true_eq] at h
    obtain ⟨h1, h2⟩ := h
    have hp : 1 ≤ 2 ^ left := Nat.one_le_two_pow
    have e1 : 2 ^ (left + 1) = 2 ^ left * 2 := Nat.pow_succ ..
    refine ⟨fun a ha => ?_, fun bit => ?_⟩
    · have h3 : (s + 1) * 2 ≤ 2 ^ 9 := (Nat.mul_le_mul_left (s + 1) (show 2 ≤ 2 ^ (left + 1) by omega)).trans h2
      simp only [Walk.cell, Option.mem_def, Option.some.injEq] at ha
      have hb := Bool.toNat_le mb.msb
      cases same <;> simp at ha <;> omega
    · simp only [Walk.advance, Walk.inRam, decide_eq_true_eq]
      refine ⟨h1, le_trans ?_ h2⟩
      rw [e1, Nat.mul_comm (2 ^ left) 2, ← Nat.mul_assoc]
      exact Nat.mul_le_mul_right _ (by cases bit <;> simp <;> omega)

/-- What holds along a walk: a property of (bits left, walk, state) that one decoded bit with its RenormD keeps. -/
def Walk.Kept (P : Nat → Walk → State → Prop) : Prop :=
  ∀ left w s, P (left + 1) w s → (w.split s).2.renormD.1 = true →
    P left (w.advance (w.split s).1) (w.split s).2.renormD.2

/-- How a walk ends: it completes with its result, or a RenormD ran out of input, and what is kept held there. -/
theorem runWalk_cases {P : Nat → Walk → State → Prop} (hP : Walk.Kept P) {left : Nat} {w : Walk} {s t : State}
    (h : P left w s) (ht : runWalk left w s = .next t) :
    (∃ w' u, P 0 w' u ∧ t = (u.setRes w'.result).idle) ∨
      ∃ k w' u, P (k + 1) w' u ∧ (w'.split u).2.renormD.1 = false ∧
        starve (.walk k (w'.advance (w'.split u).1)) (w'.split u).2.renormD.2 = .next t := by
  induction left generalizing w s with
  | zero => exact .inl ⟨w, s, h, completeWith_eq_next.mp ht⟩
  | succ left ih =>
    unfold runWalk at ht
    dsimp only at ht
    split at ht
    · rename_i hr; exact ih (hP left w s h hr) ht
    · rename_i hr; exact .inr ⟨left, w, s, h, by simpa using hr, ht⟩

/-- A walk never stops the model. -/
theorem runWalk_next (left : Nat) (w : Walk) (s : State) : ∃ t, runWalk left w s = .next t := by
  induction left generalizing w s with
  | zero => exact ⟨_, rfl⟩
  | succ left ih =>
    unfold runWalk
    dsimp only
    split
    · exact ih _ _
    · unfold starve
      split <;> exact ⟨_, rfl⟩

theorem resumeWalk_next (left : Nat) (w : Walk) (s : State) : ∃ t, resumeWalk left w s = .next t := by
  unfold resumeWalk
  dsimp only
  split
  · exact runWalk_next _ _ _
  · unfold starve
    split <;> exact ⟨_, rfl⟩

theorem loadCode_next (left : Nat) (s : State) : ∃ t, loadCode left s = .next t := by
  induction left generalizing s with
  | zero => exact ⟨_, rfl⟩
  | succ left ih =>
    unfold loadCode
    split
    · exact ih _
    · unfold starve
      split <;> exact ⟨_, rfl⟩

theorem resume_next (k : Task) (s : State) : ∃ t, resume k s = .next t := by
  cases k with
  | load left => exact loadCode_next _ _
  | walk left w => exact resumeWalk_next _ _ _

/-! ### A decoding command keeps a legal machine legal -/

/-- What a step of the decoder leaves keeps a legal machine legal. -/
theorem State.Ready.of_decTouch {s t : State} (h : s.Ready) (hf : decTouch s t) (hm : t.memoryOk) : t.Ready := by
  refine ⟨?_, hm, ?_, fun he => ?_⟩
  · rw [hf]; exact h.cfg
  · have := h.fields
    unfold State.fieldsOk at *; rw [hf]; exact this
  · rw [hf] at he
    have := h.interval he
    unfold State.intervalOk at *; rw [hf]; exact this

theorem renormD_ready {s : State} (h : s.Ready) : s.renormD.2.Ready := by
  refine h.of_decTouch (renormD_touch s) ?_
  have hc : s.renormD.2.cfg = s.cfg := by rw [renormD_touch s]
  have := h.memory
  unfold State.memoryOk at *; rw [renormD_cells, hc]; exact this

/-- A legal machine in DEC with a walk inside the RAM. -/
def walkOk (left : Nat) (w : Walk) (s : State) : Prop :=
  s.Ready ∧ s.mode = .dec ∧ w.inRam s.cfg.nprob left = true

/-- After one decoded bit the machine is legal in DEC, and the walk that moved on is inside the RAM. -/
theorem walkOk_split {left : Nat} {w : Walk} {s : State} (h : walkOk (left + 1) w s) (bit : Bool) :
    walkOk left (w.advance bit) (w.split s).2.renormD.2 := by
  obtain ⟨hr, hm, hw⟩ := h
  obtain ⟨h1, h2⟩ := Walk.inRam_next hw
  have hf := (walkSplit_touch w s).1
  have hready := renormD_ready (hr.of_decTouch hf (walkSplit_memoryOk hr.memory h1))
  have hf' := hf.trans (renormD_touch _)
  refine ⟨hready, ?_, ?_⟩
  · rw [hf']; exact hm
  · rw [show (w.split s).2.renormD.2.cfg = s.cfg by rw [hf']]; exact h2 bit

theorem walkOk_kept : Walk.Kept walkOk := fun _ _ _ h _ => walkOk_split h _

/-- What a hold needs of a running command: OUT_WAIT = 0, and its operands are latched. -/
abbrev State.running (s : State) : Prop := s.outWait = false ∧ s.latched.isSome = true

/-- Running out of input inside a walk leaves the invariant: Truncated ended the command, or it holds. -/
theorem starve_walk_inv {left : Nat} {w : Walk} {s t : State} (h : walkOk left w s) (ho : s.running)
    (hd : s.decRange.toNat < 2 ^ 24) (ht : starve (.walk left w) s = .next t) : t.Inv := by
  obtain ⟨hr, hm, hw⟩ := h
  rcases starve_eq_next.mp ht with ⟨-, rfl⟩ | ⟨-, rfl⟩
  · exact (hr.record _ _).inv_idle
  · have h' := hr.hold (.walk left w)
    exact ⟨h'.cfg, h'.memory, h'.fields, h'.interval, ⟨rfl, rfl, ho⟩, by simp [Task.fits, hm, hw]; exact hd⟩

theorem runWalk_inv {left : Nat} {w : Walk} {s t : State} (h : walkOk left w s) (ho : s.running)
    (ht : runWalk left w s = .next t) : t.Inv := by
  have hP : Walk.Kept fun left w s => walkOk left w s ∧ s.running := by
    rintro left w s ⟨h, ho⟩ hr
    refine ⟨walkOk_kept left w s h hr, ?_⟩
    rw [(walkSplit_touch w s).1.trans (renormD_touch _)]; exact ho
  rcases runWalk_cases hP ⟨h, ho⟩ ht with ⟨w', u, ⟨hu, -⟩, rfl⟩ | ⟨k, w', u, ⟨hu, huo⟩, hr, hs⟩
  · exact (hu.1.setRes _).inv_idle
  · refine starve_walk_inv (walkOk_split hu _) ?_ (renormOver_starved rfl hr).2 hs
    rw [(walkSplit_touch w' u).1.trans (renormD_touch _)]; exact huo

theorem resumeWalk_inv {left : Nat} {w : Walk} {s t : State} (h : walkOk left w s) (ho : s.running)
    (ht : resumeWalk left w s = .next t) : t.Inv := by
  have hf := renormD_touch s
  have h' : walkOk left w s.renormD.2 := by
    refine ⟨renormD_ready h.1, ?_, ?_⟩
    · rw [hf]; exact h.2.1
    · rw [show s.renormD.2.cfg = s.cfg by rw [hf]]; exact h.2.2
  have ho' : s.renormD.2.running := by rw [hf]; exact ho
  unfold resumeWalk at ht
  dsimp only at ht
  split at ht
  · exact runWalk_inv h' ho' ht
  · rename_i hr
    exact starve_walk_inv h' ho' (renormOver_starved rfl (Bool.not_eq_true _ ▸ hr)).2 ht

theorem loadCode_inv {left : Nat} {s t : State} (h : s.Ready) (hm : s.mode = .idle) (hl : left ≤ 5)
    (ho : s.running) (ht : loadCode left s = .next t) : t.Inv := by
  induction left generalizing s with
  | zero =>
    rw [loadCode, complete_eq_next] at ht
    subst ht
    refine State.Ready.inv_idle (h.congr rfl rfl rfl rfl rfl rfl fun he => ?_)
    simp at he
  | succ left ih =>
    unfold loadCode at ht
    split at ht
    · rename_i b q _
      exact ih (s := (s.takeByte q).shiftCode b)
        (h.congr rfl rfl rfl rfl rfl rfl fun he => ⟨he, rfl, rfl⟩) hm (by omega) ho ht
    · rcases starve_eq_next.mp ht with ⟨-, rfl⟩ | ⟨-, rfl⟩
      · exact (h.record _ _).inv_idle
      · have h' := h.hold (.load (left + 1))
        exact ⟨h'.cfg, h'.memory, h'.fields, h'.interval, ⟨rfl, rfl, ho⟩, by simp [Task.fits, hm, hl]⟩

/-- Going on with a held command keeps the invariant. -/
theorem resume_inv {k : Task} {s t : State} (h : s.Inv) (hk : s.task = some k) (ht : resume k s = .next t) : t.Inv := by
  have hfit := h.task k hk
  have ho : s.running := ⟨h.run.2.2.1, h.run.2.2.2.trans (by rw [h.run.1, hk]; rfl)⟩
  cases k with
  | load left =>
    simp only [Task.fits, decide_eq_true_eq] at hfit
    exact loadCode_inv h.ready.unhold hfit.1 hfit.2.2 ho ht
  | walk left w =>
    simp only [Task.fits, Bool.and_eq_true, decide_eq_true_eq] at hfit
    exact resumeWalk_inv ⟨h.ready.unhold, hfit.1.1, hfit.2⟩ ho ht

/-! ### DEC_RANGE (spec/10_state.md R41) -/

/-- A step from `s` to `t` raised Truncated, recorded or not: EOI was 1, the queue is empty and a fault is pending. -/
abbrev ranDry (s t : State) : Prop := s.eoi = true ∧ t.inQueue = [] ∧ t.fault ≠ .none

theorem record_fault_ne_none (s : State) {c : FaultCode} (hc : c ≠ .none) (w : Word) : (s.record c w).fault ≠ .none := by
  unfold State.record
  split
  · exact hc
  · assumption

theorem starve_walk_decoderOk {k : Nat} {w : Walk} {s t : State} (hq : s.inQueue = [])
    (ht : starve (.walk k w) s = .next t) : t.decoderOk ∨ ranDry s t := by
  rcases starve_eq_next.mp ht with ⟨he, rfl⟩ | ⟨-, rfl⟩
  · exact .inr ⟨he, by simpa using hq, record_fault_ne_none s (by simp) _⟩
  · exact .inl (.inr ⟨k, w, rfl⟩)

/-- A walk that starts with DEC_RANGE at 2^24 or above ends so, or holds, or ran out of input. -/
theorem runWalk_decoderOk {left : Nat} {w : Walk} {s t : State} (h : 2 ^ 24 ≤ s.decRange.toNat)
    (ht : runWalk left w s = .next t) : t.decoderOk ∨ ranDry s t := by
  have hP : Walk.Kept fun _ _ u => 2 ^ 24 ≤ u.decRange.toNat ∧ u.eoi = s.eoi := fun _ w u hu hr =>
    ⟨renormOver_ready hr, by rw [(walkSplit_touch w u).1.trans (renormD_touch _)]; exact hu.2⟩
  rcases runWalk_cases hP ⟨h, rfl⟩ ht with ⟨w', u, hu, rfl⟩ | ⟨k, w', u, hu, hr, hs⟩
  · exact .inl (.inl hu.1)
  · have he : (w'.split u).2.renormD.2.eoi = s.eoi := by
      rw [(walkSplit_touch w' u).1.trans (renormD_touch _)]; exact hu.2
    exact (starve_walk_decoderOk (renormOver_starved rfl hr).1 hs).imp_right fun hd => ⟨he ▸ hd.1, hd.2⟩

theorem resumeWalk_decoderOk {left : Nat} {w : Walk} {s t : State} (ht : resumeWalk left w s = .next t) :
    t.decoderOk ∨ ranDry s t := by
  have he : s.renormD.2.eoi = s.eoi := by rw [renormD_touch s]
  unfold resumeWalk at ht
  dsimp only at ht
  split at ht
  · rename_i hr
    exact (runWalk_decoderOk (renormOver_ready hr) ht).imp_right fun hd => ⟨he ▸ hd.1, hd.2⟩
  · rename_i hr
    exact (starve_walk_decoderOk (renormOver_starved rfl (Bool.not_eq_true _ ▸ hr)).1 ht).imp_right
      fun hd => ⟨he ▸ hd.1, hd.2⟩

theorem loadCode_decoderOk {left : Nat} {s t : State} (h : 2 ^ 24 ≤ s.decRange.toNat) (ht : loadCode left s = .next t) :
    t.decoderOk ∨ ranDry s t := by
  induction left generalizing s with
  | zero => rw [loadCode, complete_eq_next] at ht; subst ht; exact .inl (.inl h)
  | succ left ih =>
    unfold loadCode at ht
    split at ht
    · exact ih (s := (s.takeByte _).shiftCode _) h ht
    · rename_i hq
      rcases starve_eq_next.mp ht with ⟨he, rfl⟩ | ⟨-, rfl⟩
      · exact .inr ⟨he, by simpa using hq, record_fault_ne_none s (by simp) _⟩
      · exact .inl (.inl h)

/-- A command that goes on after a hold leaves DEC_RANGE at 2^24 or above, or holds, or ran out of input. -/
theorem resume_decoderOk {k : Task} {s t : State} (h : s.decoderOk) (hk : s.task = some k) (ht : resume k s = .next t) :
    t.decoderOk ∨ ranDry s t := by
  cases k with
  | load left =>
    rcases h with h | ⟨_, _, h⟩
    · exact loadCode_decoderOk (s := s.unhold) h ht
    · rw [hk] at h; cases h
  | walk left w => exact resumeWalk_decoderOk (s := s.unhold) ht

/-! ### A hold that EOI lifts (spec/20_memory.md R61) -/

/-- Going on with a held command whose EOI is 1 and whose queue is still empty raises Truncated on the state of the hold. -/
theorem resume_eoi {k : Task} {s : State} (hk : s.task = some k) (hf : k.fits s = true) (hq : s.inQueue = [])
    (he : s.eoi = true) : resume k s = raise .truncated s := by
  cases k with
  | load left =>
    simp only [Task.fits, decide_eq_true_eq] at hf
    obtain ⟨left, rfl⟩ : ∃ n, left = n + 1 := ⟨left - 1, by omega⟩
    have hq' : s.unhold.inQueue = [] := hq
    rw [← raise_unhold]
    simp only [resume, loadCode, hq', starve, State.unhold_eoi, he, if_true]
  | walk left w =>
    simp only [Task.fits, Bool.and_eq_true, decide_eq_true_eq] at hf
    have hn : s.unhold.renormD = (false, s.unhold) := by
      unfold State.renormD
      rw [show s.unhold.inQueue = [] from hq, renormOver]
      rw [decide_eq_false (by have := hf.1.2; simp only [State.unhold_decRange]; omega)]
    rw [← raise_unhold]
    simp [resume, resumeWalk, hn, starve, he]

end Sys2Proof.Machine
end

