-- ==== Sys2Proof/Laws/Dry.lean ====
section
/-! SUPPORT. Where the bytes run out (spec/42_range_decoder.md R149): the failing bit of the pseudocode beside the failing bit of a
walk, and what InByte on an empty queue makes of the command (spec/20_memory.md R61). -/

namespace Sys2Proof.Machine

/-- DecodeBit that answers nothing ran dry. -/
theorem bitDry_of_none {s : State} {a : Nat} (h : s.decodeBit a = none) : s.bitDry a (s.decodeSplit a).2.renormD.2 := by
  unfold State.decodeBit at h
  dsimp only at h
  split at h
  · cases h
  · rename_i hr; exact Prod.ext (by simpa using hr) rfl

/-- DecodeBit that answers decoded the bit of its split, and its RenormD ended. -/
theorem decodeBit_eq_some {s t : State} {a : Nat} {bit : Bool} (h : s.decodeBit a = some (bit, t)) :
    (s.decodeSplit a).2.renormD = (true, t) ∧ bit = (s.decodeSplit a).1 := by
  unfold State.decodeBit at h
  dsimp only at h
  split at h
  · rename_i hr; cases h; exact ⟨Prod.ext hr rfl, rfl⟩
  · cases h

/-- The walk `w` of `n` bits from `s` runs out of input and leaves `u`: that is what it answers, and its frame. -/
def Walk.Dry (n : Nat) (w : Walk) (s u : State) : Prop := (∃ k, runWalk n w s = starve k u) ∧ decTouch s u

/-- A walk whose next bit runs dry. -/
theorem Walk.Dry.here {n : Nat} {w : Walk} {s u : State} (h : (w.split s).2.renormD = (false, u)) : w.Dry (n + 1) s u := by
  refine ⟨⟨.walk n (w.advance (w.split s).1), by rw [runWalk]; simp only [h]; rfl⟩, ?_⟩
  have := (walkSplit_touch w s).1.trans (renormD_touch _)
  rwa [h] at this

/-- A walk that runs dry after its next bit. -/
theorem Walk.Dry.later {n : Nat} {w : Walk} {s t u : State} (h : (w.split s).2.renormD = (true, t))
    (hd : (w.advance (w.split s).1).Dry n t u) : w.Dry (n + 1) s u := by
  have hf := (walkSplit_touch w s).1.trans (renormD_touch _)
  rw [h] at hf
  exact ⟨hd.1.imp fun k hk => by rw [runWalk]; simpa only [h, if_true] using hk, hf.trans hd.2⟩

/-- A command whose walk runs dry holds or raises Truncated. -/
theorem Walk.Dry.holdsOrTruncates {i : Instr} {n : Nat} {w : Walk} {s u : State} (h : w.Dry n s u)
    (hi : exec i s = runWalk n w s) : holdsOrTruncates i s u := by
  obtain ⟨⟨k, hk⟩, hf⟩ := h
  have he : u.eoi = s.eoi := by rw [hf]
  rw [hk] at hi
  exact ⟨fun h0 => ⟨k, hi.trans (if_neg (by rw [he, h0]; exact Bool.false_ne_true))⟩, fun h0 => hi.trans (if_pos (he.trans h0))⟩

/-- The node of a walk depends on the bits already coded alone (spec/43_bit_tree.md R160). -/
theorem treeNode_congr {f g : Nat → Bool} {k : Nat} (h : ∀ j < k, f j = g j) : treeNode f k = treeNode g k := by
  induction k with
  | zero => rfl
  | succ k ih => rw [treeNode, treeNode, ih fun j hj => h j (by omega), h k (by omega)]

end Sys2Proof.Machine
end

