-- ==== Sys2Proof/Laws/Encoder.lean ====
section
/-! SUPPORT. What ShiftLow, RenormE, EncodeBit and EncodeDirect can do, said once: their frame, and the encoder's interval. -/

namespace Sys2Proof.Machine

/-- `t` differs from `s` at most in the cells, the encoder's registers and the byte-out port. -/
def encTouch (s t : State) : Prop :=
  t = { s with
    cells := t.cells, encRange := t.encRange, encLow := t.encLow, encCache := t.encCache, encCsize := t.encCsize,
    outcnt := t.outcnt, outBytes := t.outBytes }

theorem encTouch.refl (s : State) : encTouch s s := rfl

theorem encTouch.trans {s t u : State} (h : encTouch s t) (h' : encTouch t u) : encTouch s u := by
  unfold encTouch at *; rw [h'] ; rw [h]

theorem shiftLow_touch (s : State) : encTouch s s.shiftLow := by
  unfold encTouch State.shiftLow; cases s.carryKnown <;> rfl

theorem shiftLow_encLow_toNat (s : State) : s.shiftLow.encLow.toNat = s.encLow.toNat % 2 ^ 24 * 2 ^ 8 := by
  have : s.shiftLow.encLow = (s.encLow &&& 0xFFFFFF) <<< 8 := by
    unfold State.shiftLow; cases s.carryKnown <;> rfl
  rw [this, BitVec.toNat_shiftLeft, BitVec.toNat_and, show (0xFFFFFF : Dword).toNat = 2 ^ 24 - 1 from rfl,
    Nat.and_two_pow_sub_one_eq_mod, Nat.shiftLeft_eq]
  have := Nat.mod_lt s.encLow.toNat (show 0 < 2 ^ 24 by norm_num)
  omega

/-- What a round of RenormE works on. -/
theorem renormRounds_succ (k : Nat) (s : State) :
    State.renormRounds (k + 1) s =
      if s.encRange.toNat < 2 ^ 24 then State.renormRounds k { s with encRange := s.encRange <<< 8 }.shiftLow
      else some s := rfl

theorem renormRounds_touch {k : Nat} {s t : State} (h : State.renormRounds k s = some t) : encTouch s t := by
  induction k generalizing s with
  | zero =>
    unfold State.renormRounds at h
    split at h
    · cases h
    · cases h; exact encTouch.refl _
  | succ k ih =>
    rw [renormRounds_succ] at h
    split at h
    · exact encTouch.trans (encTouch.trans (by rfl) (shiftLow_touch _)) (ih h)
    · cases h; exact encTouch.refl _

theorem renormRounds_cells {k : Nat} {s t : State} (h : State.renormRounds k s = some t) : t.cells = s.cells := by
  induction k generalizing s with
  | zero =>
    unfold State.renormRounds at h
    split at h
    · cases h
    · cases h; rfl
  | succ k ih =>
    rw [renormRounds_succ] at h
    split at h
    · simpa using ih h
    · cases h; rfl

/-- `k` rounds are enough for a range of at least 2^(24 - 8k), and leave the interval in its bounds. -/
theorem renormRounds_spec {k : Nat} {s : State} (hr : 2 ^ 24 ≤ s.encRange.toNat * 2 ^ (8 * k))
    (hi : s.encLow.toNat + s.encRange.toNat < 2 ^ 33) :
    ∃ t, State.renormRounds k s = some t ∧ t.intervalOk := by
  induction k generalizing s with
  | zero =>
    refine ⟨s, ?_, by omega, hi⟩
    unfold State.renormRounds; rw [if_neg (by omega)]
  | succ k ih =>
    rw [renormRounds_succ]
    split
    · rename_i hlt
      have e1 : (s.encRange <<< 8).toNat = s.encRange.toNat * 2 ^ 8 := by
        rw [BitVec.toNat_shiftLeft, Nat.shiftLeft_eq]; omega
      refine ih ?_ ?_
      · simp only [State.shiftLow_encRange, e1]
        rw [Nat.mul_assoc, ← Nat.pow_add, show 8 + 8 * k = 8 * (k + 1) by ring]; exact hr
      · rw [shiftLow_encLow_toNat]
        simp only [State.shiftLow_encRange, e1]
        have := Nat.mod_lt s.encLow.toNat (show 0 < 2 ^ 24 by norm_num)
        omega
    · exact ⟨s, rfl, by omega, hi⟩

/-- RenormE ends for every range but 0. -/
theorem renormE_spec {s : State} (hr : s.encRange.toNat ≠ 0) (hi : s.encLow.toNat + s.encRange.toNat < 2 ^ 33) :
    ∃ t, s.renormE = some t ∧ encTouch s t ∧ t.cells = s.cells ∧ t.intervalOk := by
  obtain ⟨t, ht, hb⟩ := renormRounds_spec (k := 3) (s := s) (by omega) hi
  exact ⟨t, ht, renormRounds_touch ht, renormRounds_cells ht, hb⟩

/-! ### EncodeBit -/

theorem encodeSplit_touch (s : State) (a : Nat) (bit : Bool) : encTouch s (s.encodeSplit a bit) := by
  unfold encTouch State.encodeSplit; cases bit <;> rfl

theorem adaptCell_touch (s : State) (a : Nat) (bit : Bool) : encTouch s (s.adaptCell a bit) := rfl

theorem encodeBit_touch {s t : State} {a : Nat} {bit : Bool} (h : s.encodeBit a bit = some t) : encTouch s t :=
  (encodeSplit_touch s a bit).trans ((adaptCell_touch _ a bit).trans (renormRounds_touch h))

theorem encodeBit_cells {s t : State} {a : Nat} {bit : Bool} (h : s.encodeBit a bit = some t) :
    t.cells = s.cells.write a (adapt (s.cell a) bit) := by
  have := renormRounds_cells h
  simpa [State.cell] using this

/-- A bit through a legal cell leaves ENC_RANGE at least 2^13 wide (40_probability.md R101). -/
theorem encodeSplit_range {s : State} (hm : s.memoryOk) (hr : 2 ^ 24 ≤ s.encRange.toNat) (a : Nat) (bit : Bool) :
    2 ^ 13 ≤ (s.encodeSplit a bit).encRange.toNat := by
  obtain ⟨h1, h2⟩ := bound_between hr (hm.cell_ne_zero a)
  unfold State.encodeSplit
  cases bit
  · simpa using h1
  · have e1 : (s.encRange - bound s.encRange (s.cell a)).toNat
        = s.encRange.toNat - (bound s.encRange (s.cell a)).toNat := BitVec.toNat_sub_of_le (by rw [BitVec.le_def]; omega)
    simp only [if_true, e1]; omega

/-- EncodeBit only ever narrows the interval, and leaves it at least 2^13 wide. -/
theorem encodeSplit_interval {s : State} (hm : s.memoryOk) (hi : s.intervalOk) (a : Nat) (bit : Bool) :
    2 ^ 13 ≤ (s.encodeSplit a bit).encRange.toNat ∧
      (s.encodeSplit a bit).encLow.toNat + (s.encodeSplit a bit).encRange.toNat < 2 ^ 33 := by
  obtain ⟨hr, hlo⟩ := hi
  refine ⟨encodeSplit_range hm hr a bit, ?_⟩
  obtain ⟨h1, h2⟩ := bound_between hr (hm.cell_ne_zero a)
  unfold State.encodeSplit
  cases bit
  · simp only [Bool.false_eq_true, if_false]; omega
  · simp only [if_true]
    have e1 : (s.encRange - bound s.encRange (s.cell a)).toNat
        = s.encRange.toNat - (bound s.encRange (s.cell a)).toNat := BitVec.toNat_sub_of_le (by rw [BitVec.le_def]; omega)
    have e2 : (s.encLow + (bound s.encRange (s.cell a)).setWidth 64).toNat
        = s.encLow.toNat + (bound s.encRange (s.cell a)).toNat := by
      rw [BitVec.toNat_add, BitVec.toNat_setWidth]; omega
    rw [e1, e2]; omega

/-- EncodeBit from a state whose RAM and interval are in order ends, and leaves them in order. -/
theorem encodeBit_spec {s : State} (hm : s.memoryOk) (hi : s.intervalOk) {a : Nat} (ha : a < s.cfg.nprob) (bit : Bool) :
    ∃ t, s.encodeBit a bit = some t ∧ encTouch s t ∧ t.memoryOk ∧ t.intervalOk := by
  obtain ⟨h1, h2⟩ := encodeSplit_interval hm hi a bit
  obtain ⟨t, ht, hf, hc, hb⟩ := renormE_spec (s := (s.encodeSplit a bit).adaptCell a bit)
    (by rw [State.adaptCell_encRange]; omega) (by simpa using h2)
  refine ⟨t, ht, encodeBit_touch ht, ?_, hb⟩
  have hcell := encodeBit_cells ht
  have hcfg : t.cfg = s.cfg := by rw [encodeBit_touch ht]
  have := hm.adaptCell ha bit
  unfold State.memoryOk at *
  rw [hcell, hcfg]; exact this

/-- EncodeBit along a walk in the RAM ends. -/
theorem encodePath_spec {s : State} (hm : s.memoryOk) (hi : s.intervalOk) {path : List (Nat × Bool)}
    (hp : ∀ e ∈ path, e.1 < s.cfg.nprob) :
    ∃ t, State.encodePath path s = some t ∧ encTouch s t ∧ t.memoryOk ∧ t.intervalOk := by
  induction path generalizing s with
  | nil => exact ⟨s, rfl, encTouch.refl s, hm, hi⟩
  | cons e path ih =>
    obtain ⟨a, bit⟩ := e
    obtain ⟨u, hu, hf, hm', hi'⟩ := encodeBit_spec hm hi (hp (a, bit) List.mem_cons_self) bit
    have hcfg : u.cfg = s.cfg := by rw [hf]
    obtain ⟨t, ht, hf', h⟩ := ih hm' hi' fun e he => hcfg ▸ hp e (List.mem_cons_of_mem _ he)
    exact ⟨t, by simp [State.encodePath, hu, ht], hf.trans hf', h⟩

theorem encodePath_touch {path : List (Nat × Bool)} {s t : State} (h : State.encodePath path s = some t) :
    encTouch s t := by
  induction path generalizing s with
  | nil => cases h; exact encTouch.refl _
  | cons e path ih =>
    obtain ⟨a, bit⟩ := e
    unfold State.encodePath at h
    split at h
    · rename_i u hu; exact (encodeBit_touch hu).trans (ih h)
    · cases h

/-- A walk changes no cell it does not visit. -/
theorem encodePath_cell_other {path : List (Nat × Bool)} {s t : State} (h : State.encodePath path s = some t) {a : Nat}
    (ha : ∀ e ∈ path, e.1 ≠ a) : t.cell a = s.cell a := by
  induction path generalizing s with
  | nil => cases h; rfl
  | cons e path ih =>
    obtain ⟨b, bit⟩ := e
    unfold State.encodePath at h
    split at h
    · rename_i u hu
      rw [ih h fun e he => ha e (List.mem_cons_of_mem _ he)]
      unfold State.cell
      rw [encodeBit_cells hu]
      exact Memory.read_write_other _ _ (ha (b, bit) List.mem_cons_self).symm
    · cases h

/-! ### EncodeDirect -/

theorem directSplit_touch (s : State) (bit : Bool) : encTouch s (s.directSplit bit) := by
  unfold encTouch State.directSplit; cases bit <;> rfl

theorem directSplit_interval {s : State} (hi : s.intervalOk) (bit : Bool) :
    2 ^ 23 ≤ (s.directSplit bit).encRange.toNat ∧
      (s.directSplit bit).encLow.toNat + (s.directSplit bit).encRange.toNat < 2 ^ 33 := by
  obtain ⟨hr, hlo⟩ := hi
  have e1 : (s.encRange >>> 1).toNat = s.encRange.toNat / 2 := by
    rw [BitVec.toNat_ushiftRight, Nat.shiftRight_eq_div_pow]
  unfold State.directSplit
  cases bit
  · simp only [Bool.false_eq_true, if_false, e1]; omega
  · have e2 : (s.encLow + (s.encRange >>> 1).setWidth 64).toNat = s.encLow.toNat + s.encRange.toNat / 2 := by
      rw [BitVec.toNat_add, BitVec.toNat_setWidth, e1]; omega
    simp only [if_true, e1, e2]; omega

theorem encodeDirect_touch {v n : Nat} {s t : State} (h : State.encodeDirect v n s = some t) :
    encTouch s t ∧ t.cells = s.cells := by
  induction n generalizing s with
  | zero => cases h; exact ⟨encTouch.refl _, rfl⟩
  | succ n ih =>
    unfold State.encodeDirect at h
    split at h
    · rename_i u hu
      obtain ⟨hf, hc⟩ := ih h
      exact ⟨(directSplit_touch s _).trans ((renormRounds_touch hu).trans hf),
        hc.trans ((renormRounds_cells hu).trans (by simp))⟩
    · cases h

/-- EncodeDirect from an interval in its bounds ends, and leaves it in its bounds. -/
theorem encodeDirect_spec {v n : Nat} {s : State} (hi : s.intervalOk) :
    ∃ t, State.encodeDirect v n s = some t ∧ encTouch s t ∧ t.cells = s.cells ∧ t.intervalOk := by
  induction n generalizing s with
  | zero => exact ⟨s, rfl, encTouch.refl s, rfl, hi⟩
  | succ n ih =>
    obtain ⟨h1, h2⟩ := directSplit_interval hi (v.testBit n)
    obtain ⟨u, hu, -, -, hb⟩ := renormE_spec (s := s.directSplit (v.testBit n)) (by omega) h2
    obtain ⟨t, ht, -, -, hb'⟩ := ih hb
    have h : State.encodeDirect v (n + 1) s = some t := by simp [State.encodeDirect, hu, ht]
    exact ⟨t, h, (encodeDirect_touch h).1, (encodeDirect_touch h).2, hb'⟩

/-! ### An encoding command -/

/-- What an encoding command leaves keeps a legal machine legal. -/
theorem State.Ready.of_touch {s t : State} (h : s.Ready) (hf : encTouch s t) (hm : t.memoryOk) (hi : t.intervalOk) :
    t.Ready := by
  refine ⟨?_, hm, ?_, fun _ => hi⟩
  · rw [hf]; exact h.cfg
  · have := h.fields
    unfold State.fieldsOk at *; rw [hf]; exact this

/-- A walk of a legal machine in ENC completes, and the machine stays legal. -/
theorem encodeAlong_spec {s : State} (h : s.Ready) (hm : s.mode = .enc) {path : List (Nat × Bool)}
    (hp : ∀ e ∈ path, e.1 < s.cfg.nprob) :
    ∃ u, State.encodePath path s = some u ∧ encodeAlong path s = .next u.idle ∧ encTouch s u ∧ u.Ready := by
  obtain ⟨u, hu, hf, hmem, hint⟩ := encodePath_spec h.memory (h.interval hm) hp
  exact ⟨u, hu, by simp [encodeAlong, hu, finishEncode, complete], hf, h.of_touch hf hmem hint⟩

end Sys2Proof.Machine
end

