-- ==== Sys2Proof/Laws/Paths.lean ====
section
/-! SUPPORT. The cells that the walks of the bit-tree and literal commands visit (spec/43_bit_tree.md R160,
spec/44_literal.md R181). -/

namespace Sys2Proof.Machine

theorem pow_step {m left B : Nat} (h : (m + 1) * 2 ^ (left + 1) ≤ B) (bit : Bool) :
    (2 * m + bit.toNat + 1) * 2 ^ left ≤ B := by
  refine le_trans ?_ h
  rw [Nat.pow_succ, Nat.mul_comm (2 ^ left) 2, ← Nat.mul_assoc]
  exact Nat.mul_le_mul_right _ (by cases bit <;> simp <;> omega)

theorem node_lt {m left n : Nat} (h : (m + 1) * 2 ^ (left + 1) ≤ 2 ^ (n + 1)) : m < 2 ^ n := by
  have hp : 1 ≤ 2 ^ left := Nat.one_le_two_pow
  have h1 : (m + 1) * 2 ≤ 2 ^ n * 2 := by
    rw [Nat.pow_succ] at h
    refine le_trans ?_ h
    rw [Nat.mul_comm (2 ^ left) 2, ← Nat.mul_assoc]
    exact Nat.le_mul_of_pos_right _ hp
  omega

/-- An MSB-first walk of a tree of width `n` from node `m` with `i` bits to go stays below cell base + 2^n. -/
theorem treePath_lt {base v n i m : Nat} (h : (m + 1) * 2 ^ i ≤ 2 ^ (n + 1)) :
    ∀ e ∈ treePath base v i m, e.1 < base + 2 ^ n := by
  induction i generalizing m with
  | zero => simp [treePath]
  | succ i ih =>
    rw [treePath]
    intro e he
    rcases List.mem_cons.mp he with rfl | he
    · have := node_lt h; simpa using this
    · exact ih (pow_step h _) e he

/-- An LSB-first walk of a tree of width `n` from node `m` with `k` bits to go stays below cell base + 2^n. -/
theorem reversePath_lt {base n k v m : Nat} (h : (m + 1) * 2 ^ k ≤ 2 ^ (n + 1)) :
    ∀ e ∈ reversePath base k v m, e.1 < base + 2 ^ n := by
  induction k generalizing m v with
  | zero => simp [reversePath]
  | succ k ih =>
    rw [reversePath]
    intro e he
    rcases List.mem_cons.mp he with rfl | he
    · have := node_lt h; simpa using this
    · exact ih (pow_step h _) e he

/-- A matched walk from node `ctx` with `i` bits to go stays inside the 0x300 cells of its context. -/
theorem matchedFrom_lt {base sym mb i ctx : Nat} {same : Bool} (h : (ctx + 1) * 2 ^ i ≤ 2 ^ 9) :
    ∀ e ∈ matchedFrom base sym mb i ctx same, e.1 < base + 0x300 := by
  induction i generalizing ctx same with
  | zero => simp [matchedFrom]
  | succ i ih =>
    rw [matchedFrom]
    intro e he
    rcases List.mem_cons.mp he with rfl | he
    · have h1 := node_lt (n := 8) h
      have h2 := Bool.toNat_le (mb.testBit i)
      cases same <;> simp <;> omega
    · exact ih (pow_step h _) e he

theorem treePath_inRam {base v n nprob : Nat} (h : base + 2 ^ n ≤ nprob) :
    ∀ e ∈ treePath base v n 1, e.1 < nprob := fun e he =>
  (treePath_lt (by rw [Nat.pow_succ, Nat.mul_comm]) e he).trans_le h

theorem reversePath_inRam {base v n nprob : Nat} (h : base + 2 ^ n ≤ nprob) :
    ∀ e ∈ reversePath base n v 1, e.1 < nprob := fun e he =>
  (reversePath_lt (by rw [Nat.pow_succ, Nat.mul_comm]) e he).trans_le h

theorem literalPath_inRam {base sym nprob : Nat} (h : base + 0x300 ≤ nprob) :
    ∀ e ∈ literalPath base sym, e.1 < nprob := treePath_inRam (by norm_num; omega)

theorem matchedPath_inRam {base sym mb nprob : Nat} (h : base + 0x300 ≤ nprob) :
    ∀ e ∈ matchedPath base sym mb, e.1 < nprob := fun e he =>
  (matchedFrom_lt (by norm_num) e he).trans_le h

end Sys2Proof.Machine
end

