-- ==== Sys2Proof/Laws/Exec.lean ====
section
/-! SUPPORT. What a command can do to a legal machine, said once per command: it answers a next state, and that state keeps
the invariant. -/

namespace Sys2Proof.Machine

/-- What a command of a legal machine answers: a next state, in which the invariant holds. -/
def Answers (o : Out) : Prop := ∃ t, o = .next t ∧ t.Inv

theorem answers_raise {s : State} (h : s.Ready) (c : FaultCode) : Answers (raise c s) :=
  ⟨_, rfl, (h.record c _).inv_idle⟩

theorem answers_complete {s : State} (h : s.Ready) : Answers (complete s) := ⟨_, rfl, h.inv_idle⟩

theorem answers_completeWith {s : State} (h : s.Ready) (v : Word) : Answers (completeWith v s) :=
  answers_complete (h.setRes v)

theorem answers_encode {s : State} (h : s.Ready) (hm : s.mode = .enc) {path : List (Nat × Bool)}
    (hp : ∀ e ∈ path, e.1 < s.cfg.nprob) : Answers (encodeAlong path s) := by
  obtain ⟨u, -, he, -, hu⟩ := encodeAlong_spec h hm hp
  exact ⟨_, he, hu.inv_idle⟩

theorem answers_walk {s : State} {left : Nat} {w : Walk} (h : walkOk left w s) (ho : s.running) :
    Answers (runWalk left w s) := by
  obtain ⟨t, ht⟩ := runWalk_next left w s
  exact ⟨t, ht, runWalk_inv h ho ht⟩

/-- A command that needs a MODE and checks its operands, then does `k`. -/
theorem answers_guarded {s : State} (h : s.Ready) {m : Mode} {P : Prop} [Decidable P] {k : Out}
    (hk : s.mode = m → P → Answers k) :
    Answers (if s.mode ≠ m then raise .mode s else if ¬ P then raise .operand s else k) := by
  by_cases h1 : s.mode = m
  · by_cases h2 : P
    · rw [if_neg (not_not_intro h1), if_neg (not_not_intro h2)]; exact hk h1 h2
    · rw [if_neg (not_not_intro h1), if_pos h2]; exact answers_raise h _
  · rw [if_pos h1]; exact answers_raise h _

/-- A command that checks its operands, then does `k`. -/
theorem answers_checked {s : State} (h : s.Ready) {P : Prop} [Decidable P] {k : Out} (hk : P → Answers k) :
    Answers (if ¬ P then raise .operand s else k) := by
  by_cases h1 : P
  · rw [if_neg (not_not_intro h1)]; exact hk h1
  · rw [if_pos h1]; exact answers_raise h _

theorem State.Ready.setState {s : State} (h : s.Ready) {v : BitVec 4} (hv : v.toNat ≤ 11) : (s.setState v).Ready :=
  ⟨h.cfg, h.memory, ⟨hv, h.fields.2⟩, h.interval⟩

theorem State.Ready.setModeIdle {s : State} (h : s.Ready) : (s.setMode .idle).Ready :=
  h.congr rfl rfl rfl rfl rfl rfl fun he => by simp at he

theorem afterLiteral_le (v : BitVec 4) : (afterLiteral v).toNat ≤ 11 := by revert v; decide

theorem afterMatch_le (v : BitVec 4) : (afterMatch v).toNat ≤ 11 := by revert v; decide

theorem afterRep_le (v : BitVec 4) : (afterRep v).toNat ≤ 11 := by revert v; decide

theorem afterShortRep_le (v : BitVec 4) : (afterShortRep v).toNat ≤ 11 := by revert v; decide

/-- Every command of a legal machine answers a next state in which the invariant holds. -/
theorem exec_answers (i : Instr) {s : State} (h : s.Ready) (ho : s.running) : Answers (exec i s) := by
  cases i with
  | nop => exact answers_complete h
  | setProps =>
    show Answers (execSetProps s)
    unfold execSetProps
    split
    · exact answers_raise h _
    · split
      · exact answers_raise h _
      · split
        · exact answers_raise h _
        · refine answers_complete ⟨h.cfg, h.memory, ⟨h.fields.1, ?_, ?_, ?_⟩, h.interval⟩ <;> simp <;> omega
  | probInit =>
    show Answers (execProbInit s)
    unfold execProbInit
    split_ifs with h1
    · refine answers_complete ⟨h.cfg, ⟨Memory.init_wf h.memory.1 _ _, fun e he => ?_⟩, h.fields, h.interval⟩
      exact h.memory.2 e (List.mem_filter.mp he).1
    · exact answers_raise h _
  | probWrite =>
    show Answers (execProbWrite s)
    unfold execProbWrite
    by_cases h1 : s.cellInRam
    · rw [if_neg (not_not_intro h1)]
      split
      · exact answers_raise h _
      · rename_i h2
        refine answers_complete ⟨h.cfg, h.memory.setCell h1 fun h0 => h2 ?_, h.fields, h.interval⟩
        have := congrArg BitVec.toNat h0
        rw [BitVec.toNat_setWidth, show (0 : Cell).toNat = 0 from rfl] at this
        unfold State.v
        omega
    · rw [if_pos h1]; exact answers_raise h _
  | probRead =>
    show Answers (execProbRead s)
    unfold execProbRead
    split_ifs
    · exact answers_completeWith h _
    · exact answers_raise h _
  | encInit =>
    show Answers (execEncInit s)
    unfold execEncInit
    split_ifs
    · exact answers_raise h _
    · exact answers_complete ⟨h.cfg, h.memory, h.fields, fun _ => ⟨by simp, by simp⟩⟩
  | encBit =>
    refine answers_guarded h fun hm hp => answers_encode h hm fun e he => ?_
    rw [List.mem_singleton.mp he]; exact hp.1
  | encDirect n =>
    refine answers_guarded h fun hm hp => ?_
    obtain ⟨u, hu, hf, hc, hi⟩ := encodeDirect_spec (v := s.v) (n := n) (h.interval hm)
    rw [hu]
    refine answers_complete (h.of_touch hf ?_ hi)
    have := h.memory
    have hcfg : u.cfg = s.cfg := by rw [hf]
    unfold State.memoryOk at *
    rw [hc, hcfg]; exact this
  | encFlush =>
    show Answers (execEncFlush s)
    unfold execEncFlush
    split_ifs
    · exact answers_raise h _
    · refine answers_complete (h.congr ?_ ?_ ?_ ?_ ?_ ?_ fun he => ?_) <;> first | (simp at he) | simp
  | encBt n => exact answers_guarded h fun hm hp => answers_encode h hm (treePath_inRam hp.1.2)
  | encBtr n => exact answers_guarded h fun hm hp => answers_encode h hm (reversePath_inRam hp.1.2)
  | encLit => exact answers_guarded h fun hm hp => answers_encode h hm (literalPath_inRam hp.1)
  | encLitm => exact answers_guarded h fun hm hp => answers_encode h hm (matchedPath_inRam hp.1)
  | decInit =>
    show Answers (execDecInit s)
    unfold execDecInit
    split
    · exact answers_raise h _
    · rename_i h1
      obtain ⟨t, ht⟩ := loadCode_next 5 { s with decRange := 0xFFFFFFFF, decCode := 0, incnt := 0 }
      exact ⟨t, ht, loadCode_inv (s := { s with decRange := 0xFFFFFFFF, decCode := 0, incnt := 0 })
        (h.congr rfl rfl rfl rfl rfl rfl fun he => ⟨he, rfl, rfl⟩) (not_not.mp h1) le_rfl ho ht⟩
  | decBit => exact answers_guarded h fun hm hp => answers_walk ⟨h, hm, decide_eq_true hp⟩ ho
  | decDirect n => exact answers_guarded h fun hm _ => answers_walk ⟨h, hm, rfl⟩ ho
  | decEnd =>
    show Answers (execDecEnd s)
    unfold execDecEnd
    split_ifs
    · exact answers_raise h _
    · exact answers_complete h.setModeIdle
  | decBt n =>
    exact answers_guarded h fun hm hp =>
      answers_walk ⟨h, hm, decide_eq_true ⟨hp.2, by rw [Nat.pow_succ, Nat.mul_comm]⟩⟩ ho
  | decBtr n =>
    exact answers_guarded h fun hm hp =>
      answers_walk ⟨h, hm, decide_eq_true ⟨by simpa using hp.2, by rw [Nat.zero_add, Nat.pow_succ, Nat.mul_comm]⟩⟩ ho
  | decLit =>
    refine answers_guarded h fun hm hp => answers_walk ⟨h, hm, decide_eq_true ⟨?_, by norm_num⟩⟩ ho
    have : s.a + 0x300 ≤ s.cfg.nprob := hp
    norm_num; omega
  | decLitm => exact answers_guarded h fun hm hp => answers_walk ⟨h, hm, decide_eq_true ⟨hp.1, by norm_num⟩⟩ ho
  | priceBit =>
    show Answers (execPriceBit s)
    unfold execPriceBit
    split_ifs
    · exact answers_completeWith h _
    · exact answers_raise h _
  | priceBt n => exact answers_checked h fun _ => answers_completeWith h _
  | priceBtr n => exact answers_checked h fun _ => answers_completeWith h _
  | priceLit => exact answers_checked h fun _ => answers_completeWith h _
  | priceLitm => exact answers_checked h fun _ => answers_completeWith h _
  | stReset => exact answers_complete (h.setState (by decide))
  | stLit => exact answers_complete (h.setState (afterLiteral_le _))
  | stMatch => exact answers_complete (h.setState (afterMatch_le _))
  | stRep => exact answers_complete (h.setState (afterRep_le _))
  | stShortRep => exact answers_complete (h.setState (afterShortRep_le _))
  | stIsChar => exact answers_completeWith h _
  | stRead => exact answers_completeWith h _
  | ctxLit => exact answers_completeWith h _
  | ctxPosState => exact answers_completeWith h _
  | ctxStPos => exact answers_completeWith h _

end Sys2Proof.Machine
end

