-- ==== Sys2Proof/Laws/Stream.lean ====
section
/-! SUPPORT. Why a decoder reads back what an encoder emitted (spec/42_range_decoder.md R148, spec/41_range_encoder.md R129): the
number that the encoder's bytes and ENC_LOW stand for, what ShiftLow and the splits do to it, and one bit of the decoder beside
one bit of the encoder. -/

namespace Sys2Proof.Machine

/-! ### Bytes as a number, the first byte most significant (spec/20_memory.md R63) -/

/-- The number a byte sequence stands for. -/
def digits : List Byte → Nat
  | [] => 0
  | b :: bs => b.toNat * 256 ^ bs.length + digits bs

theorem digits_append (xs ys : List Byte) : digits (xs ++ ys) = digits xs * 256 ^ ys.length + digits ys := by
  induction xs with
  | nil => simp [digits]
  | cons x xs ih => simp only [List.cons_append, digits, ih, List.length_append, Nat.pow_add]; ring

theorem digits_replicate_ff (n : Nat) : digits (List.replicate n (0xFF : Byte)) + 1 = 256 ^ n := by
  induction n with
  | zero => rfl
  | succ n ih =>
    rw [List.replicate_succ, digits, List.length_replicate, Nat.pow_succ]
    rw [show (0xFF : Byte).toNat = 255 from rfl]
    omega

theorem digits_replicate_zero (n : Nat) : digits (List.replicate n (0 : Byte)) = 0 := by
  induction n with
  | zero => rfl
  | succ n ih => rw [List.replicate_succ, digits, ih]; simp

theorem heldBytes_length (cache hi : Byte) (n : Nat) : (heldBytes cache hi n).length = n := by
  cases n <;> simp [heldBytes]

/-- The held bytes with a carry stand for one more than without, where the cache byte has room for it. -/
theorem digits_heldBytes_carry {cache : Byte} (h : cache ≠ 0xFF) (n : Nat) :
    digits (heldBytes cache 1 (n + 1)) = digits (heldBytes cache 0 (n + 1)) + 1 := by
  have h1 := digits_replicate_ff n
  have h2 : (cache + 1).toNat = cache.toNat + 1 := by
    have : cache.toNat ≠ 255 := fun h' => h (BitVec.eq_of_toNat_eq h')
    have := cache.isLt
    rw [BitVec.toNat_add]; simp; omega
  simp only [heldBytes, digits, List.length_replicate]
  rw [show (0xFF + 1 : Byte) = 0 from rfl, show (0xFF + 0 : Byte) = 0xFF from rfl,
    show cache + 0 = cache from BitVec.add_zero _, digits_replicate_zero, h2, Nat.add_mul]
  omega

/-! ### The encoder's value -/

/-- The bytes emitted, then the bytes held back. -/
def sent (s : State) : List Byte := s.outBytes ++ heldBytes s.encCache 0 s.encCsize.toNat

/-- The lower end of the encoder's interval as one number: the bytes emitted and held back, then ENC_LOW (R120). -/
def valueOf (s : State) : Nat := digits (sent s) * 2 ^ 32 + s.encLow.toNat

/-- What keeps the carry inside the held bytes (R129): a cache of 0xFF meets no carry. -/
structure CarryOk (s : State) : Prop where
  held : 1 ≤ s.encCsize.toNat
  bound : s.encLow.toNat + s.encRange.toNat < 2 ^ 33
  full : s.encCache = 0xFF → s.encLow.toNat + s.encRange.toNat ≤ 2 ^ 32

theorem toNat_top (x : Dword) (h : x.toNat < 2 ^ 33) : (x.extractLsb' 32 8).toNat = x.toNat / 2 ^ 32 := by
  rw [BitVec.extractLsb'_toNat, Nat.shiftRight_eq_div_pow]; omega

theorem toNat_byte3 (x : Dword) : (x.extractLsb' 24 8).toNat = x.toNat / 2 ^ 24 % 2 ^ 8 := by
  rw [BitVec.extractLsb'_toNat, Nat.shiftRight_eq_div_pow]

/-- ShiftLow multiplies the value by 256, with one digit more. -/
theorem shiftLow_value {s : State} (h : CarryOk s) (hr : 0 < s.encRange.toNat) (hw : s.encCsize.toNat + 1 < 2 ^ 64) :
    (sent s.shiftLow).length = (sent s).length + 1 ∧ valueOf s.shiftLow = 256 * valueOf s ∧
      (1 ≤ s.shiftLow.encCsize.toNat ∧ s.shiftLow.encCsize.toNat ≤ s.encCsize.toNat + 1) ∧
      (s.shiftLow.encCache = 0xFF → s.encLow.toNat % 2 ^ 24 + s.encRange.toNat ≤ 2 ^ 24) := by
  obtain ⟨h1, h2, h3⟩ := h
  have hlow := shiftLow_encLow_toNat s
  have htop := toNat_top s.encLow (by omega)
  have hb3 := toNat_byte3 s.encLow
  obtain ⟨n, hn⟩ : ∃ n, s.encCsize.toNat = n + 1 := ⟨s.encCsize.toNat - 1, by omega⟩
  have hs : (sent s).length = s.outBytes.length + s.encCsize.toNat := by
    rw [sent, List.length_append, heldBytes_length]
  cases hk : s.carryKnown
  · have hc := hk
    unfold State.carryKnown at hc
    simp only [Bool.or_eq_false_iff, bne_eq_false_iff_eq, decide_eq_false_iff_not] at hc
    obtain ⟨c1, c2⟩ := hc
    have htop0 : s.encLow.toNat / 2 ^ 32 = 0 := by rw [← htop, c1]; rfl
    have e1 : s.shiftLow.encCache = s.encCache := by unfold State.shiftLow; rw [hk]; rfl
    have e2 : s.shiftLow.encCsize.toNat = n + 2 := by
      have : s.shiftLow.encCsize = s.encCsize + 1 := by unfold State.shiftLow; rw [hk]; rfl
      rw [this, BitVec.toNat_add, hn]; exact Nat.mod_eq_of_lt (show n + 1 + 1 < 2 ^ 64 by omega)
    have e3 : s.shiftLow.outBytes = s.outBytes := by unfold State.shiftLow; rw [hk]; rfl
    have e4 : sent s.shiftLow = sent s ++ [0xFF] := by
      simp only [sent, e1, e2, e3, hn, heldBytes, List.replicate_succ', List.cons_append, List.append_assoc]; rfl
    have e5 : digits [(0xFF : Byte)] = 255 := rfl
    refine ⟨by rw [e4, List.length_append]; rfl, ?_, ⟨by omega, by omega⟩, fun hf => ?_⟩
    · rw [valueOf, valueOf, e4, digits_append, e5, hlow, List.length_singleton]; omega
    · have := h3 (e1 ▸ hf); omega
  · have hc := hk
    unfold State.carryKnown at hc
    simp only [Bool.or_eq_true, bne_iff_ne, decide_eq_true_eq] at hc
    have e1 : s.shiftLow.encCache = s.encLow.extractLsb' 24 8 := by unfold State.shiftLow; rw [hk]; rfl
    have e2 : s.shiftLow.encCsize.toNat = 1 := by
      have : s.shiftLow.encCsize = 1 := by unfold State.shiftLow; rw [hk]; rfl
      rw [this]; rfl
    have e3 : s.shiftLow.outBytes = s.outBytes ++ heldBytes s.encCache (s.encLow.extractLsb' 32 8) s.encCsize.toNat := by
      unfold State.shiftLow; rw [hk]; rfl
    have e4 : digits s.shiftLow.outBytes = digits (sent s) + s.encLow.toNat / 2 ^ 32 := by
      rw [e3]
      have : s.encLow.toNat / 2 ^ 32 = 0 ∨ s.encLow.toNat / 2 ^ 32 = 1 := by omega
      rcases this with h0 | h0
      · rw [show s.encLow.extractLsb' 32 8 = 0 from BitVec.eq_of_toNat_eq (by rw [htop, h0]; rfl), h0]; rfl
      · have hne : s.encCache ≠ 0xFF := fun hf => by have := h3 hf; omega
        rw [show s.encLow.extractLsb' 32 8 = 1 from BitVec.eq_of_toNat_eq (by rw [htop, h0]; rfl), h0, sent, digits_append,
          digits_append, hn, digits_heldBytes_carry hne, heldBytes_length, heldBytes_length]
        omega
    have e5 : sent s.shiftLow = s.shiftLow.outBytes ++ [s.encLow.extractLsb' 24 8] := by
      rw [sent, e1, e2]; simp [heldBytes]
    have e6 : digits [s.encLow.extractLsb' 24 8] = s.encLow.toNat / 2 ^ 24 % 2 ^ 8 := by simp [digits, hb3]
    refine ⟨?_, ?_, ⟨by omega, by omega⟩, fun hf => ?_⟩
    · rw [e5, e3, List.length_append, List.length_append, heldBytes_length, hs]; rfl
    · rw [valueOf, valueOf, e5, digits_append, e4, e6, hlow, List.length_singleton]
      omega
    · rw [e1] at hf
      have := congrArg BitVec.toNat hf
      rw [hb3, show (0xFF : Byte).toNat = 255 from rfl] at this
      rcases hc with hc | hc
      · have : s.encLow.toNat / 2 ^ 32 ≠ 0 := fun h0 => hc (BitVec.eq_of_toNat_eq (by rw [htop, h0]; rfl))
        omega
      · omega

/-! ### An encoder and a decoder side by side -/

/-- How many bytes a decoder has taken when it stands where the encoder stands: one for each byte sent, and four for ENC_LOW. -/
def position (e : State) : Nat := (sent e).length + 4

/-- The stream `bs` as far as the decoder has it at the encoder's state `e` lies in the encoder's interval. -/
structure Covers (bs : List Byte) (e : State) : Prop where
  enough : position e ≤ bs.length
  low : valueOf e ≤ digits (bs.take (position e))
  high : digits (bs.take (position e)) < valueOf e + e.encRange.toNat

/-- The decoder `d` of the stream `bs`, whose first `skip` bytes were sent before the stream began, stands where the encoder `e`
stands; `rest` follows the stream on the byte-in port. -/
structure Follows (bs : List Byte) (skip : Nat) (rest : List Byte) (e d : State) : Prop where
  range : d.decRange = e.encRange
  cells : d.cells = e.cells
  code : d.decCode.toNat + valueOf e = digits (bs.take (position e))
  queue : d.inQueue = bs.drop (position e) ++ rest
  count : skip ≤ position e ∧ d.incnt = BitVec.ofNat 64 (position e - skip)

/-- What an encoder state needs for its next bit. -/
structure EncOk (e : State) : Prop where
  carry : CarryOk e
  range : 2 ^ 24 ≤ e.encRange.toNat
  memory : e.memoryOk

/-- What `e'` is to `e` when it comes after: a stream that lies in the interval of `e'` lies in that of `e`, and
ENC_CSIZE grew by at most `n`. -/
structure Leads (n : Nat) (e e' : State) : Prop where
  back : ∀ bs, Covers bs e' → Covers bs e
  grows : e'.encCsize.toNat ≤ e.encCsize.toNat + n

theorem Leads.refl (e : State) : Leads 0 e e := ⟨fun _ h => h, le_refl _⟩

theorem Leads.trans {m n : Nat} {e e' e'' : State} (h : Leads m e e') (h' : Leads n e' e'') : Leads (m + n) e e'' :=
  ⟨fun bs hb => h.back bs (h'.back bs hb), by have := h.grows; have := h'.grows; omega⟩

/-- One round of RenormE. -/
def renormRound (e : State) : State := { e with encRange := e.encRange <<< 8 }.shiftLow

theorem renormRound_eq (e : State) : renormRound e = { e.shiftLow with encRange := e.encRange <<< 8 } := by
  have : ({ e with encRange := e.encRange <<< 8 } : State).carryKnown = e.carryKnown := rfl
  unfold renormRound State.shiftLow
  rw [this]
  cases e.carryKnown <;> rfl

theorem digits_take_succ {bs : List Byte} {k : Nat} (h : k < bs.length) :
    digits (bs.take (k + 1)) = digits (bs.take k) * 256 + bs[k].toNat := by
  rw [List.take_succ_eq_append_getElem h, digits_append]; simp [digits]

/-- One round of RenormE beside one round of RenormD. -/
theorem renormRound_spec {e : State} (h : CarryOk e) (h0 : 0 < e.encRange.toNat) (hr : e.encRange.toNat < 2 ^ 24)
    (hw : e.encCsize.toNat + 1 < 2 ^ 64) :
    CarryOk (renormRound e) ∧ 0 < (renormRound e).encRange.toNat ∧ Leads 1 e (renormRound e) ∧
      ∀ bs skip rest d, Covers bs (renormRound e) → Follows bs skip rest e d →
        ∃ b q, d.inQueue = b :: q ∧ Follows bs skip rest (renormRound e) (d.renormByte b q) := by
  obtain ⟨v1, v2, v3, v4⟩ := shiftLow_value h h0 hw
  have e1 : (e.encRange <<< 8).toNat = e.encRange.toNat * 2 ^ 8 := by
    rw [BitVec.toNat_shiftLeft, Nat.shiftLeft_eq]; omega
  have hlow := shiftLow_encLow_toNat e
  have hm := Nat.mod_lt e.encLow.toNat (show 0 < 2 ^ 24 by norm_num)
  have s1 : sent (renormRound e) = sent e.shiftLow := by rw [renormRound_eq]; rfl
  have s2 : valueOf (renormRound e) = 256 * valueOf e := by rw [renormRound_eq, ← v2]; rfl
  have s3 : (renormRound e).encRange.toNat = e.encRange.toNat * 2 ^ 8 := by rw [renormRound_eq]; exact e1
  have s5 : (renormRound e).encCsize = e.shiftLow.encCsize := by rw [renormRound_eq]
  have s4 : position (renormRound e) = position e + 1 := by unfold position; rw [s1, v1]
  refine ⟨⟨?_, ?_, fun hf => ?_⟩, by omega, ⟨fun bs hb => ?_, by rw [s5]; exact v3.2⟩, fun bs skip rest d hb hf => ?_⟩
  · rw [s5]; exact v3.1
  · rw [s3, renormRound_eq]; show e.shiftLow.encLow.toNat + _ < _; rw [hlow]; omega
  · rw [renormRound_eq] at hf
    have := v4 hf
    rw [s3, renormRound_eq]; show e.shiftLow.encLow.toNat + _ ≤ _; rw [hlow]; omega
  · obtain ⟨b1, b2, b3⟩ := hb
    rw [s4] at b1 b2 b3
    rw [digits_take_succ (by omega)] at b2 b3
    rw [s2] at b2 b3
    rw [s3] at b3
    have := bs[position e].isLt
    exact ⟨by omega, by omega, by omega⟩
  · obtain ⟨b1, b2, b3⟩ := hb
    obtain ⟨f1, f2, f3, f4, f5, f6⟩ := hf
    rw [s4] at b1 b2 b3
    have hd := digits_take_succ (bs := bs) (k := position e) (by omega)
    rw [hd, s2] at b2 b3
    rw [s3] at b3
    have hbyte := bs[position e].isLt
    refine ⟨bs[position e], bs.drop (position e + 1) ++ rest, ?_, ?_, ?_, ?_, ?_, ?_, ?_⟩
    · rw [f4, List.drop_eq_getElem_cons (by omega)]; rfl
    · rw [renormRound_eq]; show d.decRange <<< 8 = _; rw [f1]
    · rw [renormRound_eq]; show d.cells = e.shiftLow.cells; rw [f2]; simp
    · rw [s4, hd, s2]
      have : (State.renormByte d bs[position e] (bs.drop (position e + 1) ++ rest)).decCode.toNat
          = d.decCode.toNat * 256 + bs[position e].toNat := by
        show ((d.decCode <<< 8) ||| (bs[position e]).setWidth 32).toNat = _
        have x1 : d.decCode.toNat <<< 8 % 2 ^ 32 = d.decCode.toNat <<< 8 := by
          rw [Nat.shiftLeft_eq]; omega
        have x2 : bs[position e].toNat % 2 ^ 32 = bs[position e].toNat := by omega
        have x3 := Nat.shiftLeft_add_eq_or_of_lt hbyte d.decCode.toNat
        rw [BitVec.toNat_or, BitVec.toNat_shiftLeft, BitVec.toNat_setWidth, x1, x2, ← x3, Nat.shiftLeft_eq]
      rw [this]; omega
    · rw [s4]; rfl
    · rw [s4]; omega
    · rw [s4]
      show d.incnt + 1 = _
      rw [f6, show position e + 1 - skip = (position e - skip) + 1 by omega, BitVec.ofNat_add]; rfl

/-- RenormE beside RenormD. -/
theorem renormRounds_follow {n : Nat} {e e' : State} (h : CarryOk e) (h0 : 0 < e.encRange.toNat)
    (hw : e.encCsize.toNat + n < 2 ^ 64) (he : State.renormRounds n e = some e') :
    CarryOk e' ∧ 2 ^ 24 ≤ e'.encRange.toNat ∧ Leads n e e' ∧
      ∀ bs skip rest d, Covers bs e' → Follows bs skip rest e d → d.renormD.1 = true ∧ Follows bs skip rest e' d.renormD.2 := by
  have stop : ∀ {d : State}, 2 ^ 24 ≤ d.decRange.toNat → d.renormD = (true, d) := by
    intro d hd
    unfold State.renormD
    cases d.inQueue with
    | nil => simp only [renormOver, decide_eq_true hd]
    | cons b q => rw [renormOver, if_pos hd]
  induction n generalizing e with
  | zero =>
    unfold State.renormRounds at he
    split at he
    · cases he
    · cases he
      refine ⟨h, by omega, Leads.refl _, fun bs skip rest d _ hf => ?_⟩
      rw [stop (by rw [hf.range]; omega)]; exact ⟨rfl, hf⟩
  | succ n ih =>
    rw [renormRounds_succ] at he
    split at he
    · rename_i hr
      obtain ⟨r1, r2, r3, r4⟩ := renormRound_spec h h0 hr (by omega)
      obtain ⟨k1, k2, k3, k4⟩ := ih r1 r2 (by have := r3.grows; omega) he
      refine ⟨k1, k2, by rw [Nat.add_comm]; exact r3.trans k3, fun bs skip rest d hb hf => ?_⟩
      obtain ⟨b, q, hq, hf'⟩ := r4 bs skip rest d (k3.back bs hb) hf
      have : d.renormD = (d.renormByte b q).renormD := by
        unfold State.renormD
        rw [hq, renormOver, if_neg (by rw [hf.range]; omega)]; rfl
      rw [this]
      exact k4 bs skip rest _ hb hf'
    · cases he
      refine ⟨h, by omega, ⟨fun _ hb => hb, by omega⟩, fun bs skip rest d _ hf => ?_⟩
      rw [stop (by rw [hf.range]; omega)]; exact ⟨rfl, hf⟩

/-- A split of the interval leads on, where it stays inside the interval and sends nothing. -/
theorem Leads.of_split {e e' : State} (hs : sent e' = sent e) (hz : e'.encCsize = e.encCsize) (h1 : e.encLow.toNat ≤ e'.encLow.toNat)
    (h2 : e'.encLow.toNat + e'.encRange.toNat ≤ e.encLow.toNat + e.encRange.toNat) : Leads 0 e e' := by
  have hp : position e' = position e := by unfold position; rw [hs]
  refine ⟨fun bs ⟨b1, b2, b3⟩ => ?_, by rw [hz, Nat.add_zero]⟩
  unfold valueOf at b2 b3
  rw [hp, hs] at b2 b3
  exact ⟨hp ▸ b1, by unfold valueOf; omega, by unfold valueOf; omega⟩

theorem CarryOk.of_split {e e' : State} (h : CarryOk e) (hc : e'.encCache = e.encCache) (hz : e'.encCsize = e.encCsize)
    (h2 : e'.encLow.toNat + e'.encRange.toNat ≤ e.encLow.toNat + e.encRange.toNat) : CarryOk e' :=
  ⟨by rw [hz]; exact h.held, by have := h.bound; omega, fun hf => by have := h.full (hc ▸ hf); omega⟩

/-- EncodeBit beside DecodeBit: the decoder gets the bit. -/
theorem encodeBit_follow {e e' : State} {a : Nat} {bit : Bool} (h : EncOk e) (ha : a < e.cfg.nprob)
    (hw : e.encCsize.toNat + 3 < 2 ^ 64) (he : e.encodeBit a bit = some e') :
    EncOk e' ∧ Leads 3 e e' ∧
      ∀ bs skip rest d, Covers bs e' → Follows bs skip rest e d →
        ∃ d', d.decodeBit a = some (bit, d') ∧ Follows bs skip rest e' d' := by
  obtain ⟨hc, hr, hm⟩ := h
  obtain ⟨b1, b2⟩ := bound_between hr (hm.cell_ne_zero a)
  let e1 := (e.encodeSplit a bit).adaptCell a bit
  have hs : sent e1 = sent e := by cases bit <;> rfl
  have hz : e1.encCsize = e.encCsize := by cases bit <;> rfl
  have hlow : e1.encLow.toNat = e.encLow.toNat + (if bit then (bound e.encRange (e.cell a)).toNat else 0) := by
    cases bit
    · rfl
    · show (e.encLow + (bound e.encRange (e.cell a)).setWidth 64).toNat = _
      have := hc.bound; have := (bound e.encRange (e.cell a)).isLt
      rw [BitVec.toNat_add, BitVec.toNat_setWidth, if_pos rfl]; omega
  have hrange : e1.encRange.toNat =
      if bit then e.encRange.toNat - (bound e.encRange (e.cell a)).toNat else (bound e.encRange (e.cell a)).toNat := by
    cases bit
    · rfl
    · show (e.encRange - bound e.encRange (e.cell a)).toNat = _
      rw [BitVec.toNat_sub_of_le (by rw [BitVec.le_def]; omega)]; rfl
  have hin : e1.encLow.toNat + e1.encRange.toNat ≤ e.encLow.toNat + e.encRange.toNat := by
    rw [hlow, hrange]; cases bit <;> simp <;> omega
  have hpos : 0 < e1.encRange.toNat := by rw [hrange]; cases bit <;> simp <;> omega
  have hle : e.encLow.toNat ≤ e1.encLow.toNat := by rw [hlow]; omega
  obtain ⟨k1, k2, k3, k4⟩ := renormRounds_follow (n := 3) (e := e1) (hc.of_split (by cases bit <;> rfl)
    (by cases bit <;> rfl) hin) hpos (by rw [hz]; exact hw) he
  have hmem : e'.memoryOk := by
    have h1 := encodeBit_cells he
    have h2 : e'.cfg = e.cfg := by rw [encodeBit_touch he]
    have := hm.adaptCell ha bit
    unfold State.memoryOk at *
    rw [h1, h2]; exact this
  refine ⟨⟨k1, k2, hmem⟩, by simpa using (Leads.of_split hs hz hle hin).trans k3, fun bs skip rest d hb hf => ?_⟩
  obtain ⟨c1, c2, c3⟩ := k3.back bs hb
  obtain ⟨f1, f2, f3, f4, f5⟩ := hf
  have hp : position e1 = position e := by unfold position; rw [hs]
  have hv : valueOf e1 = valueOf e + (if bit then (bound e.encRange (e.cell a)).toNat else 0) := by
    unfold valueOf; rw [hs, hlow]; omega
  rw [hp, hv] at c2 c3
  rw [hrange] at c3
  have hbd : bound d.decRange (d.cell a) = bound e.encRange (e.cell a) := by
    rw [f1]; unfold State.cell; rw [f2]
  obtain ⟨d1, hd1, hf1⟩ : ∃ d1, d.decodeSplit a = (bit, d1) ∧ Follows bs skip rest e1 d1 := by
    cases bit with
    | false =>
      simp only [Bool.false_eq_true, if_false, Nat.add_zero] at c2 c3 hv
      refine ⟨({ d with decRange := bound d.decRange (d.cell a) } : State).adaptCell a false, ?_, ?_, ?_, ?_, ?_, ?_⟩
      · unfold State.decodeSplit; dsimp only; rw [if_pos (by rw [hbd]; omega)]
      · exact hbd
      · show d.cells.write a (adapt (d.cell a) false) = e.cells.write a (adapt (e.cell a) false)
        unfold State.cell; rw [f2]
      · rw [hp, hv]; exact f3
      · rw [hp]; exact f4
      · rw [hp]; exact f5
    | true =>
      simp only [if_true] at c2 c3 hv
      refine ⟨({ d with
          decRange := d.decRange - bound d.decRange (d.cell a)
          decCode := d.decCode - bound d.decRange (d.cell a) } : State).adaptCell a true, ?_, ?_, ?_, ?_, ?_, ?_⟩
      · unfold State.decodeSplit; dsimp only; rw [if_neg (by rw [hbd]; omega)]
      · show d.decRange - bound d.decRange (d.cell a) = _; rw [hbd, f1]; rfl
      · show d.cells.write a (adapt (d.cell a) true) = e.cells.write a (adapt (e.cell a) true)
        unfold State.cell; rw [f2]
      · rw [hp, hv]
        show (d.decCode - bound d.decRange (d.cell a)).toNat + _ = _
        rw [hbd, BitVec.toNat_sub_of_le (by rw [BitVec.le_def]; omega)]; omega
      · rw [hp]; exact f4
      · rw [hp]; exact f5
  obtain ⟨g1, g2⟩ := k4 bs skip rest d1 hb hf1
  refine ⟨d1.renormD.2, ?_, g2⟩
  unfold State.decodeBit; rw [hd1]; dsimp only; rw [if_pos g1]

/-- One bit of EncodeDirect beside one bit of DecodeDirect: the decoder gets the bit. -/
theorem encodeHalf_follow {e e' : State} {bit : Bool} (h : EncOk e) (hw : e.encCsize.toNat + 3 < 2 ^ 64)
    (he : (e.directSplit bit).renormE = some e') :
    EncOk e' ∧ Leads 3 e e' ∧
      ∀ bs skip rest d, Covers bs e' → Follows bs skip rest e d →
        ∃ d1, d.decodeHalf = (bit, d1) ∧ d1.renormD.1 = true ∧ Follows bs skip rest e' d1.renormD.2 := by
  obtain ⟨hc, hr, hm⟩ := h
  let e1 := e.directSplit bit
  have ehalf : (e.encRange >>> 1).toNat = e.encRange.toNat / 2 := by
    rw [BitVec.toNat_ushiftRight, Nat.shiftRight_eq_div_pow]
  have hs : sent e1 = sent e := by cases bit <;> rfl
  have hz : e1.encCsize = e.encCsize := by cases bit <;> rfl
  have hlow : e1.encLow.toNat = e.encLow.toNat + (if bit then e.encRange.toNat / 2 else 0) := by
    cases bit
    · rfl
    · show (e.encLow + (e.encRange >>> 1).setWidth 64).toNat = _
      have := hc.bound
      rw [BitVec.toNat_add, BitVec.toNat_setWidth, ehalf, if_pos rfl]; omega
  have hrange : e1.encRange = e.encRange >>> 1 := by cases bit <;> rfl
  have hin : e1.encLow.toNat + e1.encRange.toNat ≤ e.encLow.toNat + e.encRange.toNat := by
    rw [hlow, hrange, ehalf]; cases bit <;> simp <;> omega
  have hle : e.encLow.toNat ≤ e1.encLow.toNat := by rw [hlow]; omega
  obtain ⟨k1, k2, k3, k4⟩ := renormRounds_follow (n := 3) (e := e1) (hc.of_split (by cases bit <;> rfl)
    (by cases bit <;> rfl) hin) (by rw [hrange, ehalf]; omega) (by rw [hz]; exact hw) he
  have hmem : e'.memoryOk := by
    have h1 : e'.cells = e.cells := (renormRounds_cells he).trans (by simp)
    have h2 : e'.cfg = e.cfg := by rw [(directSplit_touch e bit).trans (renormRounds_touch he)]
    unfold State.memoryOk at *
    rw [h1, h2]; exact hm
  refine ⟨⟨k1, k2, hmem⟩, by simpa using (Leads.of_split hs hz hle hin).trans k3, fun bs skip rest d hb hf => ?_⟩
  obtain ⟨c1, c2, c3⟩ := k3.back bs hb
  obtain ⟨f1, f2, f3, f4, f5⟩ := hf
  have hp : position e1 = position e := by unfold position; rw [hs]
  have hv : valueOf e1 = valueOf e + (if bit then e.encRange.toNat / 2 else 0) := by
    unfold valueOf; rw [hs, hlow]; omega
  rw [hp, hv] at c2 c3
  rw [hrange, ehalf] at c3
  have hd2 : (d.decRange >>> 1).toNat = e.encRange.toNat / 2 := by rw [f1, ehalf]
  have hrl := e.encRange.isLt
  cases bit with
  | false =>
    simp only [Bool.false_eq_true, if_false, Nat.add_zero] at c2 c3 hv
    have hmsb : (d.decCode - d.decRange >>> 1).msb = true := by
      rw [BitVec.msb_eq_decide, BitVec.toNat_sub, hd2, decide_eq_true_eq]
      have : d.decCode.toNat < e.encRange.toNat / 2 := by omega
      rw [Nat.mod_eq_of_lt (by omega)]; omega
    refine ⟨{ d with decRange := d.decRange >>> 1 }, ?_, k4 bs skip rest _ hb ⟨?_, ?_, ?_, ?_, ?_⟩⟩
    · unfold State.decodeHalf; dsimp only; rw [if_pos hmsb]
    · show d.decRange >>> 1 = _; rw [f1]; rfl
    · exact f2
    · rw [hp, hv]; exact f3
    · rw [hp]; exact f4
    · rw [hp]; exact f5
  | true =>
    simp only [if_true] at c2 c3 hv
    have hsub : (d.decCode - d.decRange >>> 1).toNat = d.decCode.toNat - e.encRange.toNat / 2 := by
      rw [BitVec.toNat_sub_of_le (by rw [BitVec.le_def, hd2]; omega), hd2]
    have hmsb : ¬ (d.decCode - d.decRange >>> 1).msb = true := by
      rw [BitVec.msb_eq_decide, hsub, decide_eq_true_eq]; omega
    refine ⟨{ d with decRange := d.decRange >>> 1, decCode := d.decCode - d.decRange >>> 1 }, ?_,
      k4 bs skip rest _ hb ⟨?_, ?_, ?_, ?_, ?_⟩⟩
    · unfold State.decodeHalf; dsimp only; rw [if_neg hmsb]
    · show d.decRange >>> 1 = _; rw [f1]; rfl
    · exact f2
    · rw [hp, hv]; show (d.decCode - d.decRange >>> 1).toNat + _ = _; rw [hsub]; omega
    · rw [hp]; exact f4
    · rw [hp]; exact f5

end Sys2Proof.Machine
end

