-- ==== Sys2Proof/Laws/Follow.lean ====
section
/-! SUPPORT. Whole commands side by side (spec/42_range_decoder.md R148): EncodeBit along a walk beside DecodeBit along the same
walk, EncodeDirect beside DecodeDirect, and what the decoding loops of spec/43_bit_tree.md and spec/44_literal.md return when the
bits they decode are those of a symbol's walk. -/

namespace Sys2Proof.Machine

/-- DecodeBit along a walk, where every bit decoded is the one the walk says. -/
def decodePath : List (Nat × Bool) → State → Option State
  | [], s => some s
  | (a, bit) :: path, s =>
    match s.decodeBit a with
    | some (b, t) => if b = bit then decodePath path t else none
    | none => none

/-- EncodeBit along a walk beside DecodeBit along it. -/
theorem encodePath_follow {path : List (Nat × Bool)} : ∀ {e e' : State}, EncOk e → (∀ x ∈ path, x.1 < e.cfg.nprob) →
    e.encCsize.toNat + 3 * path.length < 2 ^ 64 → State.encodePath path e = some e' →
    EncOk e' ∧ Leads (3 * path.length) e e' ∧
      ∀ bs skip rest d, Covers bs e' → Follows bs skip rest e d →
        ∃ d', decodePath path d = some d' ∧ Follows bs skip rest e' d' := by
  induction path with
  | nil => intro e e' h _ _ he; cases he; exact ⟨h, Leads.refl _, fun bs skip rest d _ hf => ⟨d, rfl, hf⟩⟩
  | cons x path ih =>
    intro e e' h hp hw he
    obtain ⟨a, bit⟩ := x
    unfold State.encodePath at he
    split at he
    · rename_i u hu
      rw [List.length_cons] at hw
      obtain ⟨h1, h2, h3⟩ := encodeBit_follow h (hp (a, bit) List.mem_cons_self) (by omega) hu
      have hcfg : u.cfg = e.cfg := by rw [encodeBit_touch hu]
      obtain ⟨k1, k2, k3⟩ := ih h1 (fun x hx => hcfg ▸ hp x (List.mem_cons_of_mem _ hx)) (by have := h2.grows; omega) he
      refine ⟨k1, by rw [List.length_cons, show 3 * (path.length + 1) = 3 + 3 * path.length by ring]; exact h2.trans k2, fun bs skip rest d hb hf => ?_⟩
      obtain ⟨d1, q1, q2⟩ := h3 bs skip rest d (k2.back bs hb) hf
      obtain ⟨d2, q3, q4⟩ := k3 bs skip rest d1 hb q2
      exact ⟨d2, by rw [decodePath, q1]; simp [q3], q4⟩
    · cases he

/-- EncodeDirect beside DecodeDirect: the decoder gets the value. -/
theorem encodeDirect_follow {v : Nat} : ∀ {n : Nat} {e e' : State}, EncOk e → e.encCsize.toNat + 3 * n < 2 ^ 64 → State.encodeDirect v n e = some e' →
    EncOk e' ∧ Leads (3 * n) e e' ∧
      ∀ bs skip rest d (r : Word) (k : Nat), r.toNat < 2 ^ k → k + n ≤ 32 → Covers bs e' → Follows bs skip rest e d →
        ∃ d' r', State.decodeDirect n r d = some (r', d') ∧ r'.toNat = r.toNat * 2 ^ n + v % 2 ^ n ∧ Follows bs skip rest e' d' := by
  intro n
  induction n with
  | zero => intro e e' h _ he; cases he; exact ⟨h, Leads.refl _, fun bs skip rest d r k _ _ _ hf => ⟨d, r, rfl, by simp [Nat.mod_one], hf⟩⟩
  | succ n ih =>
    intro e e' h hw he
    unfold State.encodeDirect at he
    split at he
    · rename_i u hu
      obtain ⟨h1, h2, h3⟩ := encodeHalf_follow h (by omega) hu
      obtain ⟨k1, k2, k3⟩ := ih h1 (by have := h2.grows; omega) he
      refine ⟨k1, by rw [show 3 * (n + 1) = 3 + 3 * n by ring]; exact h2.trans k2, fun bs skip rest d r k hr hk hb hf => ?_⟩
      obtain ⟨d1, q1, q2, q3⟩ := h3 bs skip rest d (k2.back bs hb) hf
      have hb' : ((r <<< 1) ||| (BitVec.ofBool (v.testBit n)).setWidth 32).toNat = 2 * r.toNat + (v.testBit n).toNat := by
        have hk' : 2 ^ (k+1) ≤ 2 ^ 32 := Nat.pow_le_pow_right (by omega) (by omega)
        rw [Nat.pow_succ] at hk'
        rw [BitVec.toNat_or, BitVec.toNat_shiftLeft, BitVec.toNat_setWidth]
        have x1 : r.toNat <<< 1 % 2 ^ 32 = r.toNat <<< 1 := by rw [Nat.shiftLeft_eq]; omega
        have x2 : (BitVec.ofBool (v.testBit n)).toNat % 2 ^ 32 = (v.testBit n).toNat := by cases v.testBit n <;> rfl
        have x3 := Nat.shiftLeft_add_eq_or_of_lt (show (v.testBit n).toNat < 2 ^ 1 by cases v.testBit n <;> simp) r.toNat
        rw [x1, x2, ← x3, Nat.shiftLeft_eq]; omega
      obtain ⟨d2, r2, q4, q5, q6⟩ := k3 bs skip rest d1.renormD.2 _ (k+1) (by rw [hb', Nat.pow_succ]; have := Bool.toNat_le (v.testBit n); omega) (by omega) hb q3
      refine ⟨d2, r2, ?_, ?_, q6⟩
      · unfold State.decodeDirect; dsimp only; rw [q1]; dsimp only; rw [if_pos q2]; exact q4
      · rw [q5, hb', Nat.pow_succ, Nat.mod_mul, ← Nat.toNat_testBit]; ring
    · cases he

/-- DecodeBit along the walk of `v` is the decoding loop of R163 and R184 returning `v`. -/
theorem decodeTree_of_path (base v : Nat) : ∀ (n m : Nat) (d d' : State), decodePath (treePath base v n m) d = some d' →
    State.decodeTree base n m d = some (m * 2 ^ n + v % 2 ^ n, d') := by
  intro n
  induction n with
  | zero => intro m d d' h; cases h; simp [State.decodeTree, Nat.mod_one]
  | succ n ih =>
    intro m d d' h
    rw [treePath, decodePath] at h
    rw [State.decodeTree]
    split at h
    · rename_i b t hb
      split at h
      · rename_i hbb
        try simp only [hb]
        subst hbb
        rw [ih _ _ _ h, Nat.pow_succ, Nat.mod_mul, ← Nat.toNat_testBit]
        congr 2; ring
      · cases h
    · cases h

/-- DecodeBit along the LSB-first walk of `v` is the decoding loop of R164 returning `v`. -/
theorem decodeReverse_of_path (base : Nat) : ∀ (n v i m acc : Nat) (d d' : State), acc < 2 ^ i → decodePath (reversePath base n v m) d = some d' →
    State.decodeReverse base n i m acc d = some (acc + (v % 2 ^ n) * 2 ^ i, d') := by
  intro n
  induction n with
  | zero => intro v i m acc d d' _ h; cases h; simp [State.decodeReverse, Nat.mod_one]
  | succ n ih =>
    intro v i m acc d d' ha h
    rw [reversePath, decodePath] at h
    rw [State.decodeReverse]
    split at h
    · rename_i b t hb
      split at h
      · rename_i hbb
        try simp only [hb]
        subst hbb
        have e : acc ||| (v.testBit 0).toNat <<< i = acc + (v.testBit 0).toNat * 2 ^ i := by
          rw [Nat.or_comm, ← Nat.shiftLeft_add_eq_or_of_lt ha, Nat.shiftLeft_eq, Nat.add_comm]
        rw [e]
        rw [ih _ _ _ _ _ _ _ h]
        · congr 2
          rw [Nat.pow_succ 2 n, Nat.mul_comm (2 ^ n) 2, Nat.mod_mul, Nat.pow_succ]
          rw [show v >>> 1 = v / 2 by rw [Nat.shiftRight_eq_div_pow]]
          rw [Nat.toNat_testBit]
          simp; ring
        · rw [Nat.pow_succ]; have := Bool.toNat_le (v.testBit 0)
          have : (v.testBit 0).toNat * 2 ^ i ≤ 1 * 2 ^ i := Nat.mul_le_mul_right _ this
          omega
      · cases h
    · cases h

/-- The matched walk after a bit disagreed is the normal loop of R185. -/
theorem decodeTree_of_matched (base sym mb : Nat) : ∀ (n m : Nat) (d d' : State), decodePath (matchedFrom base sym mb n m false) d = some d' →
    State.decodeTree base n m d = some (m * 2 ^ n + sym % 2 ^ n, d') := by
  intro n
  induction n with
  | zero => intro m d d' h; cases h; simp [State.decodeTree, Nat.mod_one]
  | succ n ih =>
    intro m d d' h
    rw [matchedFrom, decodePath] at h
    rw [State.decodeTree]
    simp only [Bool.false_eq_true, if_false, Bool.false_and] at h
    split at h
    · rename_i b t hb
      split at h
      · rename_i hbb
        try simp only [hb]
        subst hbb
        rw [ih _ _ _ h, Nat.pow_succ, Nat.mod_mul, ← Nat.toNat_testBit]
        congr 2; ring
      · cases h
    · cases h

/-- DecodeBit along the matched walk of `sym` is the decoding loops of R185 returning `sym`. -/
theorem decodeMatched_of_path (base sym mb : Nat) : ∀ (n m : Nat) (x : Byte) (d d' : State), n ≤ 8 → x.toNat = mb % 2 ^ n * 2 ^ (8 - n) →
    decodePath (matchedFrom base sym mb n m true) d = some d' →
    State.decodeMatched base n x m d = some (m * 2 ^ n + sym % 2 ^ n, d') := by
  intro n
  induction n with
  | zero => intro m x d d' _ _ h; cases h; simp [State.decodeMatched, Nat.mod_one]
  | succ n ih =>
    intro m x d d' hn hx h
    have hmsb : x.msb = mb.testBit n := by
      have hn' : n = 0 ∨ n = 1 ∨ n = 2 ∨ n = 3 ∨ n = 4 ∨ n = 5 ∨ n = 6 ∨ n = 7 := by omega
      rw [BitVec.msb_eq_decide, hx, Nat.testBit_eq_decide_div_mod_eq]
      rcases hn' with rfl | rfl | rfl | rfl | rfl | rfl | rfl | rfl <;> simp only [decide_eq_decide] <;> norm_num <;> omega
    have hx' : (x <<< 1).toNat = mb % 2 ^ n * 2 ^ (8 - n) := by
      have hn' : n = 0 ∨ n = 1 ∨ n = 2 ∨ n = 3 ∨ n = 4 ∨ n = 5 ∨ n = 6 ∨ n = 7 := by omega
      rw [BitVec.toNat_shiftLeft, hx, Nat.shiftLeft_eq]
      rcases hn' with rfl | rfl | rfl | rfl | rfl | rfl | rfl | rfl <;> norm_num <;> omega
    rw [matchedFrom, decodePath] at h
    rw [State.decodeMatched, hmsb]
    simp only [if_true, Bool.true_and] at h
    rw [show base + (m + (1 + (mb.testBit n).toNat) <<< 8) = base + (1 + (mb.testBit n).toNat) <<< 8 + m by ring] at h
    split at h
    · rename_i b t hb
      split at h
      · rename_i hbb
        try simp only [hb]
        subst hbb
        have e : m * 2 ^ (n+1) + sym % 2 ^ (n+1) = (2 * m + (sym.testBit n).toNat) * 2 ^ n + sym % 2 ^ n := by
          rw [Nat.pow_succ, Nat.mod_mul, ← Nat.toNat_testBit]; ring
        rw [e]
        by_cases hne : mb.testBit n = sym.testBit n
        · rw [if_neg (not_not_intro hne)]
          rw [hne, beq_self_eq_true] at h
          exact ih _ _ _ _ (by omega) hx' h
        · rw [if_pos hne]
          rw [beq_eq_false_iff_ne.mpr hne] at h
          exact decodeTree_of_matched _ _ _ _ _ _ _ h
      · cases h
    · cases h

end Sys2Proof.Machine
end

