-- ==== Sys2Proof/Laws/Inversion.lean ====
section
/-! SUPPORT. What running a command can come to, said once for all 36: a check fails, or the command completes at once, encodes
along a walk, or decodes along a walk; and what each of these leaves unchanged. -/

namespace Sys2Proof.Machine

/-- The MODE a command needs (spec/30_encoding.md R84), none where it runs in any. -/
def modeNeeded : Instr → Option Mode
  | .setProps | .encInit | .decInit => some .idle
  | .encBit | .encDirect _ | .encFlush | .encBt _ | .encBtr _ | .encLit | .encLitm => some .enc
  | .decBit | .decDirect _ | .decEnd | .decBt _ | .decBtr _ | .decLit | .decLitm => some .dec
  | .nop | .probInit | .probWrite | .probRead | .priceBit | .priceBt _ | .priceBtr _ | .priceLit | .priceLitm | .stReset
  | .stLit | .stMatch | .stRep | .stShortRep | .stIsChar | .stRead | .ctxLit | .ctxPosState | .ctxStPos => none

/-- The commands that write RES without decoding. -/
def returnsAtOnce : Instr → Bool
  | .probRead | .priceBit | .priceBt _ | .priceBtr _ | .priceLit | .priceLitm | .stIsChar | .stRead | .ctxLit
  | .ctxPosState | .ctxStPos => true
  | _ => false

/-- The commands that write STATE. -/
def movesState : Instr → Bool
  | .stReset | .stLit | .stMatch | .stRep | .stShortRep => true
  | _ => false

/-- The walk of an encoding command through cells. -/
def encodePathOf (i : Instr) (s : State) : Option (List (Nat × Bool)) :=
  match i with
  | .encBit => some [(s.a, s.bitOperand)]
  | .encBt n => some (treePath s.a s.v n 1)
  | .encBtr n => some (reversePath s.a n s.v 1)
  | .encLit => some (literalPath s.a s.lowByte)
  | .encLitm => some (matchedPath s.a s.lowByte s.matchByte.toNat)
  | _ => none

/-- How many bits a decoding command decodes, and where its walk starts. -/
def decodeWalkOf (i : Instr) (s : State) : Option (Nat × Walk) :=
  match i with
  | .decBit => some (1, .bit s.a 0)
  | .decDirect n => some (n, .direct 0)
  | .decBt n => some (n, .tree s.a n 1)
  | .decBtr n => some (n, .rev s.a 0 1 0)
  | .decLit => some (8, .tree s.a 8 1)
  | .decLitm => some (8, .litm s.a 1 s.matchByte true)
  | _ => none

/-- The ways a command can go. -/
inductive Goes : Instr → State → Out → Prop
  | refusedOperands {i s} (c : FaultCode) (hc : c = .operand ∨ c = .config ∨ c = .probValue) : Goes i s (raise c s)
  | wrongMode {i s} (m : Mode) (hn : modeNeeded i = some m) (hm : s.mode ≠ m) : Goes i s (raise .mode s)
  | nop {s} : Goes .nop s (complete s)
  | setProps {s} (d : Nat) : Goes .setProps s (complete (s.loadProps d))
  | probInit {s} : Goes .probInit s (complete { s with cells := s.cells.init s.a s.v })
  | probWrite {s} (v : Cell) : Goes .probWrite s (complete (s.setCell s.a v))
  | returns {i s} (hi : returnsAtOnce i = true) (v : Word) : Goes i s (completeWith v s)
  | moves {i s} (hi : movesState i = true) (v : BitVec 4) : Goes i s (complete (s.setState v))
  | encInit {s} (hm : s.mode = .idle) : Goes .encInit s (complete
      { s with encRange := 0xFFFFFFFF, encLow := 0, encCache := 0, encCsize := 1, outcnt := 0, mode := .enc })
  | encFlush {s} (hm : s.mode = .enc) :
      Goes .encFlush s (complete (s.shiftLow.shiftLow.shiftLow.shiftLow.shiftLow.setMode .idle))
  | encodes {i s path} (hm : s.mode = .enc) (hp : encodePathOf i s = some path) : Goes i s (encodeAlong path s)
  | encodesDirect {n s} (hm : s.mode = .enc) : Goes (.encDirect n) s (finishEncode (State.encodeDirect s.v n s))
  | loads {s} (hm : s.mode = .idle) :
      Goes .decInit s (loadCode 5 { s with decRange := 0xFFFFFFFF, decCode := 0, incnt := 0 })
  | decodes {i s n w} (hm : s.mode = .dec) (hw : decodeWalkOf i s = some (n, w)) : Goes i s (runWalk n w s)
  | decEnd {s} (hm : s.mode = .dec) : Goes .decEnd s (complete (s.setMode .idle))

/-- A command that needs a MODE and checks its operands. -/
theorem Goes.guarded {i : Instr} {s : State} {m : Mode} {P : Prop} [Decidable P] {k : Out} (hn : modeNeeded i = some m)
    (hk : s.mode = m → Goes i s k) :
    Goes i s (if s.mode ≠ m then raise .mode s else if ¬ P then raise .operand s else k) := by
  by_cases h1 : s.mode = m
  · by_cases h2 : P
    · rw [if_neg (not_not_intro h1), if_neg (not_not_intro h2)]; exact hk h1
    · rw [if_neg (not_not_intro h1), if_pos h2]; exact .refusedOperands _ (.inl rfl)
  · rw [if_pos h1]; exact .wrongMode m hn h1

/-- A command that checks its operands. -/
theorem Goes.checked {i : Instr} {s : State} {P : Prop} [Decidable P] {k : Out} (hk : Goes i s k) :
    Goes i s (if ¬ P then raise .operand s else k) := by
  by_cases h : P
  · rw [if_neg (not_not_intro h)]; exact hk
  · rw [if_pos h]; exact .refusedOperands _ (.inl rfl)

/-- Every command goes one of these ways. -/
theorem exec_goes (i : Instr) (s : State) : Goes i s (exec i s) := by
  cases i with
  | nop => exact .nop
  | setProps =>
    show Goes _ s (execSetProps s)
    unfold execSetProps
    split
    · exact .wrongMode .idle rfl (by assumption)
    · split
      · exact .refusedOperands _ (.inl rfl)
      · split
        · exact .refusedOperands _ (.inr (.inl rfl))
        · exact .setProps _
  | probInit =>
    show Goes _ s (execProbInit s)
    unfold execProbInit
    split
    · exact .probInit
    · exact .refusedOperands _ (.inl rfl)
  | probWrite =>
    show Goes _ s (execProbWrite s)
    unfold execProbWrite
    split
    · exact .refusedOperands _ (.inl rfl)
    · split
      · exact .refusedOperands _ (.inr (.inr rfl))
      · exact .probWrite _
  | probRead =>
    show Goes _ s (execProbRead s)
    unfold execProbRead
    split
    · exact .returns rfl _
    · exact .refusedOperands _ (.inl rfl)
  | encInit =>
    show Goes _ s (execEncInit s)
    unfold execEncInit
    split
    · exact .wrongMode .idle rfl (by assumption)
    · exact .encInit (not_not.mp (by assumption))
  | encBit => exact .guarded rfl fun hm => .encodes hm rfl
  | encDirect n => exact .guarded rfl fun hm => .encodesDirect hm
  | encFlush =>
    show Goes _ s (execEncFlush s)
    unfold execEncFlush
    split
    · exact .wrongMode .enc rfl (by assumption)
    · exact .encFlush (not_not.mp (by assumption))
  | encBt n => exact .guarded rfl fun hm => .encodes hm rfl
  | encBtr n => exact .guarded rfl fun hm => .encodes hm rfl
  | encLit => exact .guarded rfl fun hm => .encodes hm rfl
  | encLitm => exact .guarded rfl fun hm => .encodes hm rfl
  | decInit =>
    show Goes _ s (execDecInit s)
    unfold execDecInit
    split
    · exact .wrongMode .idle rfl (by assumption)
    · exact .loads (not_not.mp (by assumption))
  | decBit => exact .guarded rfl fun hm => .decodes hm rfl
  | decDirect n => exact .guarded rfl fun hm => .decodes hm rfl
  | decEnd =>
    show Goes _ s (execDecEnd s)
    unfold execDecEnd
    split
    · exact .wrongMode .dec rfl (by assumption)
    · exact .decEnd (not_not.mp (by assumption))
  | decBt n => exact .guarded rfl fun hm => .decodes hm rfl
  | decBtr n => exact .guarded rfl fun hm => .decodes hm rfl
  | decLit => exact .guarded rfl fun hm => .decodes hm rfl
  | decLitm => exact .guarded rfl fun hm => .decodes hm rfl
  | priceBit =>
    show Goes _ s (execPriceBit s)
    unfold execPriceBit
    split
    · exact .returns rfl _
    · exact .refusedOperands _ (.inl rfl)
  | priceBt n => exact .checked (.returns rfl _)
  | priceBtr n => exact .checked (.returns rfl _)
  | priceLit => exact .checked (.returns rfl _)
  | priceLitm => exact .checked (.returns rfl _)
  | stReset => exact .moves rfl _
  | stLit => exact .moves rfl _
  | stMatch => exact .moves rfl _
  | stRep => exact .moves rfl _
  | stShortRep => exact .moves rfl _
  | stIsChar => exact .returns rfl _
  | stRead => exact .returns rfl _
  | ctxLit => exact .returns rfl _
  | ctxPosState => exact .returns rfl _
  | ctxStPos => exact .returns rfl _

/-! ### What a walk leaves unchanged -/

/-- How a decoding walk ends, with its frame: it completes with its result, or it ran out of input. -/
theorem runWalk_frame {n : Nat} {w : Walk} {s t : State} (h : runWalk n w s = .next t) :
    (∃ v u, decTouch s u ∧ t = (u.setRes v).idle) ∨
      ∃ k w' u, decTouch s u ∧ u.inQueue = [] ∧ u.decRange.toNat < 2 ^ 24 ∧ starve (.walk k w') u = .next t := by
  have hP : Walk.Kept fun _ _ u => decTouch s u :=
    fun _ w u hu _ => hu.trans ((walkSplit_touch w u).1.trans (renormD_touch _))
  rcases runWalk_cases hP (decTouch.refl s) h with ⟨w', u, hu, rfl⟩ | ⟨k, w', u, hu, hr, hs⟩
  · exact .inl ⟨_, u, hu, rfl⟩
  · obtain ⟨h1, h2⟩ := renormOver_starved rfl hr
    exact .inr ⟨k, _, _, hu.trans ((walkSplit_touch w' u).1.trans (renormD_touch _)), h1, h2, hs⟩

/-- How the load of DEC_INIT ends: it completes, or it ran out of input. -/
theorem loadCode_frame {left : Nat} {s t : State} (h : loadCode left s = .next t) :
    ∃ u, decTouch s u ∧ u.cells = s.cells ∧
      (t = (u.setMode .dec).idle ∨ ∃ k, u.inQueue = [] ∧ starve (.load k) u = .next t) := by
  induction left generalizing s with
  | zero => exact ⟨s, decTouch.refl s, rfl, .inl (complete_eq_next.mp h)⟩
  | succ left ih =>
    unfold loadCode at h
    split at h
    · obtain ⟨u, hu, hc, h'⟩ := ih h
      exact ⟨u, decTouch.trans (by rfl) hu, hc, h'⟩
    · rename_i hq
      exact ⟨s, decTouch.refl s, rfl, .inr ⟨_, hq, h⟩⟩

/-- How an encoding walk ends. -/
theorem encodeAlong_frame {path : List (Nat × Bool)} {s t : State} (h : encodeAlong path s = .next t) :
    ∃ u, State.encodePath path s = some u ∧ encTouch s u ∧ t = u.idle := by
  obtain ⟨u, hu, rfl⟩ := finishEncode_eq_next.mp h
  exact ⟨u, hu, encodePath_touch hu, rfl⟩

/-! ### No command is refused -/

theorem raise_ne_refused {c : FaultCode} {s : State} {r : Refusal} : raise c s ≠ .refused r := by
  unfold raise complete; simp

theorem exec_ne_refused (i : Instr) (s : State) (r : Refusal) : exec i s ≠ .refused r := by
  have h := exec_goes i s
  generalize exec i s = o at h
  cases h with
  | encodes => exact finishEncode_ne_refused
  | encodesDirect => exact finishEncode_ne_refused
  | loads =>
    obtain ⟨t, ht⟩ := loadCode_next 5 { s with decRange := 0xFFFFFFFF, decCode := 0, incnt := 0 }
    rw [ht]; simp
  | decodes =>
    rename_i n w _ _
    obtain ⟨t, ht⟩ := runWalk_next n w s
    rw [ht]; simp
  | _ => simp [raise, complete, completeWith]

/-! ### DEC_RANGE under a command -/

/-- A command that is no decoding command leaves DEC_RANGE, and a decoding command leaves it at 2^24 or above, or holds, or ran
out of input (spec/10_state.md R41). -/
theorem exec_decoderOk {i : Instr} {s t : State} (hr : 2 ^ 24 ≤ s.decRange.toNat) (h : exec i s = .next t) :
    t.decoderOk ∨ ranDry s t := by
  have g := exec_goes i s
  generalize exec i s = o at g h
  have kept : ∀ u : State, u.decRange = s.decRange → t.decRange = u.decRange → t.decoderOk ∨ ranDry s t :=
    fun u h1 h2 => .inl (.inl (by rw [h2, h1]; exact hr))
  cases g with
  | refusedOperands | wrongMode => rw [raise_eq_next] at h; subst h; exact kept s rfl (by simp)
  | encodes =>
    obtain ⟨u, -, hu, rfl⟩ := encodeAlong_frame h
    exact kept u (by rw [hu]) rfl
  | encodesDirect =>
    obtain ⟨u, hu, rfl⟩ := finishEncode_eq_next.mp h
    exact kept u (by rw [(encodeDirect_touch hu).1]) rfl
  | encFlush => cases h; exact kept s rfl (by simp)
  | loads => exact loadCode_decoderOk (s := { s with decRange := 0xFFFFFFFF, decCode := 0, incnt := 0 }) (by simp) h
  | decodes => exact runWalk_decoderOk hr h
  | _ => cases h; exact kept s rfl rfl

end Sys2Proof.Machine
end

