-- ==== Sys2Proof/Laws/PerInstr.lean ====
section
/-! SUPPORT. One lemma per command (LAWS.json, family Fields): its OP and N fit their fields of the command word, and the opcode
map reads the command back from them (spec/30_encoding.md R80, R83, R86). -/

namespace Sys2Proof.Laws.Fields

/-- OP fits 6 bits, N fits 6 bits where the command is well formed, and OP and N select the command. -/
def Statement (i : Instr) : Prop :=
  i.opcode < 64 ∧ (i.wf = true → i.bitCount.getD 0 < 64) ∧ decodeOp i.opcode (i.bitCount.getD 0) = .ok i

theorem nop : Statement .nop := ⟨by decide, fun _ => by decide, rfl⟩

theorem setProps : Statement .setProps := ⟨by decide, fun _ => by decide, rfl⟩

theorem probInit : Statement .probInit := ⟨by decide, fun _ => by decide, rfl⟩

theorem probWrite : Statement .probWrite := ⟨by decide, fun _ => by decide, rfl⟩

theorem probRead : Statement .probRead := ⟨by decide, fun _ => by decide, rfl⟩

theorem encInit : Statement .encInit := ⟨by decide, fun _ => by decide, rfl⟩

theorem encBit : Statement .encBit := ⟨by decide, fun _ => by decide, rfl⟩

theorem encDirect (n : Nat) : Statement (.encDirect n) := ⟨Nat.lt_of_sub_pos (Nat.succ_pos _), fun h => of_decide_eq_true h, rfl⟩

theorem encFlush : Statement .encFlush := ⟨by decide, fun _ => by decide, rfl⟩

theorem encBt (n : Nat) : Statement (.encBt n) := ⟨Nat.lt_of_sub_pos (Nat.succ_pos _), fun h => of_decide_eq_true h, rfl⟩

theorem encBtr (n : Nat) : Statement (.encBtr n) := ⟨Nat.lt_of_sub_pos (Nat.succ_pos _), fun h => of_decide_eq_true h, rfl⟩

theorem encLit : Statement .encLit := ⟨by decide, fun _ => by decide, rfl⟩

theorem encLitm : Statement .encLitm := ⟨by decide, fun _ => by decide, rfl⟩

theorem decInit : Statement .decInit := ⟨by decide, fun _ => by decide, rfl⟩

theorem decBit : Statement .decBit := ⟨by decide, fun _ => by decide, rfl⟩

theorem decDirect (n : Nat) : Statement (.decDirect n) := ⟨Nat.lt_of_sub_pos (Nat.succ_pos _), fun h => of_decide_eq_true h, rfl⟩

theorem decEnd : Statement .decEnd := ⟨by decide, fun _ => by decide, rfl⟩

theorem decBt (n : Nat) : Statement (.decBt n) := ⟨Nat.lt_of_sub_pos (Nat.succ_pos _), fun h => of_decide_eq_true h, rfl⟩

theorem decBtr (n : Nat) : Statement (.decBtr n) := ⟨Nat.lt_of_sub_pos (Nat.succ_pos _), fun h => of_decide_eq_true h, rfl⟩

theorem decLit : Statement .decLit := ⟨by decide, fun _ => by decide, rfl⟩

theorem decLitm : Statement .decLitm := ⟨by decide, fun _ => by decide, rfl⟩

theorem priceBit : Statement .priceBit := ⟨by decide, fun _ => by decide, rfl⟩

theorem priceBt (n : Nat) : Statement (.priceBt n) := ⟨Nat.lt_of_sub_pos (Nat.succ_pos _), fun h => of_decide_eq_true h, rfl⟩

theorem priceBtr (n : Nat) : Statement (.priceBtr n) := ⟨Nat.lt_of_sub_pos (Nat.succ_pos _), fun h => of_decide_eq_true h, rfl⟩

theorem priceLit : Statement .priceLit := ⟨by decide, fun _ => by decide, rfl⟩

theorem priceLitm : Statement .priceLitm := ⟨by decide, fun _ => by decide, rfl⟩

theorem stReset : Statement .stReset := ⟨by decide, fun _ => by decide, rfl⟩

theorem stLit : Statement .stLit := ⟨by decide, fun _ => by decide, rfl⟩

theorem stMatch : Statement .stMatch := ⟨by decide, fun _ => by decide, rfl⟩

theorem stRep : Statement .stRep := ⟨by decide, fun _ => by decide, rfl⟩

theorem stShortRep : Statement .stShortRep := ⟨by decide, fun _ => by decide, rfl⟩

theorem stIsChar : Statement .stIsChar := ⟨by decide, fun _ => by decide, rfl⟩

theorem stRead : Statement .stRead := ⟨by decide, fun _ => by decide, rfl⟩

theorem ctxLit : Statement .ctxLit := ⟨by decide, fun _ => by decide, rfl⟩

theorem ctxPosState : Statement .ctxPosState := ⟨by decide, fun _ => by decide, rfl⟩

theorem ctxStPos : Statement .ctxStPos := ⟨by decide, fun _ => by decide, rfl⟩

end Sys2Proof.Laws.Fields
end

