-- ==== Sys2Proof/Laws/Step.lean ====
section
/-! SUPPORT. What a step is when it is the host's turn, and what a host action at an offset of the register window does, said
once (spec/10_state.md R35, spec/20_memory.md R65, spec/60_exceptions.md R247). -/

namespace Sys2Proof.Machine

/-- A step in which nothing that holds can go on is the host's turn. -/
theorem step_hostTurn {s : State} (h : s.hostMoves) : step s = hostTurn s := by
  unfold step advance
  rcases h with h | h
  · rw [h]
  · cases s.task with
    | none => rfl
    | some k => simp [h]

/-- The host's turn takes the first pending action. -/
theorem step_act {s : State} (h : s.hostMoves) {act : HostAct} {rest : List HostAct} (hh : s.host = act :: rest) :
    step s = hostAction act { s with host := rest } := by
  rw [step_hostTurn h, hostTurn, hh]

/-- A held command that can go on goes on. -/
theorem step_resume {s : State} {k : Task} (hk : s.task = some k) (h : s.canGoOn = true) : step s = resume k s := by
  unfold step advance
  rw [hk]; exact if_pos h

/-- A 32-bit access at a multiple of 4 inside the window reaches its offset. -/
theorem windowOffset_ok {c : Config} {off : Nat} (h : off < 0x100) (h4 : off % 4 = 0) :
    windowOffset c (c.rccBase + off) 4 = .ok off := by
  unfold windowOffset
  rw [if_neg (by omega), Nat.add_sub_cancel_left, if_pos ⟨rfl, h4⟩]

/-- A host write of any register but CMD_W. -/
theorem step_write {s : State} (h : s.hostMoves) {rest : List HostAct} {off : Nat} {w : Word} (ho : off < 0x100)
    (h4 : off % 4 = 0) (h0 : off ≠ 0) (hh : s.host = .write (s.cfg.rccBase + off) 4 w :: rest) :
    step s = .next (State.writeRegister { s with host := rest } off w) := by
  rw [step_act h hh]
  simp only [hostAction, windowOffset_ok ho h4, if_neg h0]

/-- A host write of CMD_W. -/
theorem step_command {s : State} (h : s.hostMoves) {rest : List HostAct} {w : Word}
    (hh : s.host = .write s.cfg.rccBase 4 w :: rest) : step s = writeCommand w { s with host := rest } := by
  rw [step_act h hh]
  have := windowOffset_ok (c := s.cfg) (off := 0) (by omega) rfl
  simp only [hostAction, Nat.add_zero] at this ⊢
  rw [this]; rfl

/-- A host read. -/
theorem step_read {s : State} (h : s.hostMoves) {rest : List HostAct} {off : Nat} (ho : off < 0x100) (h4 : off % 4 = 0)
    (hh : s.host = .read (s.cfg.rccBase + off) 4 :: rest) : step s = .next (State.readBus { s with host := rest } off) := by
  rw [step_act h hh]
  simp only [hostAction, windowOffset_ok ho h4]

end Sys2Proof.Machine
end

