-- ==== Sys2Proof/Machine/Asm.lean ====
section
/-! DEFINITION. Assembly lines and pseudo-instructions as lists of host actions (spec/30_encoding.md R89, R90). -/

namespace Sys2Proof.Machine

/-- "The line assembles to three host bus writes in order: CMD_A <- A, CMD_V <- V, CMD_W <- OP | (N << 8); and the host
then waits until STATUS.BUSY = 0" (R89). -/
def asmLine (c : Config) (i : Instr) (a v : Nat) : List HostAct :=
  [.write (c.rccBase + 0x04) 4 (BitVec.ofNat 32 a), .write (c.rccBase + 0x08) 4 (BitVec.ofNat 32 v),
    .write c.rccBase 4 (encode i), .wait]

/-- `v=<pos>:<prev>` of CTX_LIT: (pos[23:0] << 8) | prev (R89). -/
def positionOperand (pos prev : Nat) : Nat := ((pos % 2 ^ 24) <<< 8) ||| prev

/-- `v=<symbol>/<match>` of ENC_LITM, DEC_LITM and PRICE_LITM: (match << 8) | symbol (R89). -/
def matchedOperand (sym mb : Nat) : Nat := (mb <<< 8) ||| sym

/-- PROB_INIT_ALL (R90). -/
def asmProbInitAll (c : Config) : List HostAct := asmLine c .probInit 0 c.nprob

/-- ENC_BYTE v=<b> (R90). -/
def asmEncByte (c : Config) (b : Nat) : List HostAct := asmLine c (.encDirect 8) 0 b

/-- DEC_BYTE (R90). -/
def asmDecByte (c : Config) : List HostAct := asmLine c (.decDirect 8) 0 0

/-- WAIT (R90). -/
def asmWait : List HostAct := [.wait]

/-- A write of CTRL. -/
def asmCtrl (c : Config) (v : Word) : List HostAct := [.write (c.rccBase + 0x14) 4 v]

/-- CLEAR (R90): CTRL <- 0x2, CLEAR_FAULT. -/
def asmClear (c : Config) : List HostAct := asmCtrl c 0x2

/-- EOI (R90): CTRL <- 0x4, SET_EOI. -/
def asmEoi (c : Config) : List HostAct := asmCtrl c 0x4

/-- RESET (R90): CTRL <- 0x1, SOFT_RESET. -/
def asmReset (c : Config) : List HostAct := asmCtrl c 0x1

/-- OFFER (R90). -/
def asmOffer (bs : List Byte) : List HostAct := [.offer bs]

end Sys2Proof.Machine
end

