-- ==== Sys2Proof/Tests/Slice0.lean ====
section
/-! SUPPORT. The author's own tests: ill-formed terms refused, one word of every command decoded, the worked examples of the spec one
step at a time, the host interface, and for each obligation with hypotheses a state that meets them. -/

namespace Sys2Proof.Tests

open Sys2Proof Sys2Proof.Machine

/-! ### Helpers -/

/-- 0x300 cells: the cells of one literal context, so that the highest legal bases are small numbers. -/
def small : Config := { nprob := 0x300, priceShift := 4, rccBase := 0 }

/-- A command runs in `mode` with operands `a` and `v`, its word `w` latched. -/
def running (mode : Mode) (a : BitVec 24) (v : Word) (w : Word := 0) : State :=
  { State.resetWith small with mode := mode, latched := some ⟨w, a, v⟩, busy := true }

/-- The same with bytes on the byte-in port. -/
def fed (mode : Mode) (a : BitVec 24) (v : Word) (bytes : List Byte) : State := { running mode a v with inQueue := bytes }

/-- A decoder that has loaded `code` and has `bytes` to come. -/
def opened (a : BitVec 24) (v : Word) (code : Word) (bytes : List Byte) : State :=
  { fed .dec a v bytes with decCode := code, incnt := 5 }

/-- The host's next action is `act`. -/
def host (act : HostAct) : State := { State.resetWith small with host := [act] }

/-- What a step or meaning leaves in some fields. -/
def left {α : Type} (o : Out) (f : State → α) : Option α :=
  match o with
  | .next s => some (f s)
  | .fault _ => none
  | .refused _ => none

/-- The refusal a step ends in. -/
def refusal (o : Out) : Option Refusal :=
  match o with
  | .refused r => some r
  | .next _ => none
  | .fault _ => none

/-! ### Ill-formed terms (R80: N has six bits) -/

theorem test_wf_encDirect_64 : (Instr.encDirect 64).wf = false := by decide
theorem test_wf_encBt_64 : (Instr.encBt 64).wf = false := by decide
theorem test_wf_encBtr_64 : (Instr.encBtr 64).wf = false := by decide
theorem test_wf_decDirect_64 : (Instr.decDirect 64).wf = false := by decide
theorem test_wf_decBt_64 : (Instr.decBt 64).wf = false := by decide
theorem test_wf_decBtr_64 : (Instr.decBtr 64).wf = false := by decide
theorem test_wf_priceBt_64 : (Instr.priceBt 64).wf = false := by decide
theorem test_wf_priceBtr_64 : (Instr.priceBtr 64).wf = false := by decide

theorem test_wf_63 : (Instr.encBt 63).wf = true ∧ Instr.nop.wf = true := by decide

/-! ### Decoding: W[5:0] = OP and W[13:8] = N, from the tables of R80 and R86 -/

theorem test_decode_nop : decode 0b000000_00_000000 = .ok .nop := by decide
theorem test_decode_setProps : decode 0b000000_00_000001 = .ok .setProps := by decide
theorem test_decode_probInit : decode 0b000000_00_000010 = .ok .probInit := by decide
theorem test_decode_probWrite : decode 0b000000_00_000011 = .ok .probWrite := by decide
theorem test_decode_probRead : decode 0b000000_00_000100 = .ok .probRead := by decide
theorem test_decode_encInit : decode 0b000000_00_001000 = .ok .encInit := by decide
theorem test_decode_encBit : decode 0b000000_00_001001 = .ok .encBit := by decide
theorem test_decode_encDirect : decode 0b100000_00_001010 = .ok (.encDirect 32) := by decide
theorem test_decode_encFlush : decode 0b000000_00_001011 = .ok .encFlush := by decide
theorem test_decode_encBt : decode 0b010000_00_001100 = .ok (.encBt 16) := by decide
theorem test_decode_encBtr : decode 0b000011_00_001101 = .ok (.encBtr 3) := by decide
theorem test_decode_encLit : decode 0b000000_00_001110 = .ok .encLit := by decide
theorem test_decode_encLitm : decode 0b000000_00_001111 = .ok .encLitm := by decide
theorem test_decode_decInit : decode 0b000000_00_010000 = .ok .decInit := by decide
theorem test_decode_decBit : decode 0b000000_00_010001 = .ok .decBit := by decide
theorem test_decode_decDirect : decode 0b011000_00_010010 = .ok (.decDirect 24) := by decide
theorem test_decode_decEnd : decode 0b000000_00_010011 = .ok .decEnd := by decide
theorem test_decode_decBt : decode 0b000001_00_010100 = .ok (.decBt 1) := by decide
theorem test_decode_decBtr : decode 0b001001_00_010101 = .ok (.decBtr 9) := by decide
theorem test_decode_decLit : decode 0b000000_00_010110 = .ok .decLit := by decide
theorem test_decode_decLitm : decode 0b000000_00_010111 = .ok .decLitm := by decide
theorem test_decode_priceBit : decode 0b000000_00_011000 = .ok .priceBit := by decide
theorem test_decode_priceBt : decode 0b000110_00_011100 = .ok (.priceBt 6) := by decide
theorem test_decode_priceBtr : decode 0b111111_00_011101 = .ok (.priceBtr 63) := by decide
theorem test_decode_priceLit : decode 0b000000_00_011110 = .ok .priceLit := by decide
theorem test_decode_priceLitm : decode 0b000000_00_011111 = .ok .priceLitm := by decide
theorem test_decode_stReset : decode 0b000000_00_100000 = .ok .stReset := by decide
theorem test_decode_stLit : decode 0b000000_00_100001 = .ok .stLit := by decide
theorem test_decode_stMatch : decode 0b000000_00_100010 = .ok .stMatch := by decide
theorem test_decode_stRep : decode 0b000000_00_100011 = .ok .stRep := by decide
theorem test_decode_stShortRep : decode 0b000000_00_100100 = .ok .stShortRep := by decide
theorem test_decode_stIsChar : decode 0b000000_00_100101 = .ok .stIsChar := by decide
theorem test_decode_stRead : decode 0b000000_00_100110 = .ok .stRead := by decide
theorem test_decode_ctxLit : decode 0b000000_00_101000 = .ok .ctxLit := by decide
theorem test_decode_ctxPosState : decode 0b000000_00_101001 = .ok .ctxPosState := by decide
theorem test_decode_ctxStPos : decode 0b000000_00_101010 = .ok .ctxStPos := by decide

theorem test_decode_reserved_op : decode 0x05 = .illegal .reservedOp ∧ decode 0x27 = .illegal .reservedOp ∧
    decode 0x3F = .illegal .reservedOp := by decide
theorem test_decode_reserved_bits : decode 0x80 = .illegal .reservedBits ∧ decode 0x4000 = .illegal .reservedBits ∧
    decode 0x80000000 = .illegal .reservedBits := by decide
theorem test_decode_unused_count : decode 0x0109 = .illegal .unusedCount ∧ decode 0x2000 = .illegal .unusedCount := by decide
theorem test_encode : encode (.encBt 17) = 0x0000110C ∧ encode .ctxStPos = 0x2A := by decide

/-- A word placed for the next step is the word that step runs (log 1). -/
theorem test_withFetchWord : left (step (State.reset.withFetchWord 32 0x25)) (·.res) = some 1 ∧
    left (step (State.reset.withFetchWord 32 0x110C)) (fun t => (t.fault, t.faultInfo)) = some (.mode, 0x110C) ∧
    decodeTableWord 16 0x110C = some (.encBt 17) := by decide

/-! ### One command at a time: the examples of the command rules -/

theorem test_nop :
    left (exec .nop (running .idle 0 0)) (fun t => (t.status, t.res)) = some (0x00100000, 0) := by decide
theorem test_setProps :
    left (exec .setProps (running .idle 0 0x5E)) (fun t => (t.lc, t.lp, t.pb, t.props)) = some (4, 0, 2, 0x00000204) := by decide
theorem test_setProps_config :
    left (exec .setProps (running .idle 0 0xE1)) (fun t => (t.fault, t.props)) = some (.config, 0x203) ∧
    left (exec .setProps (running .idle 0 0x1FF)) (·.fault) = some .operand := by decide
theorem test_probInit :
    left (exec .probInit { running .idle 0x10 3 with cells := [(0x0F, 7), (0x10, 7), (0x12, 7), (0x13, 7)] }) (·.cells) =
      some [(0x0F, 7), (0x13, 7)] := by decide
theorem test_probInit_operand :
    left (exec .probInit (running .idle 0 0)) (·.fault) = some .operand ∧
    left (exec .probInit (running .idle 0xFFFFFF 0xFFFFFFFF)) (·.fault) = some .operand := by decide
theorem test_probWrite :
    left (exec .probWrite (running .enc 5 2000)) (fun t => (t.cell 5, t.cell 4)) = some (2000, 1024) := by decide
theorem test_probWrite_value :
    left (exec .probWrite (running .enc 5 2048)) (·.fault) = some .probValue ∧
    left (exec .probWrite (running .enc 0x300 0)) (·.fault) = some .operand := by decide
theorem test_probRead :
    left (exec .probRead (running .dec 0 9)) (·.res) = some 1024 := by decide
theorem test_priceBit :
    left (exec .priceBit (running .dec 0 1)) (·.res) = some 16 := by decide
theorem test_priceBit_2017 :
    left (exec .priceBit { running .dec 9 1 with cells := [(9, 2017)] }) (·.res) = some 100 := by decide
theorem test_encInit :
    left (exec .encInit { running .idle 0 0 with encLow := 5, encCsize := 9 })
      (fun t => (t.encRange, t.encLow, t.encCsize, t.mode)) = some (0xFFFFFFFF, 0, 1, .enc) := by decide
theorem test_encBit_0 :
    left (exec .encBit (running .enc 0 0)) (fun t => (t.encRange, t.encLow, t.cell 0)) = some (0x7FFFFC00, 0, 1056) := by decide
theorem test_encBit_1 :
    left (exec .encBit (running .enc 0 1)) (fun t => (t.encRange, t.encLow, t.cell 0)) = some (0x800003FF, 0x7FFFFC00, 992) := by decide
theorem test_encDirect_carry :
    left (exec (.encDirect 24) (running .enc 0 0xA60052))
      (fun t => (t.outBytes, t.encLow, t.encRange, t.encCache, t.encCsize)) =
      some ([0x00, 0xA6, 0x00], 0xFBFFAE00, 0xFFFFFF00, 0x51, 1) := by decide
theorem test_encDirect_1 :
    left (exec (.encDirect 1) (running .enc 0 1)) (fun t => (t.encLow, t.encRange)) = some (0x7FFFFFFF, 0x7FFFFFFF) := by decide
theorem test_encFlush :
    left (exec .encFlush { running .enc 0 0 with encLow := 0x7FFFFC00, encRange := 0x800003FF })
      (fun t => (t.outBytes, t.outcnt, t.mode)) = some ([0x00, 0x7F, 0xFF, 0xFC, 0x00], 5, .idle) := by decide
theorem test_encBt :
    left (exec (.encBt 3) (running .enc 0 5)) (·.cells) = some [(1, 992), (3, 1056), (6, 992)] := by decide
theorem test_encBt_operand :
    left (exec (.encBt 17) (running .enc 0 0 0x110C)) (fun t => (t.fault, t.faultInfo)) = some (.operand, 0x110C) := by decide
theorem test_encBtr :
    left (exec (.encBtr 3) (running .enc 0 6)) (·.cells) = some [(1, 1056), (2, 992), (5, 992)] := by decide
theorem test_encLit :
    left (exec .encLit (running .enc 0 0x41)) (·.cells) =
      some [(1, 1056), (2, 992), (5, 1056), (0xA, 1056), (0x14, 1056), (0x28, 1056), (0x50, 1056), (0xA0, 992)] := by decide
theorem test_encLitm :
    left (exec .encLitm (running .enc 0 0x4341)) (fun t => t.cells.map Prod.fst) =
      some [0xA0, 0x101, 0x105, 0x10A, 0x114, 0x128, 0x202, 0x250] := by decide
theorem test_decInit :
    left (exec .decInit (fed .idle 0 0 [0x00, 0x7F, 0xFF, 0xFC, 0x00]))
      (fun t => (t.decCode, t.decRange, t.incnt, t.mode)) = some (0x7FFFFC00, 0xFFFFFFFF, 5, .dec) := by decide
theorem test_decInit_truncated :
    left (exec .decInit { fed .idle 0 0 [0x00, 0x7F, 0xFF] with eoi := true })
      (fun t => (t.fault, t.decCode, t.incnt, t.mode)) = some (.truncated, 0x00007FFF, 3, .idle) := by decide
theorem test_decBit :
    left (exec .decBit (opened 0 0 0x7FFFFC00 [])) (fun t => (t.res, t.decRange, t.decCode, t.cell 0)) =
      some (1, 0x800003FF, 0, 992) := by decide
/-- The tenth DEC_BIT of the example of 42_range_decoder.md R149; the cell and range before it are by hand from R142. -/
theorem test_decBit_truncated :
    left (exec .decBit { opened 0 0 0 [] with decRange := 0x0150F4D8, cells := [(0, 1276)], eoi := true, res := 3 })
      (fun t => (t.fault, t.decRange, t.decCode, t.cell 0, t.incnt, t.res)) =
        some (.truncated, 0x00D1ED88, 0, 1300, 5, 3) := by decide
theorem test_decDirect :
    left (exec (.decDirect 8) (opened 0 0 0x59FFFFFF [0xFC, 0x00])) (fun t => (t.res, t.decRange)) = some (0x5A, 0xFFFFFF00) := by decide
theorem test_decEnd :
    left (exec .decEnd (opened 0 0 7 [1])) (fun t => (t.mode, t.decCode, t.inQueue)) = some (.idle, 7, [1]) := by decide
theorem test_decBt :
    left (exec (.decBt 3) (opened 0 0 0x9FFFFC00 [])) (fun t => (t.res, t.cells)) =
      some (5, [(1, 992), (3, 1056), (6, 992)]) := by decide
theorem test_decBtr :
    left (exec (.decBtr 3) (opened 0 0 0x5FFFFC00 [])) (fun t => (t.res, t.cells)) =
      some (6, [(1, 1056), (2, 992), (5, 992)]) := by decide
theorem test_decLit :
    left (exec .decLit (opened 0 0 0x40FFFC00 [0, 0])) (·.res) = some 0x41 := by decide
theorem test_decLitm :
    left (exec .decLitm (opened 0 0x4300 0x40FFFC00 [0, 0])) (fun t => (t.res, t.cell 0x250, t.cell 0xA0)) = some (0x41, 1056, 992) := by decide
theorem test_priceBt :
    left (exec (.priceBt 2) { running .idle 0 2 with cells := [(1, 2000), (2, 100)] }) (·.res) = some 104 := by decide
theorem test_priceBt_fresh :
    left (exec (.priceBt 3) (running .idle 0 5)) (·.res) = some 48 := by decide
theorem test_priceBtr :
    left (exec (.priceBtr 2) { running .idle 0 1 with cells := [(1, 2000), (2, 100)] }) (·.res) = some 104 := by decide
theorem test_priceBtr_2 :
    left (exec (.priceBtr 2) { running .idle 0 2 with cells := [(1, 2000), (2, 100)] }) (·.res) = some 1 := by decide
theorem test_priceLit :
    left (exec .priceLit (running .idle 0 0x41)) (·.res) = some 128 := by decide
theorem test_priceLit_after :
    left (exec .priceLit { running .idle 0 0x42 with cells := [(1, 1056), (2, 992), (5, 1056), (0xA, 1056), (0x14, 1056),
      (0x28, 1056), (0x50, 1056), (0xA0, 992)] }) (·.res) = some 123 := by decide
theorem test_priceLitm :
    left (exec .priceLitm (running .idle 0 0x4341)) (·.res) = some 128 := by decide
theorem test_stReset :
    left (exec .stReset { running .dec 0 0 with state := 9 }) (·.state) = some 0 := by decide
theorem test_stLit :
    left (exec .stLit { running .dec 0 0 with state := 7 }) (·.state) = some 4 := by decide
theorem test_stMatch :
    left (exec .stMatch { running .dec 0 0 with state := 7 }) (·.state) = some 10 := by decide
theorem test_stRep :
    left (exec .stRep { running .dec 0 0 with state := 10 }) (·.state) = some 11 := by decide
theorem test_stShortRep :
    left (exec .stShortRep { running .dec 0 0 with state := 4 }) (·.state) = some 9 := by decide
theorem test_stIsChar :
    left (exec .stIsChar { running .dec 0 0 with state := 6 }) (·.res) = some 1 ∧
    left (exec .stIsChar { running .dec 0 0 with state := 7 }) (·.res) = some 0 := by decide
theorem test_stRead :
    left (exec .stRead { running .dec 0 0 with state := 11 }) (·.res) = some 11 := by decide
theorem test_ctxLit :
    left (exec .ctxLit { running .dec 0 (BitVec.ofNat 32 (positionOperand 0x1D 0xB7)) with lp := 2 }) (·.res) = some 0x0D := by decide
theorem test_ctxPosState :
    left (exec .ctxPosState (running .dec 0 0x1D)) (·.res) = some 1 := by decide
theorem test_ctxStPos :
    left (exec .ctxStPos { running .dec 0 0x1D with state := 5 }) (·.res) = some 0x51 := by decide

/-! ### The host interface -/

/-- DEC_INIT holds with one of its five bytes taken; the host's next action is `act`. -/
def held (act : HostAct) : State :=
  { host act with
    busy := true, inWait := true, task := some (.load 4), latched := some ⟨0x10, 0, 0⟩, incnt := 1 }

/-- DEC_BT n=3 holds inside the RenormD of its second bit, and the host's next action is `act`. -/
def heldWalk (act : HostAct) : State :=
  { held act with
    mode := .dec, decRange := 0x00800000, task := some (.walk 1 (.tree 0 3 6)), latched := some ⟨0x314, 0, 0⟩, incnt := 5 }

theorem test_accept_copies_operands :
    left (step { host (.write 0 4 0x18) with cmdA := 3, cmdV := 1 }) (fun t => (t.res, t.cmdIndex, t.busy)) = some (16, 1, false) := by
  decide
theorem test_illegal_word :
    left (step (host (.write 0 4 0x05))) (fun t => (t.fault, t.faultInfo, t.cmdIndex)) = some (.illegal, 0x05, 1) := by decide
theorem test_word_dropped_while_faulted :
    left (step { host (.write 0 4 0x24) with fault := .mode, faultInfo := 9 })
      (fun t => (t.fault, t.faultInfo, t.state, t.cmdIndex)) = some (.mode, 9, 0, 0) := by decide
theorem test_overrun :
    left (step (held (.write 0 4 0x24))) (fun t => (t.fault, t.faultInfo, t.busy, t.cmdIndex)) = some (.overrun, 0x24, true, 0) := by
  decide
theorem test_clear_fault_keeps_mode :
    left (step { host (.write 0x14 4 0x2) with fault := .mode, faultInfo := 9, mode := .dec })
      (fun t => (t.fault, t.faultInfo, t.mode)) = some (.none, 0, .dec) := by decide
theorem test_ctrl_order :
    left (step { host (.write 0x14 4 0xF) with res := 7, fault := .mode }) (fun t => (t.res, t.fault, t.eoi)) = some (0, .none, true) := by
  decide
theorem test_soft_reset_aborts_hold :
    left (step { held (.write 0x14 4 0x1) with outBytes := [1] })
      (fun t => (t.busy, t.inWait, t.task, t.incnt, t.outBytes)) = some (false, false, none, 0, [1]) := by decide
theorem test_status_reads :
    left (step { held (.read 0x10 4) with fault := .overrun, state := 9 }) (·.reads) = some [0x00090707] := by decide
theorem test_props_read : left (step (host (.read 0x18 4))) (·.reads) = some [0x00000203] := by decide
theorem test_cmdA_drops_high_bits :
    left (step (host (.write 0x04 4 0xFF123456))) (·.cmdA) = some 0x123456 := by decide
theorem test_high_half :
    left (step { host (.read 0x28 4) with encLow := 0x1_23456789 }) (·.reads) = some [1] := by decide
theorem test_narrow_access_refused : refusal (step (host (.write 0 2 0))) = some .badAccess := by decide
theorem test_outside_window_refused : refusal (step (host (.read 0x100 4))) = some .outsideWindow := by decide
theorem test_offered_byte_lifts_hold :
    left (step { held .wait with inQueue := [0xAB] }) (fun t => (t.decCode, t.incnt, t.task, t.inWait)) =
      some (0xAB, 2, some (.load 3), true) := by decide
theorem test_eoi_ends_hold :
    left (step { held .wait with eoi := true }) (fun t => (t.fault, t.faultInfo, t.busy, t.mode)) =
      some (.truncated, 0x10, false, .idle) := by decide
theorem test_wait_waits :
    left (step (held .wait)) (·.host) = some [.wait] ∧ left (step (host .wait)) (·.host) = some [] := by decide
theorem test_asm_line :
    asmLine small (.encDirect 8) 0 0x5A = [.write 0x04 4 0, .write 0x08 4 0x5A, .write 0 4 0x080A, .wait] := by decide

/-! ### Each obligation's hypotheses are met

`meets_X` gives states and operands that meet the hypotheses of the obligation X, one for each clause, at the ends of the ranges. -/

/-- A meaning answers a next state where `left` sees one. -/
theorem next_with {α : Type} {o : Out} {f : State → α} {x : α} (h : left o f = some x) : ∃ t, o = .next t ∧ f t = x := by
  cases o with
  | next t => exact ⟨t, rfl, Option.some.inj h⟩
  | fault _ => cases h
  | refused _ => cases h

theorem next_of_left {o : Out} (h : left o (fun _ => ()) = some ()) : ∃ t, o = .next t :=
  (next_with h).imp fun _ h => h.1

/-- A meaning holds where `left` sees a held command. -/
theorem holds_of_left {o : Out} (h : left o (·.task.isSome) = some true) : ∃ t k, o = .next t ∧ t.task = some k := by
  obtain ⟨t, h1, h2⟩ := next_with h
  obtain ⟨k, h3⟩ := Option.isSome_iff_exists.mp h2
  exact ⟨t, k, h1, h3⟩

theorem some_of {α : Type} {x : Option α} (h : x.isSome = true) : ∃ u, x = some u := Option.isSome_iff_exists.mp h

theorem pair_of {α β : Type} {x : Option (α × β)} (h : x.isSome = true) : ∃ v u, x = some (v, u) := by
  obtain ⟨⟨v, u⟩, h⟩ := some_of h
  exact ⟨v, u, h⟩

theorem ready_running (mode : Mode) (a : BitVec 24) (v w : Word) : (running mode a v w).Ready :=
  ⟨by show small.wf; decide, by show (State.resetWith small).memoryOk; decide,
    by show (State.resetWith small).fieldsOk; decide, fun _ => by show (State.resetWith small).intervalOk; decide⟩

theorem inv_host (act : HostAct) : (host act).Inv :=
  ⟨by show small.wf; decide, by show (State.resetWith small).memoryOk; decide,
    by show (State.resetWith small).fieldsOk; decide, fun _ => by show (State.resetWith small).intervalOk; decide,
    by show (State.resetWith small).runOk; decide, fun _ h => by cases h⟩

theorem inv_held (act : HostAct) : (held act).Inv :=
  ⟨(inv_host act).cfg, (inv_host act).memory, (inv_host act).fields, (inv_host act).interval, ⟨rfl, rfl, rfl, rfl⟩,
    fun t h => by cases h; rfl⟩

theorem inv_heldWalk (act : HostAct) : (heldWalk act).Inv :=
  ⟨(inv_host act).cfg, (inv_host act).memory, (inv_host act).fields, (fun h => by cases h), ⟨rfl, rfl, rfl, rfl⟩,
    (fun t h => by cases h; rfl)⟩

theorem meets_DecodeOfEncode : (Instr.priceBtr 63).wf = true := by decide
theorem meets_IllegalWordsExactly : decode 0x00003F0A = .ok (.encDirect 63) ∧ decode 0x2A = .ok .ctxStPos := by decide
theorem meets_StepRunsDecodedCommand :
    let s := host (.write 0 4 0x25)
    s.hostMoves ∧ s.host = .write s.cfg.rccBase 4 0x25 :: [] ∧ s.busy = false ∧ s.fault = .none ∧ decode 0x25 = .ok .stIsChar := by
  decide
theorem meets_IllegalWordFaults :
    let s := host (.write 0 4 0x05)
    s.hostMoves ∧ s.host = .write s.cfg.rccBase 4 0x05 :: [] ∧ s.busy = false ∧ s.fault = .none ∧
      decode 0x05 = .illegal .reservedOp := by decide
theorem meets_CommandWordDroppedWhileFaulted :
    let s (off : Nat) : State := { host (.write off 4 7) with fault := .overrun }
    ∀ off ∈ [0, 0x04, 0x08, 0x14], (s off).hostMoves ∧ (s off).fault ≠ .none ∧
      (s off).host = .write ((s off).cfg.rccBase + off) 4 7 :: [] := by decide
theorem meets_OverrunDiscardsWord :
    ((held (.write 0 4 5)).hostMoves ∧ (held (.write 0 4 5)).host = .write (held (.write 0 4 5)).cfg.rccBase 4 5 :: [] ∧
      (held (.write 0 4 5)).busy = true ∧ (held (.write 0 4 5)).fault = .none) ∧
    ({ held .wait with fault := .overrun } : State).fault = .overrun ∧ (held .wait).Inv ∧ (held .wait).busy = true :=
  ⟨by decide, rfl, inv_held _, rfl⟩
theorem meets_ResetRestoresEverything :
    ((held .hardReset).hostMoves ∧ (held .hardReset).host = .hardReset :: []) ∧
    let s := host (.write 0x14 4 1)
    s.hostMoves ∧ s.host = .write (s.cfg.rccBase + 0x14) 4 1 :: [] := by decide
theorem meets_CtrlActsInOrder :
    (let s := host (.write 0x14 4 0xF); s.hostMoves ∧ s.host = .write (s.cfg.rccBase + 0x14) 4 0xF :: []) ∧
    let s := held (.write 0x14 4 4)
    s.hostMoves ∧ s.host = .write (s.cfg.rccBase + 0x14) 4 4 :: [] := by decide
theorem meets_StatusAndPropsFields :
    (∀ m ∈ [Mode.idle, .enc, .dec], (running m 0 0).mode = m) ∧
    ∀ f ∈ [FaultCode.none, .illegal, .operand, .mode, .config, .truncated, .probValue, .overrun],
      ({ running .idle 0 0 with fault := f } : State).fault = f := by decide
theorem meets_RegisterMapReads :
    ∀ off ∈ [0x04, 0x4C], let s := host (.read off 4)
      s.hostMoves ∧ s.busy = false ∧ s.host = .read (s.cfg.rccBase + off) 4 :: [] := by decide
theorem meets_ReadWhileBusyReturnsSomeValue :
    ∀ off ∈ [0x00, 0x10, 0x4C], let s := held (.read off 4)
      s.hostMoves ∧ s.busy = true ∧ off < 0x50 ∧ off % 4 = 0 ∧ s.host = .read (s.cfg.rccBase + off) 4 :: [] := by decide
theorem meets_WindowWritesAndReservedReads :
    (∀ off ∈ [0x00, 0x14], let s := host (.read off 4)
      s.hostMoves ∧ off % 4 = 0 ∧ off < 0x100 ∧ s.host = .read (s.cfg.rccBase + off) 4 :: [] ∧ s.busy = false ∧
        (off = 0x00 ∨ off = 0x14)) ∧
    (∀ off ∈ [0x50, 0xFC], let s := held (.read off 4)
      s.hostMoves ∧ off % 4 = 0 ∧ off < 0x100 ∧ s.host = .read (s.cfg.rccBase + off) 4 :: [] ∧ s.busy = true ∧ 0x50 ≤ off) ∧
    (∀ off ∈ [0x0C, 0x10, 0x18, 0x4C, 0x50, 0xFC], let s := held (.write off 4 7)
      s.hostMoves ∧ off % 4 = 0 ∧ off < 0x100 ∧ s.host = .write (s.cfg.rccBase + off) 4 7 :: [] ∧
        off ∉ [0x00, 0x04, 0x08, 0x14]) ∧
    ∀ off ∈ [0x04, 0x08], let s := host (.write off 4 7)
      s.hostMoves ∧ off % 4 = 0 ∧ off < 0x100 ∧ s.host = .write (s.cfg.rccBase + off) 4 7 :: [] := by decide
theorem meets_BadAccessRefused :
    (∀ e ∈ [(0, 2), (0, 8), (0x01, 4), (0xFE, 4)], let s := host (.write e.1 e.2 7)
      s.hostMoves ∧ e.1 < 0x100 ∧ (e.2 ≠ 4 ∨ e.1 % 4 ≠ 0) ∧ s.host = .write (s.cfg.rccBase + e.1) e.2 7 :: []) ∧
    let s := host (.read 0xFF 1)
    s.hostMoves ∧ s.host = .read (s.cfg.rccBase + 0xFF) 1 :: [] := by decide
theorem meets_RefusedOnlyForBusAccess :
    step (host (.read 0x100 4)) = .refused .outsideWindow ∧ step (host (.write 0x02 4 0)) = .refused .badAccess := ⟨rfl, rfl⟩
theorem meets_HoldsWaitForTheHost :
    (let s : State := { held .wait with host := [] }; s.hostMoves ∧ s.host = [] ∧ s.inQueue = [] ∧ s.eoi = false) ∧
    (let s := host (.offer [1, 2]); s.hostMoves ∧ s.host = .offer [1, 2] :: []) ∧
    (let s : State := { held .wait with inQueue := [1] }; s.task = some (.load 4) ∧ s.inQueue ≠ []) ∧
    let s : State := { held .wait with eoi := true }
    s.task = some (.load 4) ∧ s.eoi = true := by decide

theorem meets_UpdateAdaptsOneCell :
    ({ running .enc 0 0 with cells := [(0, 1), (0x2FF, 2047)] } : State).memoryOk := by decide
theorem meets_ProbInitSetsRange :
    (∀ av ∈ [(0, 0x300), (0x2FF, 1)], let s := running .idle (BitVec.ofNat 24 av.1) (BitVec.ofNat 32 av.2)
      1 ≤ s.latV.toNat ∧ s.latA.toNat + s.latV.toNat ≤ s.cfg.nprob) ∧
    ∀ av ∈ [(0, 0), (0x300, 1), (0xFFFFFF, 0xFFFFFFFF)], let s := running .idle (BitVec.ofNat 24 av.1) (BitVec.ofNat 32 av.2)
      ¬ (1 ≤ s.latV.toNat ∧ s.latA.toNat + s.latV.toNat ≤ s.cfg.nprob) := by decide
theorem meets_ProbWriteSetsCell :
    (∀ v ∈ ([1, 2047] : List Word), let s := running .idle 0x2FF v
      Memory.wf s.cells ∧ s.latA.toNat < s.cfg.nprob ∧ 1 ≤ s.latV.toNat ∧ s.latV.toNat ≤ 2047) ∧
    (running .idle 0x300 1).cfg.nprob ≤ (running .idle 0x300 1).latA.toNat ∧
    ∀ v ∈ ([0, 2048] : List Word), let s := running .idle 0x2FF v
      s.latA.toNat < s.cfg.nprob ∧ (s.latV.toNat = 0 ∨ 2048 ≤ s.latV.toNat) := by simp [running, State.latV, State.latA, State.resetWith, small, Memory.wf]
theorem meets_ProbReadReturnsCell :
    (running .idle 0x2FF 0).latA.toNat < (running .idle 0x2FF 0).cfg.nprob ∧
    (running .idle 0x300 0).cfg.nprob ≤ (running .idle 0x300 0).latA.toNat := by decide
theorem meets_PriceTableConstruction :
    (∀ e ∈ [(8, 1), (0, 256), (0, 511), (4, 31)], e.1 ≤ 8 ∧ 2 ^ (8 - e.1) ≤ e.2 ∧ e.2 ≤ 2 ^ (9 - e.1) - 1) ∧
    ∀ j ∈ [497, 511], 497 ≤ j ∧ j ≤ 511 := by decide
theorem meets_PriceBitReturnsPrice :
    (∀ v ∈ ([0, 1] : List Word), let s := running .idle 0x2FF v
      s.latA.toNat < s.cfg.nprob ∧ s.latV.toNat ≤ 1) ∧
    (running .idle 0x300 1).cfg.nprob ≤ (running .idle 0x300 1).latA.toNat ∧ 1 < (running .idle 0 2).latV.toNat := by simp [running, State.latV, State.latA, State.resetWith, small]

/-- With the standard parameters, for the widest trees. -/
def wide (mode : Mode) (a : BitVec 24) (v : Word) : State := { running mode a v with cfg := Config.standard }

theorem ready_wide (mode : Mode) (a : BitVec 24) (v : Word) : (wide mode a v).Ready :=
  ⟨by show Config.standard.wf; decide, ⟨⟨.nil, fun _ h => by cases h⟩, fun _ h => by cases h⟩,
    (ready_running mode a v 0).fields, (ready_running mode a v 0).interval⟩

theorem meets_PriceWalksReturnSums :
    (∀ e ∈ [(1, 0x3FFFFE, 1), (16, 0x3F0000, 0xFFFF)], let s := wide .idle (BitVec.ofNat 24 e.2.1) (BitVec.ofNat 32 e.2.2)
      1 ≤ e.1 ∧ e.1 ≤ 16 ∧ s.latA.toNat + 2 ^ e.1 ≤ s.cfg.nprob ∧ s.latV.toNat < 2 ^ e.1) ∧
    (let s := running .idle 0 0xFF; s.latA.toNat + 0x300 ≤ s.cfg.nprob ∧ s.latV.toNat < 2 ^ 8) ∧
    let s := running .idle 0 0xFFFF
    s.latA.toNat + 0x300 ≤ s.cfg.nprob ∧ s.latV.toNat < 2 ^ 16 := by decide

theorem meets_ShiftLowEmitsOrHolds :
    (∀ low ∈ ([0x100000000, 0xFEFFFFFF] : List Dword), let s : State := { running .enc 0 0 with encLow := low }
      s.encLow.extractLsb' 32 8 ≠ 0 ∨ s.encLow.toNat < 0xFF000000) ∧
    ∀ low ∈ ([0xFF000000, 0xFFFFFFFF] : List Dword), let s : State := { running .enc 0 0 with encLow := low }
      s.encLow.extractLsb' 32 8 = 0 ∧ 0xFF000000 ≤ s.encLow.toNat := by simp
theorem meets_RenormELoops :
    let s (range : Word) : State := { running .enc 0 0 with encRange := range }
    2 ^ 24 ≤ (s 0x01000000).encRange.toNat ∧ (∀ r ∈ ([1, 0x00FFFFFF] : List Word),
      0 < (s r).encRange.toNat ∧ (s r).encRange.toNat < 2 ^ 24) ∧ (s 0).encRange.toNat = 0 ∧
      2 ^ 13 ≤ (s 0x2000).encRange.toNat := by simp
theorem meets_RenormELoops_cell :
    let s : State := { running .enc 0 1 with cells := [(0, 1), (1, 2047)], encRange := 0x01000000 }
    s.memoryOk ∧ 2 ^ 24 ≤ s.encRange.toNat := by decide
theorem meets_EncInitOpensStream :
    (running .idle 0 0).mode = .idle ∧ (running .enc 0 0).mode ≠ .idle ∧ (running .dec 0 0).mode ≠ .idle := by decide
theorem meets_EncBitEncodes :
    (∀ v ∈ ([0, 1] : List Word), let s := running .enc 0x2FF v
      s.Ready ∧ s.mode = .enc ∧ s.latA.toNat < s.cfg.nprob ∧ s.latV.toNat ≤ 1) ∧
    (running .idle 0 0).mode ≠ .enc ∧
    (let s := running .enc 0x300 0; s.mode = .enc ∧ s.cfg.nprob ≤ s.latA.toNat) ∧
    let s := running .enc 0 2
    s.mode = .enc ∧ 1 < s.latV.toNat :=
  ⟨fun v hv => ⟨ready_running _ _ _ _, by revert v; simp [running, State.latV, State.latA, State.resetWith, small]⟩, by decide, ⟨rfl, Nat.le_refl _⟩, by decide⟩
theorem meets_EncDirectEncodes :
    (∀ e ∈ ([(1, 1), (31, 0x7FFFFFFF), (32, 0xFFFFFFFF)] : List (Nat × Word)), let s := running .enc 0 e.2
      s.Ready ∧ s.mode = .enc ∧ 1 ≤ e.1 ∧ e.1 ≤ 32 ∧ (e.1 < 32 → s.latV.toNat < 2 ^ e.1)) ∧
    (running .dec 0 0).mode ≠ .enc ∧
    ∀ e ∈ ([(0, 0), (33, 0), (31, 0x80000000)] : List (Nat × Word)), let s := running .enc 0 e.2
      s.mode = .enc ∧ (e.1 < 1 ∨ 32 < e.1 ∨ (e.1 < 32 ∧ 2 ^ e.1 ≤ s.latV.toNat)) :=
  ⟨fun e he => ⟨ready_running _ _ _ _, by revert e; decide⟩, by decide, by decide⟩
theorem meets_EncFlushEmitsEverything :
    (∀ e ∈ ([(0, 1), (0x1FFFFFFFF, 0xFFFFFFFFFFFFFFFB)] : List (Dword × Dword)),
      let s : State := { running .enc 0 0 with encLow := e.1, encCsize := e.2 }
      s.mode = .enc ∧ s.encLow.toNat < 2 ^ 33 ∧ 1 ≤ s.encCsize.toNat ∧ s.encCsize.toNat + 4 < 2 ^ 64) ∧
    (running .dec 0 0).mode ≠ .enc := by simp [running, State.resetWith, small]
theorem meets_EncodeWalksComplete :
    (∀ e ∈ [(1, 0x3FFFFE, 1), (16, 0x3F0000, 0xFFFF)], let s := wide .enc (BitVec.ofNat 24 e.2.1) (BitVec.ofNat 32 e.2.2)
      s.Ready ∧ s.mode = .enc ∧ 1 ≤ e.1 ∧ e.1 ≤ 16 ∧ s.latA.toNat + 2 ^ e.1 ≤ s.cfg.nprob ∧ s.latV.toNat < 2 ^ e.1) ∧
    (let s := running .enc 0 0xFF; s.Ready ∧ s.mode = .enc ∧ s.latA.toNat + 0x300 ≤ s.cfg.nprob ∧ s.latV.toNat < 2 ^ 8) ∧
    let s := running .enc 0 0xFFFF
    s.Ready ∧ s.mode = .enc ∧ s.latA.toNat + 0x300 ≤ s.cfg.nprob ∧ s.latV.toNat < 2 ^ 16 :=
  ⟨fun e he => ⟨ready_wide _ _ _, by revert e; decide⟩, ⟨ready_running _ _ _ _, by decide⟩, ready_running _ _ _ _, by decide⟩
theorem meets_EncodedWalkUpdatesItsCells :
    let walk := treePath 0 5 3 1
    (running .enc 0 0).memoryOk ∧ (walk.map Prod.fst).Nodup ∧ ∃ u, State.encodePath walk (running .enc 0 0) = some u :=
  ⟨by decide, by decide, some_of (by decide)⟩
theorem meets_CountersCountPortBytes :
    (∃ t, exec .encFlush (running .enc 0 0) = .next t) ∧ (∃ t, exec .encInit (running .idle 0 0) = .next t) ∧
    (∃ t, exec .decInit (fed .idle 0 0 [1, 2, 3, 4, 5, 6]) = .next t) ∧
    ∃ t, exec .decBit (opened 0 0 0 [1, 2]) = .next t :=
  ⟨next_of_left (by decide), next_of_left (by decide), next_of_left (by decide), next_of_left (by decide)⟩

theorem meets_DecoderPrimitives :
    let s (range code : Word) (q : List Byte) : State := { opened 0 0 code q with decRange := range }
    2 ^ 24 ≤ (s 0x01000000 0 []).decRange.toNat ∧
    ((s 0x00FFFFFF 0 [7]).decRange.toNat < 2 ^ 24 ∧ (s 0x00FFFFFF 0 [7]).inQueue = 7 :: []) ∧
    ((s 0 0 []).decRange.toNat < 2 ^ 24 ∧ (s 0 0 []).inQueue = []) ∧
    (let t := s 0xFFFFFFFF 0x7FFFFBFF [];
      t.decCode.toNat < ((t.decRange >>> 11) * (t.cell 0).setWidth 32).toNat) ∧
    (let t := s 0xFFFFFFFF 0x7FFFFC00 [];
      ((t.decRange >>> 11) * (t.cell 0).setWidth 32).toNat ≤ t.decCode.toNat) ∧
    (let t := s 0xFFFFFFFF 0x7FFFFFFF []; (t.decCode - t.decRange >>> 1) >>> 31 = 0) ∧
    let t := s 0xFFFFFFFF 0x7FFFFFFE []
    (t.decCode - t.decRange >>> 1) >>> 31 ≠ 0 := by decide
theorem meets_DecInitLoadsFiveBytes :
    (let s := fed .idle 0 0 [1, 2, 3, 4, 5]; s.mode = .idle ∧ s.inQueue = [1, 2, 3, 4, 5] ++ []) ∧
    (let s : State := { fed .idle 0 0 [1, 2, 3, 4] with eoi := true }; s.mode = .idle ∧ s.inQueue.length < 5 ∧ s.eoi = true) ∧
    (let s := fed .idle 0 0 []; s.mode = .idle ∧ s.inQueue.length < 5 ∧ s.eoi = false) ∧
    (running .enc 0 0).mode ≠ .idle := by decide
theorem meets_DecBitDecodes :
    (let s := opened 0x2FF 0 0x7FFFFC00 [1, 2];
      s.mode = .dec ∧ s.latA.toNat < s.cfg.nprob ∧ s.memoryOk ∧ 2 ^ 24 ≤ s.decRange.toNat ∧ 2 ≤ s.inQueue.length) ∧
    (∃ bit u, (opened 0x2FF 0 0x7FFFFC00 []).decodeBit 0x2FF = some (bit, u)) ∧
    (running .enc 0 0).mode ≠ .dec ∧
    let s := opened 0x300 0 0 []
    s.mode = .dec ∧ s.cfg.nprob ≤ s.latA.toNat := ⟨by decide, pair_of (by decide), by decide, by decide⟩
theorem meets_DecBitDecodes_dry :
    ∀ eoi ∈ [false, true], let s : State := { opened 0x2FF 0 0 [] with decRange := 0x01000000, eoi := eoi }
      s.mode = .dec ∧ s.latA.toNat < s.cfg.nprob ∧ (s.decodeBit s.latA.toNat).isNone = true := by decide
theorem meets_DecDirectDecodes_dry :
    ∀ n ∈ [9, 32], let s := opened 0 0 0x59FFFFFF []
      s.mode = .dec ∧ 1 ≤ n ∧ n ≤ 32 ∧ (State.decodeDirect n 0 s).isNone = true := by decide
theorem meets_DecodeWalksReturnSymbols_dry :
    let s : State := { opened 0 0x4300 0 [] with decRange := 0x04000000 }
    s.mode = .dec ∧ s.latA.toNat + 2 ^ 3 ≤ s.cfg.nprob ∧ s.latA.toNat + 0x300 ≤ s.cfg.nprob ∧ s.latV.toNat < 2 ^ 16 ∧
      (State.decodeTree 0 3 1 s).isNone = true ∧ (State.decodeReverse 0 3 0 1 0 s).isNone = true ∧
      (State.decodeTree 0 8 1 s).isNone = true ∧ (State.decodeMatched 0 8 0x43 1 s).isNone = true := by decide
theorem meets_DecDirectDecodes :
    (∀ n ∈ [1, 32], let s := opened 0 0 0x59FFFFFF (List.replicate n 0)
      s.mode = .dec ∧ 1 ≤ n ∧ n ≤ 32 ∧ 2 ^ 24 ≤ s.decRange.toNat ∧ n ≤ s.inQueue.length) ∧
    (∃ v u, State.decodeDirect 8 0 (opened 0 0 0x59FFFFFF [0xFC, 0x00]) = some (v, u)) ∧
    (running .enc 0 0).mode ≠ .dec ∧ ∀ n ∈ [0, 33], (opened 0 0 0 []).mode = .dec ∧ (n < 1 ∨ 32 < n) :=
  ⟨by decide, pair_of (by decide), by decide, by decide⟩
theorem meets_DecEndClosesStream : (opened 0 0 0 []).mode = .dec ∧ (running .idle 0 0).mode ≠ .dec := by decide
theorem meets_DecodeWalksReturnSymbols :
    (let s := opened 0 0 0x9FFFFC00 [];
      s.mode = .dec ∧ 1 ≤ 3 ∧ 3 ≤ 16 ∧ s.latA.toNat + 2 ^ 3 ≤ s.cfg.nprob ∧ (∃ v u, State.decodeTree 0 3 1 s = some (v, u)) ∧
        ∃ v u, State.decodeReverse 0 3 0 1 0 s = some (v, u)) ∧
    let s := opened 0 0x4300 0x40FFFC00 [0, 0]
    s.mode = .dec ∧ s.latA.toNat + 0x300 ≤ s.cfg.nprob ∧ s.latV.toNat < 2 ^ 16 ∧
      (∃ v u, State.decodeTree 0 8 1 s = some (v, u)) ∧ ∃ v u, State.decodeMatched 0 8 0x43 1 s = some (v, u) :=
  ⟨⟨rfl, by decide, by decide, by decide, pair_of (by decide), pair_of (by decide)⟩, rfl, by decide, by decide,
    pair_of (by decide), pair_of (by decide)⟩
theorem meets_DecodeWalksComplete :
    (∀ e ∈ [(1, 0x3FFFFE), (16, 0x3F0000)],
      let s : State := { wide .dec (BitVec.ofNat 24 e.2) 0 with inQueue := List.replicate (2 * e.1) 0 }
      s.Ready ∧ s.mode = .dec ∧ 2 ^ 24 ≤ s.decRange.toNat ∧ 1 ≤ e.1 ∧ e.1 ≤ 16 ∧ s.latA.toNat + 2 ^ e.1 ≤ s.cfg.nprob ∧
        2 * e.1 ≤ s.inQueue.length) ∧
    let s := fed .dec 0 0xFFFF (List.replicate 16 0)
    s.Ready ∧ s.mode = .dec ∧ 2 ^ 24 ≤ s.decRange.toNat ∧ s.latA.toNat + 0x300 ≤ s.cfg.nprob ∧ s.latV.toNat < 2 ^ 16 ∧
      2 * 8 ≤ s.inQueue.length :=
  ⟨fun e he => ⟨(ready_wide .dec (BitVec.ofNat 24 e.2) 0).congr rfl rfl rfl rfl rfl rfl fun h => ⟨h, rfl, rfl⟩,
      by revert e; decide⟩,
    (ready_running .dec 0 0xFFFF 0).congr rfl rfl rfl rfl rfl rfl fun h => ⟨h, rfl, rfl⟩, by decide⟩
theorem meets_TruncatedLeavesPartialEffects :
    (∃ t, exec .decInit { fed .idle 0 0 [1] with eoi := true } = .next t ∧ t.fault = .truncated) ∧
    ∃ t, exec .decBit { opened 0 0 0 [] with decRange := 0x01000000, eoi := true } = .next t ∧ t.fault = .truncated :=
  ⟨next_with (by decide), next_with (by decide)⟩
theorem meets_TruncatedEndsWhereHoldWaits :
    ((held (.write 0x14 4 4)).Inv ∧ (heldWalk (.write 0x14 4 4)).Inv ∧ ∀ s ∈ [held (.write 0x14 4 4), heldWalk (.write 0x14 4 4)],
      s.task.isSome ∧ s.inQueue = [] ∧ s.eoi = false ∧ s.host = .write (s.cfg.rccBase + 0x14) 4 4 :: []) ∧
    ((fed .idle 0 0 [1]).eoi = false ∧ (fed .idle 0 0 [1]).task = none ∧
      ∃ t k, exec .decInit (fed .idle 0 0 [1]) = .next t ∧ t.task = some k) ∧
    ∃ t k, exec .decBit { opened 0 0 0 [] with decRange := 0x01000000 } = .next t ∧ t.task = some k :=
  ⟨⟨inv_held _, inv_heldWalk _, by decide⟩, ⟨rfl, rfl, holds_of_left (by decide)⟩, holds_of_left (by decide)⟩
theorem meets_ChunkedDecodeSameAsWhole :
    (∃ t, resume (.load 4) (held .wait) = .next t) ∧
    (∃ t, resume (.walk 1 (.tree 0 3 6)) { heldWalk .wait with eoi := true } = .next t ∧ t.fault = .truncated) ∧
    (fed .idle 0 0 [1]).busy = true ∧ (fed .idle 0 0 [1]).inWait = false ∧ (fed .idle 0 0 [1]).task = none ∧
      ∃ t k, exec .decInit (fed .idle 0 0 [1]) = .next t ∧ t.task = some k :=
  ⟨next_of_left (by decide), next_with (by decide), rfl, rfl, rfl, holds_of_left (by decide)⟩
theorem meets_StreamsDecodeToWhatTheyEncode :
    let s := State.resetWith small
    let cs : List Coding :=
      [⟨.bit, 0x2FF, 1⟩, ⟨.direct 32, 0, 0xFFFFFFFF⟩, ⟨.bt 9, 0x100, 0x1FF⟩, ⟨.btr 1, 0x2FE, 1⟩, ⟨.lit, 0, 0xFF⟩, ⟨.litm, 0, 0xFFFF⟩]
    s.Ready ∧ s.mode = .idle ∧ s.fault = .none ∧ (∀ c ∈ cs, c.legal s.cfg.nprob) ∧ cs.length < 2 ^ 56 :=
  ⟨(ready_running .idle 0 0 0).congr rfl rfl rfl rfl rfl rfl fun h => (by cases h), rfl, rfl,
    by simp [Coding.legal, State.resetWith, small], by decide⟩

theorem meets_TokenCommandsMoveState : ({ running .dec 0 0 with state := 11 } : State).state.toNat ≤ 11 := by decide
theorem meets_ContextCommandsReturnIndex :
    (running .dec 0 0).fieldsOk ∧ ({ running .dec 0 0 with state := 11, lc := 8, lp := 4, pb := 4 } : State).fieldsOk := by decide
theorem meets_NopDoesNothing : decode 0 = .ok .nop := by decide
theorem meets_SetPropsLoadsProperties :
    (let s := running .idle 0 224;
      s.mode = .idle ∧ 8 ≤ 8 ∧ 4 ≤ 4 ∧ s.latV.toNat = (4 * 5 + 4) * 9 + 8 ∧ s.latV.toNat < 225) ∧
    (running .enc 0 0).mode ≠ .idle ∧
    (∀ v ∈ ([256, 0xFFFFFFFF] : List Word), (running .idle 0 v).mode = .idle ∧ 256 ≤ (running .idle 0 v).latV.toNat) ∧
    ∀ v ∈ ([225, 255] : List Word), let s := running .idle 0 v
      s.mode = .idle ∧ 225 ≤ s.latV.toNat ∧ s.latV.toNat < 256 := by simp [running, State.latV, State.resetWith, small]

theorem meets_WrongModeRaisesMode :
    ((running .dec 0 0).mode ≠ .idle ∧ (running .idle 0 0).mode ≠ .enc ∧ (running .enc 0 0).mode ≠ .dec) ∧
    (∃ t, exec .setProps (running .enc 0 0) = .next t ∧ t.fault = .mode) ∧
    (∃ t, exec (.encBt 3) (running .idle 0 0) = .next t ∧ t.fault = .mode) ∧
    ∃ t, exec .decEnd (running .idle 0 0) = .next t ∧ t.fault = .mode :=
  ⟨by decide, next_with (by decide), next_with (by decide), next_with (by decide)⟩
theorem meets_BadOperandsRaiseOperand :
    (∀ e ∈ [(0, 0, 0), (17, 0, 0), (9, 0x101, 0), (9, 0x100, 0x200)],
      let s := running .enc (BitVec.ofNat 24 e.2.1) (BitVec.ofNat 32 e.2.2)
      s.mode = .enc ∧ ((e.1 < 1 ∨ 16 < e.1 ∨ s.cfg.nprob < s.latA.toNat + 2 ^ e.1) ∨ 2 ^ e.1 ≤ s.latV.toNat)) ∧
    (let s := running .dec 0x101 0; s.mode = .dec ∧ s.cfg.nprob < s.latA.toNat + 2 ^ 9) ∧
    (∀ e ∈ ([(1, 0), (0, 0x100)] : List (BitVec 24 × Word)), let s := running .enc e.1 e.2
      s.mode = .enc ∧ (s.cfg.nprob < s.latA.toNat + 0x300 ∨ 2 ^ 8 ≤ s.latV.toNat)) ∧
    ∀ e ∈ ([(1, 0), (0, 0x10000)] : List (BitVec 24 × Word)), let s := running .dec e.1 e.2
      s.mode = .dec ∧ (s.cfg.nprob < s.latA.toNat + 0x300 ∨ 2 ^ 16 ≤ s.latV.toNat) := by simp [running, State.latV, State.latA, State.resetWith, small]
theorem meets_CheckFaultsChangeNothingElse :
    (∃ t, exec .probRead (running .enc 0x300 0) = .next t ∧ t.fault = .operand) ∧
    (∃ t, exec .encBit (running .idle 0 0) = .next t ∧ t.fault = .mode) ∧
    (∃ t, exec .setProps (running .idle 0 225) = .next t ∧ t.fault = .config) ∧
    ∃ t, exec .probWrite (running .idle 0 0) = .next t ∧ t.fault = .probValue :=
  ⟨next_with (by decide), next_with (by decide), next_with (by decide), next_with (by decide)⟩
theorem meets_CommandsWriteOnlyTheirRegisters :
    (∃ t, exec .stMatch (running .enc 0 0) = .next t ∧ t.fault = .none) ∧
    (∃ t, exec .probRead (running .enc 0x300 0) = .next t ∧ t.fault = .operand) ∧
    ∃ t, exec (.encBt 3) (running .enc 0 5) = .next t ∧ t.fault = .none :=
  ⟨next_with (by decide), next_with (by decide), next_with (by decide)⟩
theorem meets_CodingCommandsStayInTheirCells :
    (∃ t, exec .encBit (running .enc 1 1) = .next t) ∧ (∃ t, exec .decBit (opened 1 0 0 []) = .next t) ∧
    (∃ t, exec (.encBt 3) (running .enc 1 5) = .next t) ∧ (∃ t, exec (.decBtr 3) (opened 1 0 0 []) = .next t) ∧
    (∃ t, exec .encLitm (running .enc 0 0x4341) = .next t) ∧ ∃ t, exec .decLit (opened 0 0 0 [0, 0]) = .next t :=
  ⟨next_of_left (by decide), next_of_left (by decide), next_of_left (by decide), next_of_left (by decide),
    next_of_left (by decide), next_of_left (by decide)⟩
theorem meets_CellsStayInUpdateRange :
    let s : State := { running .enc 0 1 with cells := [(0, 31), (1, 2017)] }
    Instr.encBit ≠ .probWrite ∧ Memory.wf s.cells ∧ (∀ a, 31 ≤ (s.cell a).toNat ∧ (s.cell a).toNat ≤ 2017) ∧
      ∃ t, exec .encBit s = .next t := by
  refine ⟨by decide, by decide, fun a => ?_, next_of_left (by decide)⟩
  by_cases h0 : a = 0
  · subst h0; decide
  · by_cases h1 : a = 1
    · subst h1; decide
    · simp [State.cell, Memory.read, Ne.symm h0, Ne.symm h1, resetCell]
theorem meets_InvariantHoldsAtReset :
    ({ nprob := 1, priceShift := 4, rccBase := 0 } : Config).wf ∧ ({ nprob := 2 ^ 24, priceShift := 6, rccBase := 8 } : Config).wf := by
  decide
theorem meets_StepKeepsInvariant :
    (held (.offer [1])).Inv ∧ (∃ t, step (held (.offer [1])) = .next t) ∧
    (host (.write 0 4 0x08)).Inv ∧ ∃ t, step (host (.write 0 4 0x08)) = .next t :=
  ⟨inv_held _, next_of_left (by decide), inv_host _, next_of_left (by decide)⟩
theorem meets_StepKeepsInvariant_range :
    (held (.offer [1])).decoderOk ∧ (heldWalk (.write 0x14 4 4)).decoderOk ∧ (heldWalk (.write 0x14 4 4)).Inv ∧
      ∃ t, step { heldWalk .wait with eoi := true } = .next t ∧ t.fault = .truncated :=
  ⟨.inl (by decide), .inr ⟨_, _, rfl⟩, inv_heldWalk _, next_with (by decide)⟩
theorem meets_StepNeverFaults : (held .wait).Inv ∧ (host (.write 0 4 0x10)).Inv := ⟨inv_held _, inv_host _⟩

end Sys2Proof.Tests
end

section
/-! SUPPORT, then the settled statement. What a host action and a step come to, and that each keeps the invariant and the bound of
DEC_RANGE (spec/10_state.md R41). -/

namespace Sys2Proof.Machine

/-! ### CTRL -/

/-- A CTRL write as one update: a reset first where bit 0 asks for it, then FAULT, FAULTINFO and EOI (10_state.md R37). -/
theorem State.writeCtrl_eq (s : State) (v : Word) :
    s.writeCtrl v =
      { (if v.getLsbD 0 then s.doReset else s) with
        fault := if v.getLsbD 0 || v.getLsbD 1 then .none else s.fault
        faultInfo := if v.getLsbD 0 || v.getLsbD 1 then 0 else s.faultInfo
        eoi := v.getLsbD 2 || (s.eoi && !v.getLsbD 0 && !v.getLsbD 3) } := by
  -- The four bits that act, each way.
  unfold State.writeCtrl State.clearFault
  cases v.getLsbD 0 <;> cases v.getLsbD 1 <;> cases v.getLsbD 2 <;> cases v.getLsbD 3 <;>
    simp [State.doReset, State.resetWith]

/-! ### The host's side of a step -/

/-- `t` differs from `s` at most in what the host writes itself: CMD_A, CMD_V, FAULT, FAULTINFO, EOI, the byte-in queue, its
pending actions and what it read. -/
def hostTouch (s t : State) : Prop :=
  t = { s with
    cmdA := t.cmdA, cmdV := t.cmdV, fault := t.fault, faultInfo := t.faultInfo, eoi := t.eoi, inQueue := t.inQueue,
    host := t.host, reads := t.reads, freeCtr := t.freeCtr }

theorem hostTouch.inv {s t : State} (ht : hostTouch s t) (h : s.Inv) : t.Inv := by
  rw [ht]; exact ⟨h.cfg, h.memory, h.fields, h.interval, h.run, h.task⟩

theorem hostTouch.decoderOk {s t : State} (ht : hostTouch s t) (h : s.decoderOk) : t.decoderOk := by
  rw [ht]; exact h

theorem record_hostTouch (s : State) (c : FaultCode) (w : Word) : hostTouch s (s.record c w) := by
  unfold hostTouch; rw [State.record_frame]

theorem readBus_hostTouch (s : State) (off : Nat) : hostTouch s (s.readBus off) := by
  unfold State.readBus; split <;> rfl

theorem writeCtrl_hostTouch (s : State) (v : Word) : hostTouch s (s.writeCtrl v) ∨ hostTouch s.doReset (s.writeCtrl v) := by
  rw [State.writeCtrl_eq]
  cases v.getLsbD 0
  · exact .inl rfl
  · exact .inr rfl

theorem writeRegister_hostTouch (s : State) (off : Nat) (v : Word) :
    hostTouch s (s.writeRegister off v) ∨ hostTouch s.doReset (s.writeRegister off v) := by
  unfold State.writeRegister
  split
  · exact .inl rfl
  · exact .inl rfl
  · exact writeCtrl_hostTouch s v
  · exact .inl rfl

/-- A host write of CMD_W drops the word or records an Overrun, or else launches the word on an idle core. -/
theorem writeCommand_cases {w : Word} {s t : State} (h : writeCommand w s = .next t) :
    hostTouch s t ∨ (s.busy = false ∧ runLaunched w (s.launch w) = .next t) := by
  unfold writeCommand at h
  split_ifs at h with hf hb
  · cases h; exact .inl rfl
  · cases h; exact .inl (record_hostTouch s _ w)
  · exact .inr ⟨Bool.not_eq_true _ ▸ hb, h⟩

/-- What a host action comes to: it writes the host's own side, it resets the core, or it launches a command. -/
theorem hostAction_cases {act : HostAct} {s t : State} (h : hostAction act s = .next t) :
    hostTouch s t ∨ hostTouch s.doReset t ∨ ∃ w, s.busy = false ∧ runLaunched w (s.launch w) = .next t := by
  cases act with
  | write addr width v =>
    simp only [hostAction] at h
    split at h
    · split_ifs at h
      · exact (writeCommand_cases h).imp_right fun hl => .inr ⟨v, hl⟩
      · cases h; exact (writeRegister_hostTouch s _ v).imp_right .inl
    · cases h
  | read addr width =>
    simp only [hostAction] at h
    split at h
    · cases h; exact .inl (readBus_hostTouch s _)
    · cases h
  | offer bs => cases h; exact .inl rfl
  | wait => cases h; left; split_ifs <;> rfl
  | hardReset => cases h; exact .inr (.inl rfl)

/-! ### What a reset and a launch leave -/

theorem resetWith_inv {c : Config} (h : c.wf) : (State.resetWith c).Inv where
  cfg := h
  memory := ⟨⟨.nil, fun e he => (List.not_mem_nil he).elim⟩, fun e he => (List.not_mem_nil he).elim⟩
  fields := by simp [State.fieldsOk, State.resetWith]
  interval hm := by cases hm
  run := ⟨rfl, rfl, rfl, rfl⟩
  task _ hk := by cases hk

/-- A reset keeps the parameters, and what else it keeps the invariant does not read. -/
theorem doReset_inv {s : State} (h : s.cfg.wf) : s.doReset.Inv :=
  have r := resetWith_inv h
  ⟨r.cfg, r.memory, r.fields, r.interval, r.run, r.task⟩

theorem doReset_decoderOk (s : State) : s.doReset.decoderOk := .inl (show 2 ^ 24 ≤ (0xFFFFFFFF : Word).toNat by decide)

/-- A launched word leaves the invariant, whether it decodes or not. -/
theorem runLaunched_inv {w : Word} {s t : State} (h : s.Ready) (ho : s.running) (ht : runLaunched w s = .next t) : t.Inv := by
  unfold runLaunched at ht
  split at ht
  · obtain ⟨u, hu, hi⟩ := exec_answers _ h ho
    rw [hu] at ht; cases ht; exact hi
  · exact h.inv_raise ht

theorem runLaunched_decoderOk {w : Word} {s t : State} (h : 2 ^ 24 ≤ s.decRange.toNat) (ht : runLaunched w s = .next t) :
    t.decoderOk ∨ ranDry s t := by
  unfold runLaunched at ht
  split at ht
  · exact exec_decoderOk h ht
  · rw [raise_eq_next] at ht; subst ht; left; left; simpa [State.idle] using h

/-- With BUSY = 0 no decoding command holds, so the bound of DEC_RANGE itself holds. -/
theorem State.Inv.decRange_of_idle {s : State} (h : s.Inv) (hb : s.busy = false) (hd : s.decoderOk) :
    2 ^ 24 ≤ s.decRange.toNat := by
  rcases hd with hd | ⟨left, w, hk⟩
  · exact hd
  · obtain ⟨hbusy, -⟩ := h.run
    rw [hb, hk] at hbusy; cases hbusy

theorem hostAction_inv {act : HostAct} {s t : State} (h : s.Inv) (ht : hostAction act s = .next t) : t.Inv := by
  rcases hostAction_cases ht with ht | ht | ⟨w, -, ht⟩
  · exact ht.inv h
  · exact ht.inv (doReset_inv h.cfg)
  · obtain ⟨-, -, ho, -⟩ := h.run
    exact runLaunched_inv (h.ready.launch w) ⟨ho, rfl⟩ ht

theorem hostAction_decoderOk {act : HostAct} {s t : State} (h : s.Inv) (hd : s.decoderOk) (ht : hostAction act s = .next t) :
    t.decoderOk ∨ ranDry s t := by
  rcases hostAction_cases ht with ht | ht | ⟨w, hb, ht⟩
  · exact .inl (ht.decoderOk hd)
  · exact .inl (ht.decoderOk (doReset_decoderOk s))
  · exact runLaunched_decoderOk (s := s.launch w) (h.decRange_of_idle hb hd) ht

/-- Taking the host's next action off the list touches the host's side alone. -/
theorem setHost_hostTouch (s : State) (rest : List HostAct) : hostTouch s { s with host := rest } := rfl

/-- The host's turn: nothing is pending, or the next action takes effect. -/
theorem hostTurn_cases {s t : State} (h : hostTurn s = .next t) :
    t = s ∨ ∃ act rest, s.host = act :: rest ∧ hostAction act { s with host := rest } = .next t := by
  unfold hostTurn at h
  split at h
  · cases h; exact .inl rfl
  · exact .inr ⟨_, _, by assumption, h⟩

/-- What a step comes to: a held command goes on, or it is the host's turn. -/
theorem step_cases {s t : State} (h : step s = .next t) :
    (∃ k, s.task = some k ∧ resume k s = .next t) ∨ t = s ∨
      ∃ act rest, s.host = act :: rest ∧ hostAction act { s with host := rest } = .next t := by
  unfold step advance at h
  split at h
  · split_ifs at h
    · exact .inl ⟨_, by assumption, h⟩
    · exact .inr (hostTurn_cases h)
  · exact .inr (hostTurn_cases h)

theorem step_inv {s t : State} (h : s.Inv) (ht : step s = .next t) : t.Inv := by
  rcases step_cases ht with ⟨k, hk, ht⟩ | rfl | ⟨act, rest, -, ht⟩
  · exact resume_inv h hk ht
  · exact h
  · exact hostAction_inv ((setHost_hostTouch s rest).inv h) ht

theorem step_decoderOk {s t : State} (h : s.Inv) (hd : s.decoderOk) (ht : step s = .next t) : t.decoderOk ∨ ranDry s t := by
  rcases step_cases ht with ⟨k, hk, ht⟩ | rfl | ⟨act, rest, -, ht⟩
  · exact resume_decoderOk hd hk ht
  · exact .inl hd
  · have hs := setHost_hostTouch s rest
    exact hostAction_decoderOk (s := { s with host := rest }) (hs.inv h) (hs.decoderOk hd) ht

end Sys2Proof.Machine

open Sys2Proof Sys2Proof.Machine

/-- Settles O59: a held command that goes on keeps the invariant by `resume_inv`, a launched one by `exec_answers`, and the rest of a
host action is a reset or touches nothing the invariant reads. -/
theorem stepKeepsInvariant : Obligations.StepKeepsInvariant := by
  unfold Obligations.StepKeepsInvariant
  exact fun _ _ h ht => ⟨step_inv h ht, fun hd => step_decoderOk h hd ht⟩
end

section
/-! SUPPORT, then the settled statements. What the host's reads and writes of the register window see and leave
(spec/10_state.md R35 to R40). -/

namespace Sys2Proof.Machine

/-! ### The register window -/

/-- The pending actions of the host are no register. -/
theorem State.readRegister_host (s : State) (rest : List HostAct) (off : Nat) :
    State.readRegister { s with host := rest } off = s.readRegister off := rfl

theorem State.readRegister_reserved (s : State) {off : Nat} (h : 0x50 ≤ off) : s.readRegister off = 0 := by
  unfold State.readRegister
  split
  case h_19 => rfl
  all_goals omega

/-- A read that R40 leaves specified: the host gets what the register holds. -/
theorem State.readBus_specified {s : State} {off : Nat} (h : s.readUnspecified off = false) :
    s.readBus off = { s with reads := s.reads ++ [s.readRegister off] } := by
  unfold State.readBus; rw [h]; rfl

/-- A read that R40 leaves unspecified draws the next free value. -/
theorem State.readBus_unspecified {s : State} {off : Nat} (h : s.readUnspecified off = true) :
    s.readBus off = { s with reads := s.reads ++ [Config.freeRead s.freeCtr], freeCtr := s.freeCtr + 1 } := by
  unfold State.readBus; rw [h]; rfl

/-- What R40 leaves unspecified: while BUSY = 1, the registers of the map but STATUS. -/
theorem State.readUnspecified_iff (s : State) (off : Nat) :
    s.readUnspecified off = true ↔ s.busy = true ∧ off ≠ 0x10 ∧ off < 0x50 := by
  simp [State.readUnspecified, and_assoc]

/-- A host read of a register that R40 leaves specified. -/
theorem step_read_specified {s : State} (h : s.hostMoves) {rest : List HostAct} {off : Nat} (ho : off < 0x100)
    (h4 : off % 4 = 0) (hh : s.host = .read (s.cfg.rccBase + off) 4 :: rest) (hs : s.busy = false ∨ off = 0x10 ∨ 0x50 ≤ off) :
    step s = .next { s with host := rest, reads := s.reads ++ [s.readRegister off] } := by
  have hu : State.readUnspecified { s with host := rest } off = false := by
    rw [Bool.eq_false_iff, Ne, State.readUnspecified_iff]
    rintro ⟨hb, h10, h50⟩
    rcases hs with hs | hs | hs
    · rw [hs] at hb; cases hb
    · exact h10 hs
    · omega
  rw [step_read h ho h4 hh, State.readBus_specified hu, State.readRegister_host]

/-- A host write of a register that holds nothing to write. -/
theorem State.writeRegister_other (s : State) {off : Nat} (h : off ∉ [0x00, 0x04, 0x08, 0x14]) (w : Word) :
    s.writeRegister off w = s := by
  unfold State.writeRegister
  split
  case h_4 => rfl
  all_goals exact absurd (by decide) h

end Sys2Proof.Machine

open Sys2Proof Sys2Proof.Machine

/-- Settles O10, by `step_write` at 0x14 and the one-update form of a CTRL write. -/
theorem ctrlActsInOrder : Obligations.CtrlActsInOrder := by
  unfold Obligations.CtrlActsInOrder
  exact ⟨fun s rest v h hh => step_write h (by decide) (by decide) (by decide) hh, fun s => rfl, State.writeCtrl_eq⟩

/-- Settles O11: with BUSY = 0 every read is specified, and each offset of the map reads its register. -/
theorem registerMapReads : Obligations.RegisterMapReads := by
  unfold Obligations.RegisterMapReads
  intro s rest off v h hb hh hv
  have hr : s.readRegister (off, v).1 = (off, v).2 ∧ (off, v).1 < 0x100 ∧ (off, v).1 % 4 = 0 := by
    revert hv
    generalize (off, v) = e
    revert e
    simp [State.readRegister]
  obtain ⟨hr, ho, h4⟩ := hr
  rw [step_read_specified h ho h4 hh (.inl hb), hr]

/-- Settles O13: the value is the next free one, and STATUS is the one register a read while BUSY = 1 shows. -/
theorem readWhileBusyReturnsSomeValue : Obligations.ReadWhileBusyReturnsSomeValue := by
  unfold Obligations.ReadWhileBusyReturnsSomeValue
  intro s rest off h hb ho h4 hh
  have ho' : off < 0x100 := by omega
  constructor
  · intro h10
    have hu : State.readUnspecified { s with host := rest } off = true := (State.readUnspecified_iff _ _).mpr ⟨hb, h10, ho⟩
    exact ⟨_, by rw [step_read h ho' h4 hh, State.readBus_unspecified hu]⟩
  · intro h10
    rw [step_read_specified h ho' h4 hh (.inr (.inl h10)), h10]; rfl

/-- Settles O14, register by register: what reads 0 holds nothing, and what is not written keeps the state. -/
theorem windowWritesAndReservedReads : Obligations.WindowWritesAndReservedReads := by
  unfold Obligations.WindowWritesAndReservedReads
  intro s rest off w h h4 ho
  refine ⟨fun hh hr => ?_, fun hh hn => ?_, fun hh he => ?_, fun hh he => ?_⟩
  · rcases hr with ⟨hb, rfl | rfl⟩ | hr
    · exact step_read_specified h ho h4 hh (.inl hb)
    · exact step_read_specified h ho h4 hh (.inl hb)
    · rw [step_read_specified h ho h4 hh (.inr (.inr hr)), State.readRegister_reserved s hr]
  · rw [step_write h ho h4 (fun h0 => hn (by simp [h0])) hh, State.writeRegister_other _ hn]
  · subst he
    rw [step_write h ho h4 (by decide) hh, ← BitVec.setWidth_eq_extractLsb' (by decide)]; rfl
  · subst he
    exact step_write h ho h4 (by decide) hh
end

section
/-! SUPPORT, then the settled statement. The fields of STATUS and PROPS (spec/10_state.md R36, R38). -/

namespace Sys2Proof.Machine

/-! ### The fields of STATUS and PROPS -/

theorem Mode.code_lt (m : Mode) : m.code < 2 ^ 2 := by cases m <;> decide

theorem FaultCode.code_lt (f : FaultCode) : f.code < 2 ^ 4 := by cases f <;> decide

@[simp] theorem Mode.code_testBit (m : Mode) {k : Nat} (h : 2 ≤ k) : m.code.testBit k = false :=
  Nat.testBit_lt_two_pow (m.code_lt.trans_le (Nat.pow_le_pow_right (by decide) h))

@[simp] theorem FaultCode.code_testBit (f : FaultCode) {k : Nat} (h : 4 ≤ k) : f.code.testBit k = false :=
  Nat.testBit_lt_two_pow (f.code_lt.trans_le (Nat.pow_le_pow_right (by decide) h))

/-- STATUS bit by bit: which field each bit is of (10_state.md R36). -/
theorem State.status_getElem (s : State) {k : Nat} (hk : k < 32) :
    s.status[k] = (decide (k = 0) && s.busy || decide (k = 1) && s.faulted || decide (k = 2) && s.inWait ||
      decide (k = 3) && s.outWait || decide (4 ≤ k) && s.mode.code.testBit (k - 4) || decide (k = 6) && s.eoi ||
      decide (8 ≤ k) && s.fault.code.testBit (k - 8) || decide (16 ≤ k) && s.state.getLsbD (k - 16) ||
      decide (k = 20) && s.isChar) := by
  have hb (b : Bool) (n : Nat) : (decide (n ≤ k) && (decide (k - n = 0) && b)) = (decide (k = n) && b) := by
    rw [← Bool.and_assoc, ← Bool.decide_and]; congr 2; exact propext (by omega)
  rw [← BitVec.getLsbD_eq_getElem]
  simp only [State.status, BitVec.getLsbD_ofNat, Nat.testBit_or, Nat.testBit_shiftLeft, Nat.testBit_bool_toNat,
    BitVec.testBit_toNat, ge_iff_le, hb, hk, decide_true, Bool.true_and]

/-- PROPS bit by bit (10_state.md R38). -/
theorem State.props_getElem (s : State) {k : Nat} (hk : k < 32) :
    s.props[k] = (s.lc.getLsbD k || decide (4 ≤ k) && s.lp.getLsbD (k - 4) || decide (8 ≤ k) && s.pb.getLsbD (k - 8)) := by
  rw [← BitVec.getLsbD_eq_getElem]
  simp only [State.props, BitVec.getLsbD_ofNat, Nat.testBit_or, Nat.testBit_shiftLeft, BitVec.testBit_toNat, ge_iff_le, hk,
    decide_true, Bool.true_and]

/-! A field of `n` bits is what its `n` bits are: the field's own, since every other field is 0 there. -/

theorem State.status_mode (s : State) : s.status.extractLsb' 4 2 = BitVec.ofNat 2 s.mode.code := by
  ext k hk
  rw [BitVec.getElem_extractLsb', BitVec.getLsbD_eq_getElem (by omega), ← BitVec.getLsbD_eq_getElem hk, BitVec.getLsbD_ofNat]
  interval_cases k <;> simp [State.status_getElem]

theorem State.status_fault (s : State) : s.status.extractLsb' 8 4 = BitVec.ofNat 4 s.fault.code := by
  ext k hk
  rw [BitVec.getElem_extractLsb', BitVec.getLsbD_eq_getElem (by omega), ← BitVec.getLsbD_eq_getElem hk, BitVec.getLsbD_ofNat]
  interval_cases k <;> simp [State.status_getElem]

theorem State.status_state (s : State) : s.status.extractLsb' 16 4 = s.state := by
  ext k hk
  interval_cases k <;> simp [State.status_getElem]

theorem State.status_bits_12_15 (s : State) : s.status.extractLsb' 12 4 = 0 := by
  ext k hk
  interval_cases k <;> simp [State.status_getElem]

theorem State.status_bits_21_31 (s : State) : s.status.extractLsb' 21 11 = 0 := by
  ext k hk
  interval_cases k <;> simp [State.status_getElem]

theorem State.props_lc (s : State) : s.props.extractLsb' 0 4 = s.lc := by
  ext k hk
  interval_cases k <;> simp [State.props_getElem]

theorem State.props_lp (s : State) : s.props.extractLsb' 4 3 = s.lp := by
  ext k hk
  interval_cases k <;> simp [State.props_getElem]

theorem State.props_pb (s : State) : s.props.extractLsb' 8 3 = s.pb := by
  ext k hk
  interval_cases k <;> simp [State.props_getElem]

theorem State.props_bits_11_31 (s : State) : s.props.extractLsb' 11 21 = 0 := by
  ext k hk
  interval_cases k <;> simp [State.props_getElem]

end Sys2Proof.Machine

open Sys2Proof Sys2Proof.Machine

/-- Settles O12, field by field from the bits of the two words. -/
theorem statusAndPropsFields : Obligations.StatusAndPropsFields := by
  unfold Obligations.StatusAndPropsFields
  refine ⟨fun s => ?_, fun s => ?_, fun s => ?_, by decide, by decide⟩
  · simp only [State.status_mode]
    refine ⟨?_, ?_, ?_⟩ <;> rintro h <;> rw [h] <;> rfl
  · simp only [State.status_fault]
    refine ⟨?_, ?_, ?_, ?_, ?_, ?_, ?_, ?_⟩ <;> rintro h <;> rw [h] <;> rfl
  · refine ⟨?_, ?_, ?_, ?_, ?_, ?_, ?_, ?_, s.status_bits_12_15, s.status_state, ?_, s.status_bits_21_31, s.props_lc, s.props_lp,
      ?_, s.props_pb, s.props_bits_11_31⟩
    · simp [State.status_getElem]
    · simp [State.status_getElem, State.faulted]
    · simp [State.status_getElem]
    · simp [State.status_getElem]
    · rw [s.status_mode, BitVec.toNat_ofNat, Nat.mod_eq_of_lt s.mode.code_lt]
    · simp [State.status_getElem]
    · simp [State.status_getElem]
    · rw [s.status_fault, BitVec.toNat_ofNat, Nat.mod_eq_of_lt s.fault.code_lt]
    · simp [State.status_getElem, State.isChar]
    · simp [State.props_getElem]
end

section
/-! SUPPORT, then the settled statement. The frame of all commands, by groups of registers (spec/10_state.md R26 to R33,
spec/30_encoding.md R86). -/

namespace Sys2Proof.Machine

/-! ### Which registers a command may write -/

/-- The registers, the RAM and the ports in the groups that commands write. -/
inductive RegGroup where
  | hostSide | state | props | mode | res | encoder | decoder | cells

/-- The two states agree on the group. -/
def RegGroup.same (s t : State) : RegGroup → Prop
  | .hostSide => t.cmdA = s.cmdA ∧ t.cmdV = s.cmdV ∧ t.eoi = s.eoi ∧ t.cfg = s.cfg ∧ t.host = s.host ∧ t.reads = s.reads ∧
      t.cmdIndex = s.cmdIndex ∧ t.freeCtr = s.freeCtr
  | .state => t.state = s.state
  | .props => t.lc = s.lc ∧ t.lp = s.lp ∧ t.pb = s.pb
  | .mode => t.mode = s.mode
  | .res => t.res = s.res
  | .encoder => t.encRange = s.encRange ∧ t.encLow = s.encLow ∧ t.encCache = s.encCache ∧ t.encCsize = s.encCsize ∧
      t.outcnt = s.outcnt ∧ t.outBytes = s.outBytes
  | .decoder => t.decRange = s.decRange ∧ t.decCode = s.decCode ∧ t.incnt = s.incnt ∧ t.inQueue = s.inQueue
  | .cells => t.cells = s.cells

theorem RegGroup.same_trans {g : RegGroup} {s t u : State} (h : g.same s t) (h' : g.same t u) : g.same s u := by
  cases g <;> simp_all [RegGroup.same]

/-- The commands named for each group (30_encoding.md R86). -/
def mayWrite (i : Instr) : RegGroup → Prop
  | .hostSide => False
  | .state => i ∈ [Instr.stReset, .stLit, .stMatch, .stRep, .stShortRep]
  | .props => i = .setProps
  | .mode => i ∈ [Instr.encInit, .encFlush, .decInit, .decEnd]
  | .res => ∃ n, i ∈ [Instr.probRead, .priceBit, .priceBt n, .priceBtr n, .priceLit, .priceLitm, .decBit, .decDirect n, .decBt n,
      .decBtr n, .decLit, .decLitm, .stIsChar, .stRead, .ctxLit, .ctxPosState, .ctxStPos]
  | .encoder => ∃ n, i ∈ [Instr.encInit, .encBit, .encDirect n, .encFlush, .encBt n, .encBtr n, .encLit, .encLitm]
  | .decoder => ∃ n, i ∈ [Instr.decInit, .decBit, .decDirect n, .decBt n, .decBtr n, .decLit, .decLitm]
  | .cells => ∃ n, i ∈ [Instr.probInit, .probWrite, .encBit, .encBt n, .encBtr n, .encLit, .encLitm, .decBit, .decBt n, .decBtr n,
      .decLit, .decLitm]

/-- From `s` to `t` only groups in `W` changed. -/
def WritesOnly (W : RegGroup → Prop) (s t : State) : Prop := ∀ g, W g ∨ g.same s t

theorem WritesOnly.refl (W : RegGroup → Prop) (s : State) : WritesOnly W s s := fun g =>
  .inr (by cases g <;> simp [RegGroup.same])

theorem WritesOnly.trans {W : RegGroup → Prop} {s t u : State} (h : WritesOnly W s t) (h' : WritesOnly W t u) :
    WritesOnly W s u := fun g =>
  (h g).elim .inl fun hs => (h' g).imp_right (RegGroup.same_trans hs)

section
variable {W : RegGroup → Prop} {s t : State}

/-! What each operation writes; ending a command, recording a fault and holding write no group. -/

theorem WritesOnly.idle : WritesOnly W s s.idle := fun g => .inr (by cases g <;> simp [RegGroup.same, State.idle])

theorem WritesOnly.record (c : FaultCode) (w : Word) : WritesOnly W s (s.record c w) := fun g =>
  .inr (by cases g <;> simp [RegGroup.same])

theorem WritesOnly.hold (k : Task) : WritesOnly W s (s.hold k) := fun g => .inr (by cases g <;> simp [RegGroup.same])

theorem WritesOnly.setState (h : W .state) (v : BitVec 4) : WritesOnly W s (s.setState v) := fun g => by
  cases g with
  | state => exact .inl h
  | _ => exact .inr (by simp [RegGroup.same])

theorem WritesOnly.loadProps (h : W .props) (d : Nat) : WritesOnly W s (s.loadProps d) := fun g => by
  cases g with
  | props => exact .inl h
  | _ => exact .inr (by simp [RegGroup.same])

theorem WritesOnly.setMode (h : W .mode) (m : Mode) : WritesOnly W s (s.setMode m) := fun g => by
  cases g with
  | mode => exact .inl h
  | _ => exact .inr (by simp [RegGroup.same])

theorem WritesOnly.setRes (h : W .res) (v : Word) : WritesOnly W s (s.setRes v) := fun g => by
  cases g with
  | res => exact .inl h
  | _ => exact .inr (by simp [RegGroup.same])

theorem WritesOnly.setCells (h : W .cells) (m : Memory) : WritesOnly W s { s with cells := m } := fun g => by
  cases g with
  | cells => exact .inl h
  | _ => exact .inr (by simp [RegGroup.same])

theorem WritesOnly.encTouch (h : W .encoder) (hc : W .cells ∨ t.cells = s.cells) (ht : encTouch s t) : WritesOnly W s t :=
  fun g => by
  cases g with
  | encoder => exact .inl h
  | cells => exact hc
  | _ => right; rw [ht]; simp [RegGroup.same]

theorem WritesOnly.decTouch (h : W .decoder) (hc : W .cells ∨ t.cells = s.cells) (ht : decTouch s t) : WritesOnly W s t :=
  fun g => by
  cases g with
  | decoder => exact .inl h
  | cells => exact hc
  | _ => right; rw [ht]; simp [RegGroup.same]

theorem WritesOnly.raise {c : FaultCode} (h : raise c s = .next t) : WritesOnly W s t := by
  rw [raise_eq_next] at h; subst h; exact (WritesOnly.record c _).trans .idle

theorem WritesOnly.starve {k : Task} (h : starve k s = .next t) : WritesOnly W s t := by
  rcases starve_eq_next.mp h with ⟨-, rfl⟩ | ⟨-, rfl⟩
  · exact (WritesOnly.record _ _).trans .idle
  · exact .hold k

end

/-! ### Which group a way of Goes may write -/

theorem mayWrite_of_movesState {i : Instr} (h : movesState i = true) : mayWrite i .state := by
  revert h; cases i <;> simp [movesState, mayWrite]

theorem mayWrite_of_returnsAtOnce {i : Instr} (h : returnsAtOnce i = true) : mayWrite i .res := by
  revert h; cases i <;> simp [returnsAtOnce, mayWrite]

theorem mayWrite_of_encodePathOf {i : Instr} {s : State} {path : List (Nat × Bool)} (h : encodePathOf i s = some path) :
    mayWrite i .encoder ∧ mayWrite i .cells := by
  revert h; cases i <;> simp [encodePathOf, mayWrite]

theorem mayWrite_of_decodeWalkOf {i : Instr} {s : State} {n : Nat} {w : Walk} (h : decodeWalkOf i s = some (n, w)) :
    mayWrite i .decoder ∧ mayWrite i .res ∧ (mayWrite i .cells ∨ ∃ r, w = .direct r) := by
  cases i with
  | decDirect n => cases h; exact ⟨⟨n, by simp⟩, ⟨n, by simp⟩, .inr ⟨0, rfl⟩⟩
  | _ => revert h; simp [decodeWalkOf, mayWrite]

/-! ### The frame of a walk and of a load -/

/-- One decoded bit writes the decoder, and its cell unless the bit is direct. -/
theorem walkBit_writesOnly {W : RegGroup → Prop} (hd : W .decoder) {w : Walk} (hc : W .cells ∨ ∃ r, w = .direct r) (s : State) :
    WritesOnly W s (w.split s).2.renormD.2 := by
  refine .decTouch hd (hc.imp_right ?_) ((walkSplit_touch w s).1.trans (renormD_touch _))
  rintro ⟨r, rfl⟩
  rw [renormD_cells, walkSplit_cells]; rfl

theorem runWalk_writesOnly {W : RegGroup → Prop} (hd : W .decoder) (hr : W .res) {n : Nat} {w : Walk} {s t : State}
    (hc : W .cells ∨ ∃ r, w = .direct r) (h : runWalk n w s = .next t) : WritesOnly W s t := by
  have hP : Walk.Kept fun _ w u => WritesOnly W s u ∧ (W .cells ∨ ∃ r, w = .direct r) := fun _ w u hu _ =>
    ⟨hu.1.trans (walkBit_writesOnly hd hu.2 u), hu.2.imp_right fun ⟨_, hw⟩ => hw ▸ ⟨_, rfl⟩⟩
  rcases runWalk_cases hP ⟨.refl W s, hc⟩ h with ⟨w', u, ⟨hu, -⟩, rfl⟩ | ⟨k, w', u, ⟨hu, hc'⟩, -, hs⟩
  · exact hu.trans ((WritesOnly.setRes hr _).trans .idle)
  · exact hu.trans ((walkBit_writesOnly hd hc' u).trans (.starve hs))

theorem loadCode_writesOnly {W : RegGroup → Prop} (hd : W .decoder) (hm : W .mode) {left : Nat} {s t : State}
    (h : loadCode left s = .next t) : WritesOnly W s t := by
  obtain ⟨u, hu, hc, rfl | ⟨k, -, hs⟩⟩ := loadCode_frame h
  · exact (WritesOnly.decTouch hd (.inr hc) hu).trans ((WritesOnly.setMode hm _).trans .idle)
  · exact (WritesOnly.decTouch hd (.inr hc) hu).trans (.starve hs)

/-- Every command writes the groups it is named for, and no other. -/
theorem exec_writesOnly {i : Instr} {s t : State} (h : exec i s = .next t) : WritesOnly (mayWrite i) s t := by
  have g := exec_goes i s
  generalize exec i s = o at g h
  cases g with
  | refusedOperands | wrongMode => exact .raise h
  | nop => cases h; exact .idle
  | setProps d => cases h; exact (WritesOnly.loadProps (W := mayWrite .setProps) rfl d).trans .idle
  | probInit => cases h; exact (WritesOnly.setCells ⟨0, by simp⟩ _).trans .idle
  | probWrite v => cases h; exact (WritesOnly.setCells ⟨0, by simp⟩ _).trans .idle
  | returns hi v => cases h; exact (WritesOnly.setRes (mayWrite_of_returnsAtOnce hi) v).trans .idle
  | moves hi v => cases h; exact (WritesOnly.setState (mayWrite_of_movesState hi) v).trans .idle
  | encInit =>
    cases h
    exact (WritesOnly.setMode (by simp [mayWrite]) .enc).trans
      ((WritesOnly.encTouch (s := s.setMode .enc) ⟨0, by simp⟩ (.inr (by rfl)) (by rfl)).trans .idle)
  | encFlush =>
    cases h
    have hf := (shiftLow_touch s).trans ((shiftLow_touch _).trans ((shiftLow_touch _).trans ((shiftLow_touch _).trans
      (shiftLow_touch _))))
    exact (WritesOnly.encTouch ⟨0, by simp⟩ (.inr (by simp)) hf).trans ((WritesOnly.setMode (by simp [mayWrite]) _).trans .idle)
  | encodes _ hp =>
    obtain ⟨he, hc⟩ := mayWrite_of_encodePathOf hp
    obtain ⟨u, -, hu, rfl⟩ := encodeAlong_frame h
    exact (WritesOnly.encTouch he (.inl hc) hu).trans .idle
  | encodesDirect =>
    obtain ⟨u, hu, rfl⟩ := finishEncode_eq_next.mp h
    obtain ⟨hf, hc⟩ := encodeDirect_touch hu
    exact (WritesOnly.encTouch ⟨_, .tail _ (.tail _ (.head _))⟩ (.inr hc) hf).trans .idle
  | loads =>
    have hd : mayWrite .decInit .decoder := ⟨0, by simp⟩
    have hs := WritesOnly.decTouch (s := s) (t := { s with decRange := 0xFFFFFFFF, decCode := 0, incnt := 0 }) hd (.inr rfl) rfl
    exact hs.trans (loadCode_writesOnly hd (by simp [mayWrite]) h)
  | decodes _ hw =>
    obtain ⟨hd, hr, hc⟩ := mayWrite_of_decodeWalkOf hw
    exact runWalk_writesOnly hd hr hc h
  | decEnd => cases h; exact (WritesOnly.setMode (by simp [mayWrite]) _).trans .idle

/-! ### How a command leaves FAULT, BUSY and the hold -/

/-- FAULT and FAULTINFO are as before, or the command raised and returned nothing (60_exceptions.md R230, R239). -/
def Recorded (s t : State) : Prop :=
  t.fault = s.fault ∧ t.faultInfo = s.faultInfo ∨
    s.fault = .none ∧ t.faultInfo = s.latW ∧ t.res = s.res ∧
      t.fault ∈ [FaultCode.operand, .mode, .config, .truncated, .probValue]

/-- The command ended. -/
def Ended (t : State) : Prop := t.task = none ∧ t.busy = false ∧ t.outWait = false

theorem ended_idle (s : State) : Ended s.idle := ⟨rfl, rfl, rfl⟩

/-- A decoding command writes neither FAULT nor RES before it ends. -/
theorem Recorded.of_decTouch {s u t : State} (hu : decTouch s u) (h : Recorded u t) : Recorded s t := by
  rw [hu] at h; exact h

theorem recorded_raise {c : FaultCode} (hc : c ∈ [FaultCode.operand, .mode, .config, .truncated, .probValue]) {s t : State}
    (h : raise c s = .next t) : Recorded s t ∧ Ended t := by
  rw [raise_eq_next] at h; subst h
  refine ⟨?_, ended_idle _⟩
  by_cases hf : s.fault = .none
  · rw [State.record_of_none hf]; exact .inr ⟨hf, rfl, rfl, hc⟩
  · rw [State.record_of_some hf]; exact .inl ⟨rfl, rfl⟩

theorem recorded_starve {k : Task} {s t : State} (h : starve k s = .next t) :
    Recorded s t ∧ (Ended t ∨ t.outWait = s.outWait) := by
  unfold starve at h
  split at h
  · exact (recorded_raise (by simp) h).imp_right .inl
  · cases h; exact ⟨.inl ⟨rfl, rfl⟩, .inr rfl⟩

/-- A command ends, or it decodes and holds. -/
theorem exec_ends {i : Instr} {s t : State} (h : exec i s = .next t) :
    Recorded s t ∧ (Ended t ∨ mayWrite i .decoder ∧ t.outWait = s.outWait) := by
  have g := exec_goes i s
  generalize exec i s = o at g h
  have starved {k : Task} {u : State} (hd : mayWrite i .decoder) (hu : decTouch s u) (hs : starve k u = .next t) :
      Recorded s t ∧ (Ended t ∨ mayWrite i .decoder ∧ t.outWait = s.outWait) := by
    obtain ⟨hr, he⟩ := recorded_starve hs
    exact ⟨hr.of_decTouch hu, he.imp_right fun ho => ⟨hd, by rw [ho, hu]⟩⟩
  cases g with
  | refusedOperands c hc =>
    refine (recorded_raise ?_ h).imp_right .inl
    rcases hc with rfl | rfl | rfl <;> decide
  | wrongMode => exact (recorded_raise (by decide) h).imp_right .inl
  | encodes =>
    obtain ⟨u, -, hu, rfl⟩ := encodeAlong_frame h
    exact ⟨.inl (by rw [hu]; exact ⟨rfl, rfl⟩), .inl (ended_idle u)⟩
  | encodesDirect =>
    obtain ⟨u, hu, rfl⟩ := finishEncode_eq_next.mp h
    exact ⟨.inl (by rw [(encodeDirect_touch hu).1]; exact ⟨rfl, rfl⟩), .inl (ended_idle u)⟩
  | encFlush => cases h; exact ⟨.inl (by simp [State.idle]), .inl (ended_idle _)⟩
  | loads =>
    obtain ⟨u, hu, -, rfl | ⟨k, -, hs⟩⟩ := loadCode_frame h
    · exact ⟨.inl (by rw [hu]; exact ⟨rfl, rfl⟩), .inl (ended_idle _)⟩
    · exact starved ⟨0, by simp⟩ (decTouch.trans (by rfl) hu) hs
  | decodes _ hw =>
    rcases runWalk_frame h with ⟨v, u, hu, rfl⟩ | ⟨k, w', u, hu, -, -, hs⟩
    · exact ⟨.inl (by rw [hu]; exact ⟨rfl, rfl⟩), .inl (ended_idle _)⟩
    · exact starved (mayWrite_of_decodeWalkOf hw).1 hu hs
  | _ => cases h; exact ⟨.inl ⟨rfl, rfl⟩, .inl (ended_idle _)⟩

end Sys2Proof.Machine

open Sys2Proof Sys2Proof.Machine

/-- Settles O55: `exec_writesOnly` group by group, and `exec_ends` for FAULT, BUSY and the hold. -/
theorem commandsWriteOnlyTheirRegisters : Obligations.CommandsWriteOnlyTheirRegisters := by
  unfold Obligations.CommandsWriteOnlyTheirRegisters
  intro i s t h
  have kept (g : RegGroup) (hg : ¬ mayWrite i g) : g.same s t := (exec_writesOnly h g).resolve_left hg
  obtain ⟨hrec, hend⟩ := exec_ends h
  obtain ⟨hA, hV, heoi, hcfg, hhost, hreads, hidx, hfree⟩ := kept .hostSide not_false
  refine ⟨⟨hA, hV, heoi, hcfg, hhost, hreads, hidx, hfree, fun ho => ?_⟩, kept .state, kept .props, kept .mode,
    fun hi => kept .res (not_exists.mpr hi), fun hi => kept .encoder (not_exists.mpr hi), fun hi => ?_,
    fun hi => kept .cells (not_exists.mpr hi), hrec⟩
  · rcases hend with ⟨-, -, ho'⟩ | ⟨-, ho'⟩
    · exact ho'
    · exact ho'.trans ho
  · have hd := not_exists.mpr hi
    obtain ⟨hr, hc, hn, hq⟩ := kept .decoder hd
    obtain ⟨ht, hb, -⟩ := hend.resolve_right fun hw => hd hw.1
    exact ⟨hr, hc, hn, hq, ht, hb⟩
end

section
/-! SUPPORT, then the settled statements. Which bus accesses the model refuses, and that nothing else is refused
(spec/20_memory.md R65). -/

namespace Sys2Proof.Machine

/-! ### Refused accesses -/

/-- An access is refused outside the window, and inside it unless it is 32 bits wide at a multiple of 4. -/
theorem windowOffset_eq_error {c : Config} {addr width : Nat} {r : Refusal} :
    windowOffset c addr width = .error r ↔
      r = .outsideWindow ∧ (addr < c.rccBase ∨ c.rccBase + 0x100 ≤ addr) ∨
        r = .badAccess ∧ c.rccBase ≤ addr ∧ addr < c.rccBase + 0x100 ∧ (width ≠ 4 ∨ (addr - c.rccBase) % 4 ≠ 0) := by
  unfold windowOffset
  split_ifs with hout hok
  · constructor
    · rintro ⟨⟩; exact .inl ⟨rfl, hout⟩
    · rintro (⟨rfl, -⟩ | ⟨-, hlo, hhi, -⟩)
      · rfl
      · omega
  · simp [hout, hok]
  · constructor
    · rintro ⟨⟩; exact .inr ⟨rfl, by omega, by omega, not_and_or.mp hok⟩
    · rintro (⟨-, ho⟩ | ⟨rfl, -⟩)
      · exact absurd ho hout
      · rfl

/-- An access at an offset of the window of another width or alignment is refused. -/
theorem windowOffset_badAccess {c : Config} {off width : Nat} (ho : off < 0x100) (hw : width ≠ 4 ∨ off % 4 ≠ 0) :
    windowOffset c (c.rccBase + off) width = .error .badAccess :=
  windowOffset_eq_error.mpr (.inr ⟨rfl, by omega, by omega, by rwa [Nat.add_sub_cancel_left]⟩)

theorem runLaunched_ne_refused (w : Word) (s : State) (r : Refusal) : runLaunched w s ≠ .refused r := by
  unfold runLaunched
  split
  · exact exec_ne_refused _ s r
  · exact raise_ne_refused

theorem writeCommand_ne_refused (w : Word) (s : State) (r : Refusal) : writeCommand w s ≠ .refused r := by
  unfold writeCommand
  split_ifs
  · simp
  · simp
  · exact runLaunched_ne_refused w _ r

/-- A host action is refused only where its access does not reach a register. -/
theorem hostAction_eq_refused {act : HostAct} {s : State} {r : Refusal} (h : hostAction act s = .refused r) :
    ∃ addr width, ((∃ w, act = .write addr width w) ∨ act = .read addr width) ∧
      windowOffset s.cfg addr width = .error r := by
  cases act with
  | write addr width v =>
    simp only [hostAction] at h
    split at h
    · split_ifs at h
      exact absurd h (writeCommand_ne_refused v s r)
    · rename_i hw; cases h; exact ⟨addr, width, .inl ⟨v, rfl⟩, hw⟩
  | read addr width =>
    simp only [hostAction] at h
    split at h
    · cases h
    · rename_i hw; cases h; exact ⟨addr, width, .inr rfl, hw⟩
  | offer bs => cases h
  | wait => cases h
  | hardReset => cases h

theorem hostTurn_eq_refused {s : State} {r : Refusal} (h : hostTurn s = .refused r) :
    ∃ act rest, s.host = act :: rest ∧ hostAction act { s with host := rest } = .refused r := by
  unfold hostTurn at h
  split at h
  · cases h
  · exact ⟨_, _, by assumption, h⟩

/-- A step is refused only on the host's turn: a held command that goes on answers a next state. -/
theorem step_eq_refused {s : State} {r : Refusal} (h : step s = .refused r) :
    ∃ act rest, s.host = act :: rest ∧ hostAction act { s with host := rest } = .refused r := by
  unfold step advance at h
  split at h
  · rename_i k _
    split_ifs at h
    · obtain ⟨t, ht⟩ := resume_next k s
      rw [ht] at h; cases h
    · exact hostTurn_eq_refused h
  · exact hostTurn_eq_refused h

end Sys2Proof.Machine

open Sys2Proof Sys2Proof.Machine

/-- Settles O16: a refused step is a refused host action, and that is an access that reaches no register. -/
theorem refusedOnlyForBusAccess : Obligations.RefusedOnlyForBusAccess := by
  unfold Obligations.RefusedOnlyForBusAccess
  intro s r h
  obtain ⟨act, rest, hh, hr⟩ := step_eq_refused h
  obtain ⟨addr, width, hact, hw⟩ := hostAction_eq_refused hr
  refine ⟨addr, width, by simpa [hh] using hact, ?_⟩
  exact (windowOffset_eq_error.mp hw).symm.imp_left fun ⟨hb, _, _, hbad⟩ => ⟨hb, hbad⟩

/-- Settles O15: on the host's turn the access finds no offset, whether it writes or reads. -/
theorem badAccessRefused : Obligations.BadAccessRefused := by
  unfold Obligations.BadAccessRefused
  intro s rest off width w h ho hw hh
  have hoff := windowOffset_badAccess (c := s.cfg) ho hw
  rcases hh with hh | hh <;> rw [step_act h hh] <;> simp only [hostAction, hoff]
end

section
/-! SUPPORT, then the settled statement. EOI beside a hold: what a command does with EOI = 1 where it holds with EOI = 0
(spec/20_memory.md R61, spec/42_range_decoder.md R149). -/

namespace Sys2Proof.Machine

/-! ### EOI is read only where the bytes run out -/

/-- EOI <- 1, the effect of CTRL.SET_EOI (10_state.md R37). -/
def State.endInput (s : State) : State := { s with eoi := true }

theorem renormOver_endInput (q : List Byte) (s : State) :
    renormOver q s.endInput = ((renormOver q s).1, (renormOver q s).2.endInput) := by
  induction q generalizing s with
  | nil => rfl
  | cons b q ih =>
    have hr : s.endInput.decRange = s.decRange := rfl
    simp only [renormOver, hr]
    split_ifs
    · rfl
    · exact ih (s.renormByte b q)

theorem renormD_endInput (s : State) : s.endInput.renormD = (s.renormD.1, s.renormD.2.endInput) :=
  renormOver_endInput s.inQueue s

theorem decodeSplit_endInput (s : State) (a : Nat) :
    s.endInput.decodeSplit a = ((s.decodeSplit a).1, (s.decodeSplit a).2.endInput) := by
  have hr : s.endInput.decRange = s.decRange := rfl
  have hc : s.endInput.decCode = s.decCode := rfl
  have hp : s.endInput.cell a = s.cell a := rfl
  simp only [State.decodeSplit, hr, hc, hp]
  split_ifs <;> rfl

theorem decodeHalf_endInput (s : State) : s.endInput.decodeHalf = (s.decodeHalf.1, s.decodeHalf.2.endInput) := by
  have hr : s.endInput.decRange = s.decRange := rfl
  have hc : s.endInput.decCode = s.decCode := rfl
  simp only [State.decodeHalf, hr, hc]
  split_ifs <;> rfl

theorem walkSplit_endInput (w : Walk) (s : State) : w.split s.endInput = ((w.split s).1, (w.split s).2.endInput) := by
  unfold Walk.split
  split
  · exact decodeSplit_endInput s _
  · exact decodeHalf_endInput s

/-! ### Where a hold becomes a Truncated fault -/

/-- Where the answer `o` is a hold, `o'` raises Truncated on the state of that hold with EOI set. -/
def TruncatesWhereHolds (o o' : Out) : Prop :=
  ∀ t k, o = .next t → t.task = some k → o' = raise .truncated t.endInput

/-- What a command held with is gone when it raises. -/
theorem raise_hold (c : FaultCode) (s : State) (k : Task) : raise c (s.hold k) = raise c s := by
  unfold raise
  by_cases h : s.fault = .none
  · rw [State.record_of_none h, State.record_of_none (s := s.hold k) h]; rfl
  · rw [State.record_of_some h, State.record_of_some (s := s.hold k) h]; rfl

/-- A command that completes or raises does not hold. -/
theorem TruncatesWhereHolds.complete (s : State) (o' : Out) : TruncatesWhereHolds (complete s) o' := by
  intro t k h hk
  rw [complete_eq_next] at h; subst h; cases hk

/-- A check that reads no EOI goes the same way on both sides. -/
theorem TruncatesWhereHolds.ite {P : Prop} [Decidable P] {a b a' b' : Out} (ha : TruncatesWhereHolds a a')
    (hb : TruncatesWhereHolds b b') : TruncatesWhereHolds (if P then a else b) (if P then a' else b') := by
  split_ifs
  · exact ha
  · exact hb

theorem TruncatesWhereHolds.starve (k : Task) (s : State) : TruncatesWhereHolds (starve k s) (starve k s.endInput) := by
  intro t k' h hk
  rcases starve_eq_next.mp h with ⟨-, rfl⟩ | ⟨-, rfl⟩
  · cases hk
  · exact (raise_hold .truncated s.endInput k).symm

theorem TruncatesWhereHolds.runWalk (n : Nat) (w : Walk) (s : State) :
    TruncatesWhereHolds (runWalk n w s) (runWalk n w s.endInput) := by
  induction n generalizing w s with
  | zero => exact .complete _ _
  | succ n ih =>
    simp only [Machine.runWalk, walkSplit_endInput, renormD_endInput]
    exact .ite (ih _ _) (.starve _ _)

theorem TruncatesWhereHolds.loadCode (n : Nat) (s : State) : TruncatesWhereHolds (loadCode n s) (loadCode n s.endInput) := by
  induction n generalizing s with
  | zero => exact .complete _ _
  | succ n ih =>
    have hq : s.endInput.inQueue = s.inQueue := rfl
    simp only [Machine.loadCode, hq]
    cases s.inQueue with
    | nil => exact .starve _ _
    | cons b q => exact ih _

/-- A decoding command: its checks of MODE and operands, then its walk. -/
theorem TruncatesWhereHolds.guarded {m : Mode} {P : Prop} [Decidable P] {s : State} {k k' : Out} (hk : TruncatesWhereHolds k k') :
    TruncatesWhereHolds (if s.mode ≠ m then raise .mode s else if ¬ P then raise .operand s else k)
      (if s.mode ≠ m then raise .mode s.endInput else if ¬ P then raise .operand s.endInput else k') :=
  .ite (.complete _ _) (.ite (.complete _ _) hk)

/-- Where a command holds, it raises Truncated with EOI = 1. Only the commands that decode can hold. -/
theorem exec_truncatesWhereHolds (i : Instr) (s : State) : TruncatesWhereHolds (exec i s) (exec i s.endInput) := by
  intro t k h hk
  obtain ⟨-, ⟨hnone, -⟩ | ⟨hd, -⟩⟩ := exec_ends h
  · rw [hnone] at hk; cases hk
  suffices hgo : TruncatesWhereHolds (exec i s) (exec i s.endInput) from hgo t k h hk
  cases i with
  | decInit =>
    exact .ite (.complete _ _) (.loadCode 5 { s with decRange := 0xFFFFFFFF, decCode := 0, incnt := 0 })
  | decBit => exact .guarded (.runWalk _ _ _)
  | decDirect n => exact .guarded (.runWalk _ _ _)
  | decBt n => exact .guarded (.runWalk _ _ _)
  | decBtr n => exact .guarded (.runWalk _ _ _)
  | decLit => exact .guarded (.runWalk _ _ _)
  | decLitm => exact .guarded (.runWalk _ _ _)
  | _ => simp [mayWrite] at hd

/-- Lifting a hold by CTRL.SET_EOI: the write sets EOI, and the very next step raises Truncated on the state of the hold. -/
theorem step_setEoi_of_hold {s : State} {k : Task} {rest : List HostAct} (h : s.Inv) (hk : s.task = some k) (hq : s.inQueue = [])
    (he : s.eoi = false) (hh : s.host = .write (s.cfg.rccBase + 0x14) 4 4 :: rest) :
    step s = .next { s with host := rest, eoi := true } ∧
      step { s with host := rest, eoi := true } = raise .truncated { s with host := rest, eoi := true } := by
  have hmoves : s.hostMoves := .inr (by simp [State.canGoOn, hq, he])
  have hinv : State.Inv { s with host := rest, eoi := true } := hostTouch.inv rfl h
  constructor
  · rw [step_write hmoves (by decide) (by decide) (by decide) hh]
    rfl
  · rw [step_resume (s := { s with host := rest, eoi := true }) hk (by simp [State.canGoOn])]
    exact resume_eoi hk (hinv.task k hk) hq rfl

end Sys2Proof.Machine

open Sys2Proof Sys2Proof.Machine

/-- Settles O44: `step_setEoi_of_hold` at the step, and for a command `exec_truncatesWhereHolds`, which needs neither EOI = 0 nor
that nothing held before. -/
theorem truncatedEndsWhereHoldWaits : Obligations.TruncatedEndsWhereHoldWaits := by
  unfold Obligations.TruncatedEndsWhereHoldWaits
  exact ⟨fun s k rest h hk hq he hh => step_setEoi_of_hold h hk hq he hh,
    fun i s t k _ _ h hk => exec_truncatesWhereHolds i s t k h hk⟩
end

section
/-! SUPPORT, then the settled statements. The fields of a command word, and that the opcode map and the encoding of a command are
inverse to each other (spec/30_encoding.md R80, R81, R83, R86). -/

namespace Sys2Proof

/-! ### The command word as a number -/

/-- The word with OP and N in their fields and every reserved bit 0 (30_encoding.md R80). -/
def commandWord (op n : Nat) : Word := BitVec.ofNat 32 (op ||| n <<< 8)

theorem encode_eq_commandWord (i : Instr) : encode i = commandWord i.opcode (i.bitCount.getD 0) := rfl

theorem opField_eq (w : Word) : opField w = w.toNat % 64 := by
  simp [opField, BitVec.extractLsb'_toNat]

theorem countField_eq (w : Word) : countField w = w.toNat / 256 % 64 := by
  simp [countField, BitVec.extractLsb'_toNat, Nat.shiftRight_eq_div_pow]

theorem opField_lt (w : Word) : opField w < 64 := (w.extractLsb' 0 6).isLt

theorem countField_lt (w : Word) : countField w < 64 := (w.extractLsb' 8 6).isLt

theorem reservedClear_iff (w : Word) : reservedClear w = true ↔ w.extractLsb' 6 2 = 0 ∧ w.extractLsb' 14 18 = 0 := by
  simp [reservedClear]

/-- The reserved bits are 0 exactly where the number has nothing but OP and N. -/
theorem reservedClear_iff_toNat (w : Word) : reservedClear w = true ↔ w.toNat = opField w + 256 * countField w := by
  have hw : w.toNat < 2 ^ 32 := w.isLt
  simp only [reservedClear_iff, opField_eq, countField_eq, BitVec.toNat_eq, BitVec.extractLsb'_toNat,
    Nat.shiftRight_eq_div_pow, BitVec.ofNat_eq_ofNat, BitVec.toNat_ofNat, Nat.zero_mod]
  omega

theorem commandWord_toNat {op n : Nat} (ho : op < 64) (hn : n < 64) : (commandWord op n).toNat = op + 256 * n := by
  have hor : op ||| n <<< 8 = n <<< 8 + op := by
    rw [Nat.or_comm, Nat.shiftLeft_add_eq_or_of_lt (show op < 2 ^ 8 by omega)]
  rw [commandWord, hor, BitVec.toNat_ofNat, Nat.shiftLeft_eq]
  omega

theorem opField_commandWord {op n : Nat} (ho : op < 64) (hn : n < 64) : opField (commandWord op n) = op := by
  rw [opField_eq, commandWord_toNat ho hn]; omega

theorem countField_commandWord {op n : Nat} (ho : op < 64) (hn : n < 64) : countField (commandWord op n) = n := by
  rw [countField_eq, commandWord_toNat ho hn]; omega

theorem reservedClear_commandWord {op n : Nat} (ho : op < 64) (hn : n < 64) : reservedClear (commandWord op n) = true := by
  rw [reservedClear_iff_toNat, opField_commandWord ho hn, countField_commandWord ho hn, commandWord_toNat ho hn]

/-- A word whose reserved bits are 0 is the word of its fields. -/
theorem commandWord_fields {w : Word} (h : reservedClear w = true) : commandWord (opField w) (countField w) = w := by
  apply BitVec.eq_of_toNat_eq
  rw [commandWord_toNat (opField_lt w) (countField_lt w), ← (reservedClear_iff_toNat w).mp h]

theorem decode_commandWord {op n : Nat} (ho : op < 64) (hn : n < 64) : decode (commandWord op n) = decodeOp op n := by
  rw [decode, if_pos (reservedClear_commandWord ho hn), opField_commandWord ho hn, countField_commandWord ho hn]

/-! ### The opcode map -/

theorem Instr.wf_iff (i : Instr) : i.wf = true ↔ i.bitCount.getD 0 < 64 := by
  unfold Instr.wf
  cases i.bitCount <;> simp

/-- The law of the fields, for all 36 commands. -/
theorem fields_statement : ∀ i : Instr, Laws.Fields.Statement i
  | .nop => Laws.Fields.nop
  | .setProps => Laws.Fields.setProps
  | .probInit => Laws.Fields.probInit
  | .probWrite => Laws.Fields.probWrite
  | .probRead => Laws.Fields.probRead
  | .encInit => Laws.Fields.encInit
  | .encBit => Laws.Fields.encBit
  | .encDirect n => Laws.Fields.encDirect n
  | .encFlush => Laws.Fields.encFlush
  | .encBt n => Laws.Fields.encBt n
  | .encBtr n => Laws.Fields.encBtr n
  | .encLit => Laws.Fields.encLit
  | .encLitm => Laws.Fields.encLitm
  | .decInit => Laws.Fields.decInit
  | .decBit => Laws.Fields.decBit
  | .decDirect n => Laws.Fields.decDirect n
  | .decEnd => Laws.Fields.decEnd
  | .decBt n => Laws.Fields.decBt n
  | .decBtr n => Laws.Fields.decBtr n
  | .decLit => Laws.Fields.decLit
  | .decLitm => Laws.Fields.decLitm
  | .priceBit => Laws.Fields.priceBit
  | .priceBt n => Laws.Fields.priceBt n
  | .priceBtr n => Laws.Fields.priceBtr n
  | .priceLit => Laws.Fields.priceLit
  | .priceLitm => Laws.Fields.priceLitm
  | .stReset => Laws.Fields.stReset
  | .stLit => Laws.Fields.stLit
  | .stMatch => Laws.Fields.stMatch
  | .stRep => Laws.Fields.stRep
  | .stShortRep => Laws.Fields.stShortRep
  | .stIsChar => Laws.Fields.stIsChar
  | .stRead => Laws.Fields.stRead
  | .ctxLit => Laws.Fields.ctxLit
  | .ctxPosState => Laws.Fields.ctxPosState
  | .ctxStPos => Laws.Fields.ctxStPos

theorem decode_encode {i : Instr} (h : i.wf = true) : decode (encode i) = .ok i := by
  obtain ⟨hop, hcount, hmap⟩ := fields_statement i
  rw [encode_eq_commandWord, decode_commandWord hop (hcount h), hmap]

/-- A command without N is read from N = 0 alone. -/
theorem fields_of_withoutCount {i j : Instr} {n : Nat} (hi : i.bitCount = none) (h : withoutCount i n = .ok j) :
    j.opcode = i.opcode ∧ j.bitCount.getD 0 = n := by
  unfold withoutCount at h
  split_ifs at h with hn
  cases h
  exact ⟨rfl, by rw [hi, hn]; rfl⟩

@[simp] theorem withoutCount_illegal {i : Instr} {n : Nat} : (∃ e, withoutCount i n = .illegal e) ↔ n ≠ 0 := by
  unfold withoutCount
  split_ifs with h <;> simp [h]

/-- The command the opcode map reads has the OP and the N it was read from: the converse of the law of the fields. -/
theorem fields_of_decodeOp {op n : Nat} {i : Instr} (h : decodeOp op n = .ok i) : i.opcode = op ∧ i.bitCount.getD 0 = n := by
  unfold decodeOp at h
  split at h
  -- The eight rows that use N keep it (R83); a reserved OP gives no command; the other rows are read from N = 0.
  case h_8 | h_10 | h_11 | h_16 | h_18 | h_19 | h_23 | h_24 => cases h; exact ⟨rfl, rfl⟩
  case h_37 => cases h
  all_goals exact fields_of_withoutCount rfl h

/-- The OP values of the table of R86. -/
def tableOps : List Nat :=
  [0x00, 0x01, 0x02, 0x03, 0x04, 0x08, 0x09, 0x0A, 0x0B, 0x0C, 0x0D, 0x0E, 0x0F, 0x10, 0x11, 0x12, 0x13, 0x14,
    0x15, 0x16, 0x17, 0x18, 0x1C, 0x1D, 0x1E, 0x1F, 0x20, 0x21, 0x22, 0x23, 0x24, 0x25, 0x26, 0x28, 0x29, 0x2A]

/-- The OP values of the commands that use N (30_encoding.md R83). -/
def countOps : List Nat := [0x0A, 0x0C, 0x0D, 0x12, 0x14, 0x15, 0x1C, 0x1D]

/-- What the opcode map refuses: an OP outside the table, and an N of a command that does not use it. -/
theorem decodeOp_illegal {op n : Nat} :
    (∃ e, decodeOp op n = .illegal e) ↔ op ∉ tableOps ∨ (op ∉ countOps ∧ n ≠ 0) := by
  -- Row by row: a row with N refuses nothing, another row every N but 0, and past the rows OP is none of the table.
  unfold decodeOp
  split <;> simp_all [tableOps, countOps]

/-! ### Legal and Illegal words -/

theorem decode_eq_ok {w : Word} {i : Instr} (h : decode w = .ok i) :
    i.opcode = opField w ∧ i.bitCount.getD 0 = countField w ∧ encode i = w := by
  unfold decode at h
  split_ifs at h with hc
  obtain ⟨hop, hn⟩ := fields_of_decodeOp h
  exact ⟨hop, hn, by rw [encode_eq_commandWord, hop, hn, commandWord_fields hc]⟩

theorem decode_illegal {w : Word} :
    (∃ e, decode w = .illegal e) ↔
      reservedClear w = false ∨ opField w ∉ tableOps ∨ (opField w ∉ countOps ∧ countField w ≠ 0) := by
  unfold decode
  cases reservedClear w
  · simp
  · simpa using decodeOp_illegal

end Sys2Proof

open Sys2Proof Sys2Proof.Machine

/-- Settles O1: the fields of the word are the command's OP and N, and the opcode map reads the command back from them. -/
theorem decodeOfEncode : Obligations.DecodeOfEncode := by
  unfold Obligations.DecodeOfEncode
  exact fun _ h => decode_encode h

/-- Settles O2: Illegal by `decode_illegal`, clause by clause; a legal word has the fields of its command and nothing else. -/
theorem illegalWordsExactly : Obligations.IllegalWordsExactly := by
  unfold Obligations.IllegalWordsExactly
  constructor
  · intro w
    have hres : reservedClear w = false ↔ w.extractLsb' 6 2 ≠ 0 ∨ w.extractLsb' 14 18 ≠ 0 := by
      rw [← Bool.not_eq_true, reservedClear_iff, not_and_or]
    have hn : countField w ≠ 0 ↔ w.extractLsb' 8 6 ≠ 0 := not_congr (BitVec.toNat_eq (y := 0)).symm
    rw [decode_illegal, hres, hn, or_assoc]
    rfl
  · intro w i h
    obtain ⟨hop, hn, hw⟩ := decode_eq_ok h
    refine ⟨hop, fun n hi => ?_, ?_, hw⟩
    · rw [Option.mem_def.mp hi] at hn; exact hn
    · rw [Instr.wf_iff, hn]; exact countField_lt w

/-- Settles O3: each word is decoded. -/
theorem sampleWordsDecode : Obligations.SampleWordsDecode := by
  unfold Obligations.SampleWordsDecode
  decide
end

section
/-! SUPPORT, then the settled statements. A command word that the core accepts (spec/30_encoding.md R82). -/

namespace Sys2Proof.Machine

/-- With BUSY = 0 and FAULT = 0 a word written to CMD_W is accepted and run. -/
theorem step_launches {s : State} (h : s.hostMoves) {rest : List HostAct} {w : Word}
    (hh : s.host = .write s.cfg.rccBase 4 w :: rest) (hb : s.busy = false) (hf : s.fault = .none) :
    step s = runLaunched w (State.launch { s with host := rest } w) := by
  rw [step_command h hh]
  simp [writeCommand, hb, hf]

theorem runLaunched_of_ok {w : Word} {i : Instr} (h : decode w = .ok i) (s : State) : runLaunched w s = exec i s := by
  rw [runLaunched, h]

theorem runLaunched_of_illegal {w : Word} {e : DecodeError} (h : decode w = .illegal e) (s : State) :
    runLaunched w s = raise .illegal s := by
  rw [runLaunched, h]

end Sys2Proof.Machine

open Sys2Proof Sys2Proof.Machine

/-- Settles O4: the state launched is the one the statement writes out. -/
theorem stepRunsDecodedCommand : Obligations.StepRunsDecodedCommand := by
  unfold Obligations.StepRunsDecodedCommand
  intro s rest w i h hh hb hf hd
  rw [step_launches h hh hb hf, runLaunched_of_ok hd]
  rfl

/-- Settles O5: no fault is pending, so Illegal is recorded with the latched word, and the command ends. -/
theorem illegalWordFaults : Obligations.IllegalWordFaults := by
  unfold Obligations.IllegalWordFaults
  rintro s rest w h hh hb hf ⟨e, hd⟩
  have hl : (State.launch { s with host := rest } w).fault = .none := hf
  rw [step_launches h hh hb hf, runLaunched_of_illegal hd, raise_eq_next, State.record_of_none hl]
  rfl
end

section
/-! SUPPORT, then the settled statements. The checks of MODE and of the operands (spec/30_encoding.md R83 to R85). -/

namespace Sys2Proof.Machine

/-! ### The check of MODE -/

theorem modeNeeded_eq_idle {i : Instr} : modeNeeded i = some .idle ↔ i ∈ [Instr.setProps, .encInit, .decInit] := by
  cases i <;> simp [modeNeeded]

theorem modeNeeded_eq_enc {i : Instr} :
    modeNeeded i = some .enc ↔ ∃ n, i ∈ [Instr.encBit, .encDirect n, .encFlush, .encBt n, .encBtr n, .encLit, .encLitm] := by
  cases i <;> simp [modeNeeded]

theorem modeNeeded_eq_dec {i : Instr} :
    modeNeeded i = some .dec ↔ ∃ n, i ∈ [Instr.decBit, .decDirect n, .decEnd, .decBt n, .decBtr n, .decLit, .decLitm] := by
  cases i <;> simp [modeNeeded]

/-- The check of MODE is the first thing a command that needs one does (R84). -/
theorem exec_of_wrongMode {i : Instr} {s : State} {m : Mode} (hn : modeNeeded i = some m) (hm : s.mode ≠ m) :
    exec i s = raise .mode s := by
  -- A command that needs no MODE is no case; in every other the check is the outermost one.
  cases i <;> cases hn <;> exact if_pos hm

/-- How a command can leave FAULT: as it was, or raised by the check of MODE, by another check, or where the bytes ran out. -/
theorem exec_fault_cases {i : Instr} {s t : State} (h : exec i s = .next t) :
    t.fault = s.fault ∨ (∃ m, modeNeeded i = some m ∧ s.mode ≠ m ∧ raise .mode s = .next t) ∨
      (∃ c, (c = .operand ∨ c = .config ∨ c = .probValue) ∧ raise c s = .next t) ∨
      ∃ u, decTouch s u ∧ raise .truncated u = .next t := by
  have g := exec_goes i s
  generalize exec i s = o at g h
  have starved {k : Task} {u : State} (hu : decTouch s u) (hs : starve k u = .next t) :
      t.fault = s.fault ∨ ∃ u, decTouch s u ∧ raise .truncated u = .next t := by
    rcases starve_eq_next.mp hs with ⟨-, rfl⟩ | ⟨-, rfl⟩
    · exact .inr ⟨u, hu, rfl⟩
    · exact .inl (by rw [hu]; rfl)
  cases g with
  | refusedOperands c hc => exact .inr (.inr (.inl ⟨c, hc, h⟩))
  | wrongMode m hn hm => exact .inr (.inl ⟨m, hn, hm, h⟩)
  | encodes =>
    obtain ⟨u, -, hu, rfl⟩ := encodeAlong_frame h
    exact .inl (by rw [hu]; rfl)
  | encodesDirect =>
    obtain ⟨u, hu, rfl⟩ := finishEncode_eq_next.mp h
    exact .inl (by rw [(encodeDirect_touch hu).1]; rfl)
  | encFlush => cases h; exact .inl (by simp)
  | loads =>
    obtain ⟨u, hu, -, rfl | ⟨k, -, hs⟩⟩ := loadCode_frame h
    · exact .inl (by rw [hu]; rfl)
    · exact (starved (decTouch.trans (by rfl) hu) hs).imp_right fun hd => .inr (.inr hd)
  | decodes =>
    rcases runWalk_frame h with ⟨v, u, hu, rfl⟩ | ⟨k, w, u, hu, -, -, hs⟩
    · exact .inl (by rw [hu]; rfl)
    · exact (starved hu hs).imp_right fun hd => .inr (.inr hd)
  | _ => cases h; exact .inl rfl

/-- With no fault pending, raising leaves the code that was raised. -/
theorem fault_of_raise {c : FaultCode} {s t : State} (hs : s.fault = .none) (h : raise c s = .next t) : t.fault = c := by
  rw [raise_eq_next, State.record_of_none hs] at h
  rw [h]; rfl

/-- Mode is raised by the check of MODE alone. -/
theorem wrongMode_of_fault {i : Instr} {s t : State} (h : exec i s = .next t) (hs : s.fault = .none) (ht : t.fault = .mode) :
    ∃ m, modeNeeded i = some m ∧ s.mode ≠ m := by
  rcases exec_fault_cases h with hf | ⟨m, hn, hm, -⟩ | ⟨c, hc, hr⟩ | ⟨u, hu, hr⟩
  · rw [hs, ht] at hf; cases hf
  · exact ⟨m, hn, hm⟩
  · rw [← fault_of_raise hs hr, ht] at hc
    simp at hc
  · rw [fault_of_raise (by rw [hu]; exact hs) hr] at ht
    cases ht

/-! ### The checks of the operands -/

theorem guarded_operand {s : State} {m : Mode} {P : Prop} [Decidable P] {k : Out} (hm : s.mode = m) (hP : ¬ P) :
    (if s.mode ≠ m then raise .mode s else if ¬ P then raise .operand s else k) = raise .operand s := by
  rw [if_neg (not_not_intro hm), if_pos hP]

theorem not_treeOk_iff {s : State} {n : Nat} :
    ¬ s.treeOk n ↔ n < 1 ∨ 16 < n ∨ s.cfg.nprob < s.latA.toNat + 2 ^ n := by
  unfold State.treeOk treeCountOk State.treeInRam State.a
  omega

theorem not_treeSymbolOk_iff {s : State} {n : Nat} :
    ¬ s.treeSymbolOk n ↔ (n < 1 ∨ 16 < n ∨ s.cfg.nprob < s.latA.toNat + 2 ^ n) ∨ 2 ^ n ≤ s.latV.toNat := by
  rw [State.treeSymbolOk, not_and_or, not_treeOk_iff, State.valueFits, State.v, not_lt]

theorem not_literalInRam_iff {s : State} : ¬ s.literalInRam ↔ s.cfg.nprob < s.latA.toNat + 0x300 := not_le

theorem not_literalOk_iff {s : State} :
    ¬ s.literalOk ↔ s.cfg.nprob < s.latA.toNat + 0x300 ∨ 2 ^ 8 ≤ s.latV.toNat := by
  rw [State.literalOk, not_and_or, not_literalInRam_iff, State.valueFits, State.v, not_lt]

theorem not_matchedOk_iff {s : State} :
    ¬ s.matchedOk ↔ s.cfg.nprob < s.latA.toNat + 0x300 ∨ 2 ^ 16 ≤ s.latV.toNat := by
  rw [State.matchedOk, not_and_or, not_literalInRam_iff, State.valueFits, State.v, not_lt]

end Sys2Proof.Machine

open Sys2Proof Sys2Proof.Machine

/-- Settles O52: the commands listed are those that need the MODE, and Mode is raised exactly by that check. -/
theorem wrongModeRaisesMode : Obligations.WrongModeRaisesMode := by
  unfold Obligations.WrongModeRaisesMode
  refine fun s n => ⟨fun i hi hm => exec_of_wrongMode (modeNeeded_eq_idle.mpr hi) hm,
    fun i hi hm => exec_of_wrongMode (modeNeeded_eq_enc.mpr ⟨n, hi⟩) hm,
    fun i hi hm => exec_of_wrongMode (modeNeeded_eq_dec.mpr ⟨n, hi⟩) hm, fun i t h hs ht => ?_⟩
  obtain ⟨m, hn, hm⟩ := wrongMode_of_fault h hs ht
  cases m with
  | idle => exact .inl ⟨modeNeeded_eq_idle.mp hn, hm⟩
  | enc => exact .inr (.inl ((modeNeeded_eq_enc.mp hn).imp fun _ hi => ⟨hi, hm⟩))
  | dec => exact .inr (.inr ((modeNeeded_eq_dec.mp hn).imp fun _ hi => ⟨hi, hm⟩))

/-- Settles O53: the bad operands are those that fail the command's check. -/
theorem badOperandsRaiseOperand : Obligations.BadOperandsRaiseOperand := by
  unfold Obligations.BadOperandsRaiseOperand
  intro s n badTree badLit
  refine ⟨fun h => ?_, fun h hm => ?_, fun h => ?_, fun h => ?_, fun h hm => ?_⟩
  · have hok := not_treeSymbolOk_iff.mpr h
    exact ⟨fun hm => ⟨guarded_operand hm hok, guarded_operand hm hok⟩, if_pos hok, if_pos hok⟩
  · have hok := not_treeOk_iff.mpr h
    exact ⟨guarded_operand hm hok, guarded_operand hm hok⟩
  · have hok := not_literalOk_iff.mpr h
    exact ⟨fun hm => guarded_operand hm hok, if_pos hok⟩
  · have hok := not_matchedOk_iff.mpr h
    exact ⟨fun hm => guarded_operand hm hok, if_pos hok, fun hm => guarded_operand hm hok⟩
  · exact guarded_operand hm (not_literalInRam_iff.mpr h)
end

section
/-! SUPPORT, then the settled statements. Update, and the commands on the cells themselves (spec/40_probability.md R103 to R107). -/

namespace Sys2Proof.Machine

/-! ### Commands without N -/

theorem opcode_notMem_countOps {i : Instr} (h : i.bitCount = none) : i.opcode ∉ countOps := by
  revert h; cases i <;> simp [Instr.bitCount, Instr.opcode, countOps]

/-- The word of a command without N is its OP. -/
theorem encode_of_noCount {i : Instr} (h : i.bitCount = none) : encode i = BitVec.ofNat 32 i.opcode := by
  simp [encode, h]

/-- A command without N is encoded by its OP alone (30_encoding.md R81, R86). -/
theorem encodedAs_opcode {i : Instr} (h : i.bitCount = none) : encodedAs i i.opcode := by
  refine ⟨?_, fun w hop hn => decode_illegal.mpr (.inr (.inr ⟨hop ▸ opcode_notMem_countOps h, hn⟩))⟩
  rw [← encode_of_noCount h]
  exact decode_encode ((Instr.wf_iff i).mpr (by simp [h]))

/-! ### PROB_WRITE -/

/-- A legal V of PROB_WRITE loses nothing in the 11 bits of a cell. -/
theorem toNat_setWidth_cell {v : Word} (h : v.toNat ≤ 2047) : (v.setWidth 11).toNat = v.toNat := by
  rw [BitVec.toNat_setWidth]; exact Nat.mod_eq_of_lt (by omega)

theorem exec_probWrite_of_notInRam {s : State} (h : ¬ s.cellInRam) : exec .probWrite s = raise .operand s := if_pos h

theorem exec_probWrite_of_badValue {s : State} (ha : s.cellInRam) (hv : s.v < 1 ∨ 2047 < s.v) :
    exec .probWrite s = raise .probValue s :=
  (if_neg (not_not_intro ha)).trans (if_pos hv)

theorem exec_probWrite_of_ok {s : State} (ha : s.cellInRam) (hv : ¬ (s.v < 1 ∨ 2047 < s.v)) :
    exec .probWrite s = .next (s.setCell s.a (s.latV.setWidth 11)).idle :=
  (if_neg (not_not_intro ha)).trans (if_neg hv)

end Sys2Proof.Machine

open Sys2Proof Sys2Proof.Machine

/-- Settles O18: a legal cell is not 0, so that its new value is the rule's number and not a truncation of it. -/
theorem updateAdaptsOneCell : Obligations.UpdateAdaptsOneCell := by
  unfold Obligations.UpdateAdaptsOneCell
  intro s a bit h
  refine ⟨?_, fun b hb => State.cell_setCell_other s _ hb, rfl⟩
  rw [State.adaptCell, State.cell_setCell_same h.1]
  exact adapt_toNat (h.cell_ne_zero a) bit

/-- Settles O19: the cells that PROB_INIT takes off the list read as the reset value. -/
theorem probInitSetsRange : Obligations.ProbInitSetsRange := by
  unfold Obligations.ProbInitSetsRange
  exact ⟨encodedAs_opcode rfl, fun s =>
    ⟨fun h => ⟨_, if_pos h, rfl, Memory.read_init s.cells s.a s.v⟩, fun h => if_neg h⟩⟩

/-- Settles O20: the two checks in their order, then a write that loses none of V. -/
theorem probWriteSetsCell : Obligations.ProbWriteSetsCell := by
  unfold Obligations.ProbWriteSetsCell
  refine ⟨encodedAs_opcode rfl, fun s h => ⟨fun ha hlo hhi => ?_, fun ha => exec_probWrite_of_notInRam ha.not_gt,
    fun ha hv => exec_probWrite_of_badValue ha ?_⟩⟩
  · refine ⟨_, exec_probWrite_of_ok ha ?_, rfl, ?_, fun a hne => State.cell_setCell_other s _ hne⟩
    · unfold State.v; omega
    · exact (congrArg BitVec.toNat (State.cell_setCell_same h _ _)).trans (toNat_setWidth_cell hhi)
  · unfold State.v; omega

/-- Settles O21: the value of an 11-bit cell widened to 32 bits is the same number. -/
theorem probReadReturnsCell : Obligations.ProbReadReturnsCell := by
  unfold Obligations.ProbReadReturnsCell
  exact ⟨encodedAs_opcode rfl, fun s => ⟨fun h => by rw [BitVec.ofNat_toNat]; exact if_pos h, fun h => if_neg h.not_gt⟩⟩
end

section
/-! SUPPORT, then the settled statements. The price table and the price of a bit (spec/40_probability.md R108 to R110). -/

namespace Sys2Proof.Machine

/-! ### The price table -/

/-- One entry of the loop without its shifts. -/
theorem priceInRound_eq (shift i j : Nat) :
    priceInRound shift i j = i * 2 ^ shift + (2 ^ (9 - i) - j) * 2 ^ shift / 2 ^ (8 - i) := by
  simp only [priceInRound, Nat.shiftLeft_eq, Nat.shiftRight_eq_div_pow]

/-- No round fills index 0. -/
theorem priceFromRound_zero (shift k : Nat) : priceFromRound shift k 0 = 0 := by
  induction k with
  | zero => rfl
  | succ k ih =>
    have : ¬ 2 ^ (8 - k) ≤ 0 := (Nat.two_pow_pos _).not_ge
    rw [priceFromRound, if_neg fun h => this h.1, ih]

/-- Round `i` fills its own indices: a later round of the lookup, with larger `i`, fills smaller indices only. -/
theorem priceFromRound_of_mem {shift k i j : Nat} (hk : k ≤ 9) (hi : i < k) (hlo : 2 ^ (8 - i) ≤ j) (hhi : j < 2 ^ (9 - i)) :
    priceFromRound shift k j = priceInRound shift i j := by
  induction k with
  | zero => omega
  | succ k ih =>
    rw [priceFromRound]
    rcases Nat.lt_succ_iff_lt_or_eq.mp hi with hik | rfl
    · have hdisj : 2 ^ (9 - k) ≤ 2 ^ (8 - i) := Nat.pow_le_pow_right (by decide) (by omega)
      rw [if_neg (by omega), ih (by omega) hik]
    · rw [if_pos ⟨hlo, hhi⟩]

/-- The entry of the price table at an index of round `i`. -/
theorem priceTable_of_mem (shift : Nat) {i j : Nat} (hi : i ≤ 8) (hlo : 2 ^ (8 - i) ≤ j) (hhi : j < 2 ^ (9 - i)) :
    priceTable shift j = i * 2 ^ shift + (2 ^ (9 - i) - j) * 2 ^ shift / 2 ^ (8 - i) := by
  rw [priceTable, priceFromRound_of_mem le_rfl (by omega) hlo hhi, priceInRound_eq]

/-- For S = 4 the last entries of round 0 fall below 1. -/
theorem priceTable_last_eq_zero {j : Nat} (hlo : 497 ≤ j) (hhi : j ≤ 511) : priceTable 4 j = 0 := by
  rw [priceTable_of_mem 4 (i := 0) (by omega) (by omega) (by omega)]
  omega

/-! ### The price of a bit -/

theorem price_eq (shift : Nat) (p : Cell) (bit : Bool) :
    price shift p bit = priceTable shift ((if bit then 2048 - p.toNat else p.toNat) / 4) := by
  cases bit <;> simp [price, Nat.shiftRight_eq_div_pow]

/-- A legal V of a bit command is its bit. -/
theorem State.bitOperand_eq {s : State} (h : s.latV.toNat ≤ 1) : s.bitOperand = decide (s.latV.toNat ≠ 0) := by
  rw [State.bitOperand, BitVec.getLsbD, Nat.testBit_zero]
  exact decide_eq_decide.mpr (by omega)

theorem State.pricePath_singleton (s : State) (a : Nat) (bit : Bool) : s.pricePath [(a, bit)] = s.priceOf a bit := by
  simp [State.pricePath]

theorem exec_priceBit_of_ok {s : State} (h : s.bitOk) :
    exec .priceBit s = .next { s.idle with res := BitVec.ofNat 32 (s.priceOf s.a s.bitOperand) } := by
  rw [← State.pricePath_singleton]
  exact if_pos h

end Sys2Proof.Machine

open Sys2Proof Sys2Proof.Machine

/-- Settles O22: the rounds of the loop fill disjoint ranges of indices, and 0 is in none. -/
theorem priceTableConstruction : Obligations.PriceTableConstruction := by
  unfold Obligations.PriceTableConstruction
  refine ⟨fun shift => priceFromRound_zero shift 9, fun shift i j hi hlo hhi => ?_, by decide, by decide, by decide, by decide,
    by decide, by decide, by decide, by decide, fun j => priceTable_last_eq_zero⟩
  exact priceTable_of_mem shift hi hlo (Nat.lt_of_le_sub_one (Nat.two_pow_pos _) hhi)

/-- Settles O23: the walk of PRICE_BIT is cell A alone, and V, being at most 1, is the bit. -/
theorem priceBitReturnsPrice : Obligations.PriceBitReturnsPrice := by
  unfold Obligations.PriceBitReturnsPrice
  refine ⟨encodedAs_opcode rfl, fun s => ⟨fun ha hv => ?_, fun h => if_neg ?_⟩⟩
  · rw [exec_priceBit_of_ok ⟨ha, Nat.lt_succ_of_le hv⟩, State.priceOf, price_eq, State.bitOperand_eq hv]
    by_cases h0 : s.latV.toNat = 0 <;> simp [h0, State.a]
  · rintro ⟨ha, hv⟩
    unfold State.cellInRam State.a at ha
    unfold State.valueFits State.v at hv
    omega
end

section
/-! SUPPORT, then the settled statement. What every command but PROB_WRITE keeps of the RAM (spec/40_probability.md R104). -/

namespace Sys2Proof.Machine

/-! ### What Update and PROB_INIT keep of the RAM -/

/-- Update keeps the property of the RAM. -/
def KeptByUpdate (P : Memory → Prop) : Prop :=
  ∀ (m : Memory) (a : Nat) (bit : Bool), P m → P (m.write a (adapt (m.read a) bit))

/-- PROB_INIT keeps the property of the RAM. -/
def KeptByInit (P : Memory → Prop) : Prop := ∀ (m : Memory) (lo n : Nat), P m → P (m.init lo n)

theorem raise_cells {c : FaultCode} {s t : State} (h : raise c s = .next t) : t.cells = s.cells := by
  rw [raise_eq_next] at h; subst h; simp

theorem starve_cells {k : Task} {s t : State} (h : starve k s = .next t) : t.cells = s.cells := by
  rcases starve_eq_next.mp h with ⟨-, rfl⟩ | ⟨-, rfl⟩ <;> simp

section
variable {P : Memory → Prop} (hP : KeptByUpdate P)
include hP

theorem KeptByUpdate.of_encodePath {path : List (Nat × Bool)} {s t : State} (h : State.encodePath path s = some t)
    (hs : P s.cells) : P t.cells := by
  induction path generalizing s with
  | nil => cases h; exact hs
  | cons e path ih =>
    obtain ⟨a, bit⟩ := e
    unfold State.encodePath at h
    split at h
    · rename_i u hu
      exact ih h (encodeBit_cells hu ▸ hP s.cells a bit hs)
    · cases h

/-- One decoded bit with its RenormD. -/
theorem KeptByUpdate.of_walkBit (w : Walk) {s : State} (hs : P s.cells) : P (w.split s).2.renormD.2.cells := by
  rw [renormD_cells, walkSplit_cells]
  cases w.cell with
  | none => exact hs
  | some a => exact hP s.cells a _ hs

theorem KeptByUpdate.of_runWalk {n : Nat} {w : Walk} {s t : State} (h : runWalk n w s = .next t) (hs : P s.cells) :
    P t.cells := by
  have hK : Walk.Kept fun _ _ u => P u.cells := fun _ w _ hu _ => hP.of_walkBit w hu
  rcases runWalk_cases hK hs h with ⟨w', u, hu, rfl⟩ | ⟨k, w', u, hu, -, hst⟩
  · exact hu
  · exact starve_cells hst ▸ hP.of_walkBit w' hu

/-- A command but PROB_WRITE changes the RAM by Update and PROB_INIT alone, and keeps what both keep. -/
theorem KeptByUpdate.of_exec (hI : KeptByInit P) {i : Instr} {s t : State} (hi : i ≠ .probWrite) (h : exec i s = .next t)
    (hs : P s.cells) : P t.cells := by
  have g := exec_goes i s
  generalize exec i s = o at g h
  cases g with
  | refusedOperands | wrongMode => exact raise_cells h ▸ hs
  | probInit => cases h; exact hI _ _ _ hs
  | probWrite => exact absurd rfl hi
  | encodes =>
    obtain ⟨u, hu, -, rfl⟩ := encodeAlong_frame h
    show P u.cells
    exact hP.of_encodePath hu hs
  | encodesDirect =>
    obtain ⟨u, hu, rfl⟩ := finishEncode_eq_next.mp h
    exact (encodeDirect_touch hu).2 ▸ hs
  | encFlush => cases h; simpa using hs
  | loads =>
    obtain ⟨u, -, hc, rfl | ⟨k, -, hst⟩⟩ := loadCode_frame h
    · exact hc ▸ hs
    · exact (starve_cells hst).trans hc ▸ hs
  | decodes => exact hP.of_runWalk h hs
  | _ => cases h; exact hs

end

/-! ### The range of Update -/

/-- The values that Update does not leave once a cell has them (40_probability.md R104). -/
def Cell.inUpdateRange (p : Cell) : Prop := 31 ≤ p.toNat ∧ p.toNat ≤ 2017

theorem resetCell_inUpdateRange : Cell.inUpdateRange resetCell := by
  constructor <;> decide

theorem adapt_inUpdateRange {p : Cell} (h : Cell.inUpdateRange p) (bit : Bool) : Cell.inUpdateRange (adapt p bit) := by
  obtain ⟨hlo, hhi⟩ := h
  have hp : p ≠ 0 := by rintro rfl; simp at hlo
  unfold Cell.inUpdateRange
  rw [adapt_toNat hp]
  cases bit
  · rw [if_neg Bool.false_ne_true]; omega
  · rw [if_pos rfl]; omega

/-- A canonical RAM with every cell in the range of Update. -/
def Memory.inUpdateRange (m : Memory) : Prop := Memory.wf m ∧ ∀ a, Cell.inUpdateRange (m.read a)

theorem keptByUpdate_inUpdateRange : KeptByUpdate Memory.inUpdateRange := by
  rintro m a bit ⟨hm, hr⟩
  refine ⟨Memory.write_wf hm a _, fun b => ?_⟩
  by_cases hb : b = a
  · rw [hb, Memory.read_write_same hm]; exact adapt_inUpdateRange (hr a) bit
  · rw [Memory.read_write_other m _ hb]; exact hr b

theorem keptByInit_inUpdateRange : KeptByInit Memory.inUpdateRange := by
  rintro m lo n ⟨hm, hr⟩
  refine ⟨Memory.init_wf hm lo n, fun a => ?_⟩
  rw [Memory.read_init]
  split
  · exact resetCell_inUpdateRange
  · exact hr a

end Sys2Proof.Machine

open Sys2Proof Sys2Proof.Machine

/-- Settles O57: Update and PROB_INIT keep every cell in the range, and no other command but PROB_WRITE changes a cell. -/
theorem cellsStayInUpdateRange : Obligations.CellsStayInUpdateRange := by
  unfold Obligations.CellsStayInUpdateRange
  intro i s t hi hm hr h
  exact (keptByUpdate_inUpdateRange.of_exec keptByInit_inUpdateRange hi h ⟨hm, hr⟩).2
end

section
/-! SUPPORT, then the settled statements. ShiftLow, RenormE and the splits of the range encoder (spec/41_range_encoder.md R121 to
R124). -/

namespace Sys2Proof.Machine

/-! ### ShiftLow -/

theorem carryKnown_iff (s : State) :
    s.carryKnown = true ↔ s.encLow.extractLsb' 32 8 ≠ 0 ∨ s.encLow.toNat < 0xFF000000 := by
  simp [State.carryKnown]

/-- The held bytes one by one. -/
theorem heldBytes_eq_map (cache hi : Byte) (n : Nat) :
    heldBytes cache hi n = (List.range n).map fun j => (if j = 0 then cache else 0xFF) + hi := by
  cases n with
  | zero => rfl
  | succ n => simp [heldBytes, List.range_succ_eq_map, Function.comp_def, List.map_const']

/-- The new ENC_LOW of ShiftLow: the low 24 bits, moved up by a byte. -/
theorem shiftedLow_eq (x : Dword) : (x &&& 0xFFFFFF) <<< 8 = (x.extractLsb' 0 24).setWidth 64 <<< 8 := by
  congr 1
  apply BitVec.eq_of_toNat_eq
  rw [BitVec.toNat_and, BitVec.toNat_setWidth, BitVec.extractLsb'_toNat, show (0xFFFFFF : Dword).toNat = 2 ^ 24 - 1 from rfl,
    Nat.and_two_pow_sub_one_eq_mod, Nat.shiftRight_zero]
  omega

/-- With a carry, or a top byte that no carry can reach, ShiftLow releases the held bytes. -/
theorem shiftLow_of_carryKnown {s : State} (h : s.carryKnown = true) :
    s.shiftLow = { s with
      outBytes := s.outBytes ++ heldBytes s.encCache (s.encLow.extractLsb' 32 8) s.encCsize.toNat
      outcnt := s.outcnt + s.encCsize, encCache := s.encLow.extractLsb' 24 8, encCsize := 1
      encLow := (s.encLow.extractLsb' 0 24).setWidth 64 <<< 8 } := by
  rw [← shiftedLow_eq, State.shiftLow, h]; rfl

/-- Otherwise ShiftLow holds one byte more. -/
theorem shiftLow_of_not_carryKnown {s : State} (h : s.carryKnown = false) :
    s.shiftLow = { s with encCsize := s.encCsize + 1, encLow := (s.encLow.extractLsb' 0 24).setWidth 64 <<< 8 } := by
  rw [← shiftedLow_eq, State.shiftLow, h]; rfl

/-! ### RenormE -/

/-- RenormE stops at a range of 2^24 or above. -/
theorem renormRounds_of_wide {k : Nat} {s : State} (h : 2 ^ 24 ≤ s.encRange.toNat) : State.renormRounds k s = some s := by
  cases k <;> exact if_neg h.not_gt

/-- Below 2^24 RenormE does a round. -/
theorem renormRounds_of_narrow {k : Nat} {s : State} (h : s.encRange.toNat < 2 ^ 24) :
    State.renormRounds (k + 1) s = State.renormRounds k (renormRound s) := if_pos h

theorem renormRound_encRange_toNat {s : State} (h : s.encRange.toNat < 2 ^ 24) :
    (renormRound s).encRange.toNat = s.encRange.toNat * 2 ^ 8 := by
  simp only [renormRound, State.shiftLow_encRange, BitVec.toNat_shiftLeft, Nat.shiftLeft_eq]
  omega

/-- `k` rounds are enough for a range of at least 2^(24 - 8k): the loop ends within them. -/
theorem renormRounds_enough {k : Nat} {s : State} (h : 2 ^ 24 ≤ s.encRange.toNat * 2 ^ (8 * k)) :
    ∃ t, 2 ^ 24 ≤ t.encRange.toNat ∧ ∀ n, State.renormRounds (k + n) s = some t := by
  induction k generalizing s with
  | zero =>
    have hw : 2 ^ 24 ≤ s.encRange.toNat := by omega
    exact ⟨s, hw, fun _ => renormRounds_of_wide hw⟩
  | succ k ih =>
    rcases Nat.lt_or_ge s.encRange.toNat (2 ^ 24) with hn | hw
    · obtain ⟨t, ht, he⟩ := ih (s := renormRound s) (by
        rw [renormRound_encRange_toNat hn, Nat.mul_assoc, ← Nat.pow_add]
        rwa [Nat.mul_succ, Nat.add_comm] at h)
      exact ⟨t, ht, fun n => by rw [Nat.add_right_comm, renormRounds_of_narrow hn, he]⟩
    · exact ⟨s, hw, fun _ => renormRounds_of_wide hw⟩

/-- RenormE never ends from a range of 0. -/
theorem renormRounds_of_zero {k : Nat} {s : State} (h : s.encRange.toNat = 0) : State.renormRounds k s = none := by
  have hn : s.encRange.toNat < 2 ^ 24 := by omega
  induction k generalizing s with
  | zero => exact if_pos hn
  | succ k ih =>
    have h' : (renormRound s).encRange.toNat = 0 := by rw [renormRound_encRange_toNat hn, h, Nat.zero_mul]
    rw [renormRounds_of_narrow hn, ih h' (by omega)]

/-- RenormE goes on after a round as from the start. -/
theorem renormE_of_narrow {s : State} (h0 : 0 < s.encRange.toNat) (h : s.encRange.toNat < 2 ^ 24) :
    s.renormE = (renormRound s).renormE := by
  obtain ⟨t, -, ht⟩ := renormRounds_enough (k := 2) (s := renormRound s) (by rw [renormRound_encRange_toNat h]; omega)
  rw [State.renormE, renormRounds_of_narrow h, ht 0, State.renormE, ht 1]

/-- RenormE ends for every range but 0. -/
theorem renormE_ends {s : State} (h : 0 < s.encRange.toNat) : ∃ t, s.renormE = some t ∧ 2 ^ 24 ≤ t.encRange.toNat := by
  obtain ⟨t, ht, he⟩ := renormRounds_enough (k := 3) (s := s) (by omega)
  exact ⟨t, he 0, ht⟩

/-- Two rounds are all RenormE needs from a range of at least 2^13. -/
theorem renormE_two_rounds {s : State} (h : 2 ^ 13 ≤ s.encRange.toNat) :
    ∃ t, State.renormRounds 2 s = some t ∧ s.renormE = some t := by
  obtain ⟨t, -, ht⟩ := renormRounds_enough (k := 2) (s := s) (by omega)
  exact ⟨t, ht 0, ht 1⟩

/-! ### The splits -/

theorem directSplit_eq (s : State) (bit : Bool) :
    s.directSplit bit = { s with
      encRange := s.encRange >>> 1
      encLow := if bit then s.encLow + (s.encRange >>> 1).setWidth 64 else s.encLow } := by
  cases bit <;> rfl

theorem encodeDirect_succ (v n : Nat) (s : State) :
    State.encodeDirect v (n + 1) s = ((s.directSplit (v.testBit n)).renormE).bind (State.encodeDirect v n) := by
  rw [State.encodeDirect]
  cases (s.directSplit (v.testBit n)).renormE <;> rfl

end Sys2Proof.Machine

open Sys2Proof Sys2Proof.Machine

/-- Settles O26: the two branches of ShiftLow, with the released bytes one by one. -/
theorem shiftLowEmitsOrHolds : Obligations.ShiftLowEmitsOrHolds := by
  unfold Obligations.ShiftLowEmitsOrHolds
  intro s hi low
  refine ⟨fun h => ?_, fun h0 hff => ?_⟩
  · rw [shiftLow_of_carryKnown ((carryKnown_iff s).mpr h), heldBytes_eq_map]
  · refine shiftLow_of_not_carryKnown (Bool.eq_false_iff.mpr fun hk => ?_)
    exact ((carryKnown_iff s).mp hk).elim (· h0) hff.not_gt

/-- Settles O27: `renormRounds_enough` bounds the rounds by the range, and a bit through a legal cell leaves at least 2^13 of it. -/
theorem renormELoops : Obligations.RenormELoops := by
  unfold Obligations.RenormELoops
  intro s
  refine ⟨renormRounds_of_wide, fun h0 h => ⟨renormE_of_narrow h0 h, renormE_ends h0⟩, renormRounds_of_zero, fun h => ?_,
    fun a bit hm hr => ?_⟩
  · obtain ⟨t, h2, hE⟩ := renormE_two_rounds h
    rw [h2, hE]
  · have hw := encodeSplit_range hm hr a bit
    exact ⟨hw, renormE_two_rounds (s := (s.encodeSplit a bit).adaptCell a bit) (by simpa using hw)⟩

/-- Settles O28: the split leaves the cells alone, so that Update reads the cell as it was. -/
theorem encodeSplitsInterval : Obligations.EncodeSplitsInterval := by
  unfold Obligations.EncodeSplitsInterval
  exact fun s a v n => ⟨rfl, rfl, rfl, by rw [encodeDirect_succ, directSplit_eq]⟩
end

section
/-! SUPPORT, then the settled statements. The commands ENC_INIT, ENC_BIT, ENC_DIRECT and ENC_FLUSH (spec/41_range_encoder.md R125
to R128). -/

namespace Sys2Proof.Machine

/-! ### What the commands share -/

/-- A command with N is encoded by its row of the opcode map (30_encoding.md R86). -/
theorem encodedWith_of_decodeOp {f : Nat → Instr} {op : Nat} (h : ∀ n, decodeOp op n = .ok (f n)) : encodedWith f op := by
  intro w hc hop
  rw [decode, if_pos hc, hop, h]

/-- In the MODE it needs, with legal operands, a command does its work. -/
theorem guarded_of_ok {s : State} {m : Mode} {P : Prop} [Decidable P] {k : Out} (hm : s.mode = m) (hP : P) :
    (if s.mode ≠ m then raise .mode s else if ¬ P then raise .operand s else k) = k := by
  rw [if_neg (not_not_intro hm), if_neg (not_not_intro hP)]

/-! ### ENC_BIT -/

theorem encodePath_singleton (a : Nat) (bit : Bool) (s : State) : State.encodePath [(a, bit)] s = s.encodeBit a bit := by
  rw [State.encodePath]
  cases s.encodeBit a bit <;> rfl

theorem bitOk_iff {s : State} : s.bitOk ↔ s.latA.toNat < s.cfg.nprob ∧ s.latV.toNat ≤ 1 :=
  and_congr_right fun _ => Nat.lt_succ_iff

/-- ENC_BIT through a cell of the RAM of a legal machine in ENC. -/
theorem exec_encBit_of_ok {s : State} (h : s.Ready) (hm : s.mode = .enc) (ho : s.bitOk) :
    ∃ u, s.encodeBit s.a s.bitOperand = some u ∧ exec .encBit s = .next u.idle := by
  obtain ⟨u, hu, he, -, -⟩ := encodeAlong_spec h hm (path := [(s.a, s.bitOperand)]) (by simpa using ho.1)
  exact ⟨u, encodePath_singleton _ _ s ▸ hu, (guarded_of_ok hm ho).trans he⟩

/-! ### ENC_DIRECT -/

/-- Any V is a value of 32 bits. -/
theorem directOk_iff {s : State} {n : Nat} : s.directOk n ↔ 1 ≤ n ∧ n ≤ 32 ∧ (n < 32 → s.latV.toNat < 2 ^ n) := by
  have hv := s.latV.isLt
  constructor
  · rintro ⟨⟨h1, h32⟩, hfit⟩
    exact ⟨h1, h32, fun _ => hfit⟩
  · rintro ⟨h1, h32, hfit⟩
    refine ⟨⟨h1, h32⟩, ?_⟩
    rcases Nat.lt_or_eq_of_le h32 with hlt | rfl
    · exact hfit hlt
    · exact hv

/-- ENC_DIRECT on a legal machine in ENC. -/
theorem exec_encDirect_of_ok {s : State} {n : Nat} (h : s.Ready) (hm : s.mode = .enc) (ho : s.directOk n) :
    ∃ u, State.encodeDirect s.v n s = some u ∧ exec (.encDirect n) s = .next u.idle ∧ u.cells = s.cells := by
  obtain ⟨u, hu, -, hc, -⟩ := encodeDirect_spec (v := s.v) (n := n) (h.interval hm)
  exact ⟨u, hu, (guarded_of_ok hm ho).trans (finishEncode_eq_next.mpr ⟨u, hu, rfl⟩), hc⟩

/-! ### ENC_FLUSH -/

/-- A ShiftLow emits bytes or holds one more: what it emits and then holds is what was held and one byte. -/
theorem shiftLow_emits {s : State} (h : s.encCsize.toNat + 1 < 2 ^ 64) :
    ∃ bs, s.shiftLow.outBytes = s.outBytes ++ bs ∧ bs.length + s.shiftLow.encCsize.toNat = s.encCsize.toNat + 1 := by
  cases hk : s.carryKnown with
  | true =>
    rw [shiftLow_of_carryKnown hk]
    exact ⟨_, rfl, by rw [heldBytes_length]; rfl⟩
  | false =>
    rw [shiftLow_of_not_carryKnown hk]
    refine ⟨[], (List.append_nil _).symm, ?_⟩
    rw [BitVec.toNat_add, List.length_nil, Nat.zero_add]
    exact Nat.mod_eq_of_lt h

/-- `k` times ShiftLow: `k` bytes more are emitted or held. -/
theorem shiftLow_iterate_emits {k : Nat} {s : State} (h : s.encCsize.toNat + k < 2 ^ 64) :
    ∃ bs, (State.shiftLow^[k] s).outBytes = s.outBytes ++ bs ∧
      bs.length + (State.shiftLow^[k] s).encCsize.toNat = s.encCsize.toNat + k := by
  induction k generalizing s with
  | zero => exact ⟨[], (List.append_nil _).symm, Nat.zero_add _⟩
  | succ k ih =>
    obtain ⟨bs, hout, hlen⟩ := shiftLow_emits (s := s) (by omega)
    obtain ⟨bs', hout', hlen'⟩ := ih (s := s.shiftLow) (by omega)
    rw [Function.iterate_succ_apply]
    exact ⟨bs ++ bs', by rw [hout', hout, List.append_assoc], by rw [List.length_append]; omega⟩

/-- Four times ShiftLow move every bit of ENC_LOW out. -/
theorem shiftLow_iterate_four_encLow (s : State) : (State.shiftLow^[4] s).encLow = 0 := by
  apply BitVec.eq_of_toNat_eq
  show s.shiftLow.shiftLow.shiftLow.shiftLow.encLow.toNat = 0
  simp only [shiftLow_encLow_toNat]
  omega

/-- With ENC_LOW = 0 there is no carry to come: ShiftLow emits every held byte and holds a 0. -/
theorem shiftLow_of_encLow_zero {s : State} (h : s.encLow = 0) :
    (∃ bs, s.shiftLow.outBytes = s.outBytes ++ bs ∧ bs.length = s.encCsize.toNat) ∧
      s.shiftLow.encLow = 0 ∧ s.shiftLow.encCache = 0 ∧ s.shiftLow.encCsize = 1 := by
  rw [shiftLow_of_carryKnown ((carryKnown_iff s).mpr (.inr (by rw [h]; decide))), h]
  exact ⟨⟨_, rfl, heldBytes_length _ _ _⟩, rfl, rfl, rfl⟩

/-- The five calls of ENC_FLUSH emit the held bytes and four more. -/
theorem shiftLow_iterate_five {s : State} (h : s.encCsize.toNat + 4 < 2 ^ 64) :
    (∃ bs, (State.shiftLow^[5] s).outBytes = s.outBytes ++ bs ∧ bs.length = s.encCsize.toNat + 4) ∧
      (State.shiftLow^[5] s).encLow = 0 ∧ (State.shiftLow^[5] s).encCache = 0 ∧ (State.shiftLow^[5] s).encCsize = 1 := by
  obtain ⟨bs, hout, hlen⟩ := shiftLow_iterate_emits h
  obtain ⟨⟨bs', hout', hlen'⟩, hend⟩ := shiftLow_of_encLow_zero (shiftLow_iterate_four_encLow s)
  rw [Function.iterate_succ_apply']
  exact ⟨⟨bs ++ bs', by rw [hout', hout, List.append_assoc], by rw [List.length_append]; omega⟩, hend⟩

theorem exec_encFlush_of_enc {s : State} (hm : s.mode = .enc) :
    exec .encFlush s = .next ((State.shiftLow^[5] s).setMode .idle).idle := if_neg (not_not_intro hm)

end Sys2Proof.Machine

open Sys2Proof Sys2Proof.Machine

/-- Settles O29: the check of MODE, then the stream is opened. -/
theorem encInitOpensStream : Obligations.EncInitOpensStream := by
  unfold Obligations.EncInitOpensStream
  exact ⟨encodedAs_opcode rfl, fun s => ⟨fun hm => if_neg (not_not_intro hm), exec_of_wrongMode rfl⟩⟩

/-- Settles O30: the walk of ENC_BIT is cell A alone, and V, being at most 1, is the bit. -/
theorem encBitEncodes : Obligations.EncBitEncodes := by
  unfold Obligations.EncBitEncodes
  refine ⟨encodedAs_opcode rfl, fun s => ⟨fun h hm ha hv => ?_, exec_of_wrongMode rfl, fun hm hbad => ?_⟩⟩
  · have hbit : s.bitOperand = decide (s.latV.toNat = 1) := by
      rw [State.bitOperand_eq hv]; exact decide_eq_decide.mpr (by omega)
    exact hbit ▸ exec_encBit_of_ok h hm (bitOk_iff.mpr ⟨ha, hv⟩)
  · exact guarded_operand hm fun ho => by have := bitOk_iff.mp ho; omega

/-- Settles O31: the interval of a legal machine lets EncodeDirect end, and it touches no cell. -/
theorem encDirectEncodes : Obligations.EncDirectEncodes := by
  unfold Obligations.EncDirectEncodes
  refine ⟨encodedWith_of_decodeOp fun _ => rfl, fun s n => ⟨fun h hm h1 h32 hv => ?_, exec_of_wrongMode rfl, fun hm hbad => ?_⟩⟩
  · exact exec_encDirect_of_ok h hm (directOk_iff.mpr ⟨h1, h32, hv⟩)
  · refine guarded_operand hm fun ho => ?_
    obtain ⟨h1, h32, hv⟩ := directOk_iff.mp ho
    rcases hbad with h | h | ⟨hlt, h⟩
    · exact h.not_ge h1
    · exact h.not_ge h32
    · exact h.not_gt (hv hlt)

/-- Settles O32: four calls of ShiftLow empty ENC_LOW, and the fifth releases what is held. Neither the bound of ENC_LOW nor a held
byte is needed. -/
theorem encFlushEmitsEverything : Obligations.EncFlushEmitsEverything := by
  unfold Obligations.EncFlushEmitsEverything
  refine ⟨encodedAs_opcode rfl, fun s => ⟨fun hm => ⟨exec_encFlush_of_enc hm, fun _ _ h => ?_⟩, exec_of_wrongMode rfl⟩⟩
  obtain ⟨⟨bs, hout, hlen⟩, hend⟩ := shiftLow_iterate_five h
  exact ⟨_, bs, exec_encFlush_of_enc hm, hout, hlen, hend⟩
end

section
/-! SUPPORT, then the settled statement. What coding a walk leaves in the cells it visits (spec/43_bit_tree.md R160,
spec/40_probability.md R103). -/

namespace Sys2Proof.Machine

theorem encodePath_cons_eq_some {a : Nat} {bit : Bool} {path : List (Nat × Bool)} {s u : State} :
    State.encodePath ((a, bit) :: path) s = some u ↔ ∃ t, s.encodeBit a bit = some t ∧ State.encodePath path t = some u := by
  rw [State.encodePath]
  cases s.encodeBit a bit <;> simp

/-- EncodeBit updates its cell. -/
theorem encodeBit_cell_same {s t : State} {a : Nat} {bit : Bool} (hm : Memory.wf s.cells) (h : s.encodeBit a bit = some t) :
    t.cell a = adapt (s.cell a) bit := by
  rw [State.cell, encodeBit_cells h, Memory.read_write_same hm]

/-- EncodeBit leaves every other cell alone. -/
theorem encodeBit_cell_other {s t : State} {a b : Nat} {bit : Bool} (h : s.encodeBit a bit = some t) (hb : b ≠ a) :
    t.cell b = s.cell b := by
  rw [State.cell, encodeBit_cells h, Memory.read_write_other _ _ hb, State.cell]

/-- A walk that visits no cell twice updates each visited cell once. -/
theorem encodePath_cell_visited {path : List (Nat × Bool)} {s u : State} (hm : Memory.wf s.cells)
    (hn : (path.map Prod.fst).Nodup) (h : State.encodePath path s = some u) :
    ∀ e ∈ path, u.cell e.1 = adapt (s.cell e.1) e.2 := by
  induction path generalizing s with
  | nil => exact fun e he => (List.not_mem_nil he).elim
  | cons first path ih =>
    obtain ⟨a, bit⟩ := first
    obtain ⟨t, ht, hu⟩ := encodePath_cons_eq_some.mp h
    obtain ⟨ha, hn⟩ := List.nodup_cons.mp hn
    have hne : ∀ e ∈ path, e.1 ≠ a := fun e he hea => ha (List.mem_map.mpr ⟨e, he, hea⟩)
    intro e he
    rcases List.mem_cons.mp he with rfl | he
    · rw [encodePath_cell_other hu hne, encodeBit_cell_same hm ht]
    · have hwf : Memory.wf t.cells := encodeBit_cells ht ▸ Memory.write_wf hm a _
      rw [ih hwf hn hu e he, encodeBit_cell_other ht (hne e he)]

end Sys2Proof.Machine

open Sys2Proof Sys2Proof.Machine

/-- Settles O34: a visited cell is updated at its visit and kept by the rest of the walk; the frame is `encodePath_touch`. -/
theorem encodedWalkUpdatesItsCells : Obligations.EncodedWalkUpdatesItsCells := by
  unfold Obligations.EncodedWalkUpdatesItsCells
  exact fun s u walk hm hn h => ⟨encodePath_cell_visited hm.1 hn h,
    fun a ha => encodePath_cell_other h fun e he hea => ha (List.mem_map.mpr ⟨e, he, hea⟩), encodePath_touch h⟩
end

section
/-! SUPPORT, then the settled statement. OUTCNT and INCNT beside the byte ports (spec/20_memory.md R61, R62, spec/41_range_encoder.md
R121). -/

namespace Sys2Proof.Machine

/-! ### Bytes emitted and taken -/

/-- From `s` to `t` bytes were appended to the byte-out port, and OUTCNT counted them. -/
def Emits (s t : State) : Prop :=
  ∃ bs, t.outBytes = s.outBytes ++ bs ∧ t.outcnt = s.outcnt + BitVec.ofNat 64 bs.length

/-- From `s` to `t` a front part of the byte-in queue was taken, and INCNT counted it. -/
def Takes (s t : State) : Prop :=
  ∃ taken, s.inQueue = taken ++ t.inQueue ∧ t.incnt = s.incnt + BitVec.ofNat 64 taken.length

theorem Emits.of_eq {s t : State} (ho : t.outBytes = s.outBytes) (hc : t.outcnt = s.outcnt) : Emits s t :=
  ⟨[], by rw [ho, List.append_nil], by rw [hc]; exact (BitVec.add_zero _).symm⟩

theorem Takes.of_eq {s t : State} (hq : t.inQueue = s.inQueue) (hc : t.incnt = s.incnt) : Takes s t :=
  ⟨[], hq.symm, by rw [hc]; exact (BitVec.add_zero _).symm⟩

theorem Emits.trans {s t u : State} : Emits s t → Emits t u → Emits s u := by
  rintro ⟨bs, ho, hc⟩ ⟨bs', ho', hc'⟩
  exact ⟨bs ++ bs', by rw [ho', ho, List.append_assoc],
    by rw [hc', hc, List.length_append, BitVec.ofNat_add, BitVec.add_assoc]⟩

theorem Takes.trans {s t u : State} : Takes s t → Takes t u → Takes s u := by
  rintro ⟨bs, hq, hc⟩ ⟨bs', hq', hc'⟩
  exact ⟨bs ++ bs', by rw [hq, hq', List.append_assoc],
    by rw [hc', hc, List.length_append, BitVec.ofNat_add, BitVec.add_assoc]⟩

/-- What leaves the encoder and the byte-out port alone emits nothing. -/
theorem Emits.of_writesOnly {s t : State} (h : WritesOnly (· ≠ .encoder) s t) : Emits s t := by
  obtain ⟨-, -, -, -, hc, ho⟩ := (h .encoder).resolve_left (not_not_intro rfl)
  exact .of_eq ho hc

/-- What leaves the decoder and the byte-in queue alone takes nothing. -/
theorem Takes.of_writesOnly {s t : State} (h : WritesOnly (· ≠ .decoder) s t) : Takes s t := by
  obtain ⟨-, -, hc, hq⟩ := (h .decoder).resolve_left (not_not_intro rfl)
  exact .of_eq hq hc

/-! ### The encoder -/

/-- ShiftLow counts the held bytes it releases. -/
theorem emits_shiftLow (s : State) : Emits s s.shiftLow := by
  cases hk : s.carryKnown with
  | true =>
    rw [shiftLow_of_carryKnown hk]
    exact ⟨_, rfl, by rw [heldBytes_length, BitVec.ofNat_toNat, BitVec.setWidth_eq]⟩
  | false =>
    rw [shiftLow_of_not_carryKnown hk]
    exact .of_eq rfl rfl

theorem emits_shiftLow_iterate (k : Nat) (s : State) : Emits s (State.shiftLow^[k] s) := by
  induction k generalizing s with
  | zero => exact .of_eq rfl rfl
  | succ k ih => exact (emits_shiftLow s).trans (ih s.shiftLow)

theorem emits_renormRound (s : State) : Emits s (renormRound s) :=
  emits_shiftLow { s with encRange := s.encRange <<< 8 }

theorem emits_of_renormRounds {k : Nat} {s t : State} (h : State.renormRounds k s = some t) : Emits s t := by
  induction k generalizing s with
  | zero =>
    rw [State.renormRounds] at h
    split_ifs at h
    cases h; exact .of_eq rfl rfl
  | succ k ih =>
    rw [renormRounds_succ] at h
    split_ifs at h
    · exact (emits_renormRound s).trans (ih h)
    · cases h; exact .of_eq rfl rfl

theorem emits_of_encodeBit {s t : State} {a : Nat} {bit : Bool} (h : s.encodeBit a bit = some t) : Emits s t :=
  (Emits.of_eq (t := (s.encodeSplit a bit).adaptCell a bit) (by simp) (by simp)).trans (emits_of_renormRounds h)

theorem emits_of_encodePath {path : List (Nat × Bool)} {s t : State} (h : State.encodePath path s = some t) : Emits s t := by
  induction path generalizing s with
  | nil => cases h; exact .of_eq rfl rfl
  | cons e path ih =>
    obtain ⟨u, hu, ht⟩ := encodePath_cons_eq_some.mp h
    exact (emits_of_encodeBit hu).trans (ih ht)

theorem emits_of_encodeDirect {v n : Nat} {s t : State} (h : State.encodeDirect v n s = some t) : Emits s t := by
  induction n generalizing s with
  | zero => cases h; exact .of_eq rfl rfl
  | succ n ih =>
    rw [encodeDirect_succ] at h
    obtain ⟨u, hu, ht⟩ := Option.bind_eq_some_iff.mp h
    exact (Emits.of_eq (by simp) (by simp)).trans ((emits_of_renormRounds hu).trans (ih ht))

/-- Every command but ENC_INIT counts the bytes it emits; ENC_INIT emits none and counts from 0. -/
theorem exec_emits {i : Instr} {s t : State} (h : exec i s = .next t) :
    Emits s t ∨ (i = .encInit ∧ t.outBytes = s.outBytes ∧ t.outcnt = 0) := by
  have g := exec_goes i s
  generalize exec i s = o at g h
  cases g with
  | encInit => cases h; exact .inr ⟨rfl, rfl, rfl⟩
  | encFlush => cases h; exact .inl (emits_shiftLow_iterate 5 s)
  | encodes =>
    obtain ⟨u, hu, -, rfl⟩ := encodeAlong_frame h
    exact .inl ((emits_of_encodePath hu).trans (.of_eq rfl rfl))
  | encodesDirect =>
    obtain ⟨u, hu, rfl⟩ := finishEncode_eq_next.mp h
    exact .inl ((emits_of_encodeDirect hu).trans (.of_eq rfl rfl))
  | refusedOperands | wrongMode => exact .inl (.of_writesOnly (.raise h))
  | loads =>
    have hw := Emits.of_writesOnly (loadCode_writesOnly (by simp) (by simp) h)
    exact .inl hw
  | decodes => exact .inl (.of_writesOnly (runWalk_writesOnly (by simp) (by simp) (.inl (by simp)) h))
  | _ => cases h; exact .inl (.of_eq rfl rfl)

/-! ### The decoder -/

/-- One decoded bit takes what its RenormD takes. -/
theorem takes_walkBit (w : Walk) (s : State) : Takes s (w.split s).2.renormD.2 := by
  obtain ⟨-, hc, hq⟩ := walkSplit_touch w s
  exact (Takes.of_eq hq hc).trans (renormOver_takes rfl)

theorem takes_of_starve {k : Task} {s t : State} (h : starve k s = .next t) : Takes s t := .of_writesOnly (.starve h)

theorem takes_of_runWalk {n : Nat} {w : Walk} {s t : State} (h : runWalk n w s = .next t) : Takes s t := by
  have hK : Walk.Kept fun _ _ u => Takes s u := fun _ w u hu _ => hu.trans (takes_walkBit w u)
  rcases runWalk_cases hK (.of_eq rfl rfl) h with ⟨w', u, hu, rfl⟩ | ⟨k, w', u, hu, -, hs⟩
  · exact hu
  · exact hu.trans ((takes_walkBit w' u).trans (takes_of_starve hs))

theorem takes_of_loadCode {left : Nat} {s t : State} (h : loadCode left s = .next t) : Takes s t := by
  induction left generalizing s with
  | zero => cases h; exact .of_eq rfl rfl
  | succ left ih =>
    rw [loadCode] at h
    split at h
    · rename_i b q hq
      exact Takes.trans (t := (s.takeByte q).shiftCode b) ⟨[b], hq, rfl⟩ (ih h)
    · exact takes_of_starve h

/-- Every command but DEC_INIT counts the bytes it takes; DEC_INIT in IDLE counts them from 0. -/
theorem exec_takes {i : Instr} {s t : State} (h : exec i s = .next t) :
    Takes s t ∨ (i = .decInit ∧ s.mode = .idle ∧ Takes { s with incnt := 0 } t) := by
  have g := exec_goes i s
  generalize exec i s = o at g h
  cases g with
  | loads hm =>
    have ht := takes_of_loadCode h
    exact .inr ⟨rfl, hm, ht⟩
  | decodes => exact .inl (takes_of_runWalk h)
  | refusedOperands | wrongMode => exact .inl (.of_writesOnly (.raise h))
  | encFlush => cases h; exact .inl (.of_eq (by simp) (by simp))
  | encodes =>
    obtain ⟨u, -, hu, rfl⟩ := encodeAlong_frame h
    exact .inl (.of_writesOnly ((WritesOnly.encTouch (by simp) (.inl (by simp)) hu).trans .idle))
  | encodesDirect =>
    obtain ⟨u, hu, rfl⟩ := finishEncode_eq_next.mp h
    exact .inl (.of_writesOnly ((WritesOnly.encTouch (by simp) (.inl (by simp)) (encodeDirect_touch hu).1).trans .idle))
  | _ => cases h; exact .inl (.of_eq rfl rfl)

end Sys2Proof.Machine

open Sys2Proof Sys2Proof.Machine

/-- Settles O35: `exec_emits` for the byte-out port, `exec_takes` for the byte-in queue. -/
theorem countersCountPortBytes : Obligations.CountersCountPortBytes := by
  unfold Obligations.CountersCountPortBytes
  intro i s t h
  constructor
  · rcases exec_emits h with ⟨bs, ho, hc⟩ | ⟨hi, ho, hc⟩
    · exact ⟨bs, ho, .inl hc⟩
    · exact ⟨[], by rw [ho, List.append_nil], .inr ⟨hi, rfl, hc⟩⟩
  · rcases exec_takes h with ⟨taken, hq, hc⟩ | ⟨hi, hm, taken, hq, hc⟩
    · exact ⟨taken, hq, .inl hc⟩
    · exact ⟨taken, hq, .inr ⟨hi, hm, hc.trans (BitVec.zero_add _)⟩⟩
end

section
/-! SUPPORT, then the settled statement. A step from a state of the invariant never stops the model (spec/41_range_encoder.md
R122, R129). -/

namespace Sys2Proof.Machine

/-- A launched word ends in a next state, whether it decodes or not. -/
theorem runLaunched_ne_fault {s : State} (h : s.Ready) (ho : s.running) (w : Word) (r : Fault) :
    runLaunched w s ≠ .fault r := by
  unfold runLaunched
  split
  · obtain ⟨t, ht, -⟩ := exec_answers _ h ho
    rw [ht]; simp
  · simp [raise, complete]

theorem writeCommand_ne_fault {s : State} (h : s.Inv) (w : Word) (r : Fault) : writeCommand w s ≠ .fault r := by
  obtain ⟨-, -, ho, -⟩ := h.run
  unfold writeCommand
  split_ifs
  · simp
  · simp
  · exact runLaunched_ne_fault (h.ready.launch w) ⟨ho, rfl⟩ w r

theorem hostAction_ne_fault {s : State} (h : s.Inv) (act : HostAct) (r : Fault) : hostAction act s ≠ .fault r := by
  cases act with
  | write addr width v =>
    simp only [hostAction]
    split
    · split_ifs
      · exact writeCommand_ne_fault h v r
      · simp
    · simp
  | read addr width =>
    simp only [hostAction]
    split <;> simp
  | offer bs => simp [hostAction]
  | wait => simp [hostAction]
  | hardReset => simp [hostAction]

theorem hostTurn_ne_fault {s : State} (h : s.Inv) (r : Fault) : hostTurn s ≠ .fault r := by
  unfold hostTurn
  split
  · simp
  · exact hostAction_ne_fault ((setHost_hostTouch s _).inv h) _ r

end Sys2Proof.Machine

open Sys2Proof Sys2Proof.Machine

/-- Settles O60: a held command that goes on answers a next state, and so does a command launched from a state of the invariant. -/
theorem stepNeverFaults : Obligations.StepNeverFaults := by
  unfold Obligations.StepNeverFaults
  intro s r h
  rw [step, advance]
  split
  · split_ifs
    · obtain ⟨t, ht⟩ := resume_next _ s
      rw [ht]; simp
    · exact hostTurn_ne_fault h r
  · exact hostTurn_ne_fault h r
end

section
/-! SUPPORT, then the settled statements. RenormD and the splits of the range decoder, and the commands DEC_INIT and DEC_END
(spec/42_range_decoder.md R141 to R144, R147). -/

namespace Sys2Proof.Machine

/-! ### RenormD -/

/-- RenormD stops at a range of 2^24 or above. -/
theorem renormD_of_wide {s : State} (h : 2 ^ 24 ≤ s.decRange.toNat) : s.renormD = (true, s) := by
  unfold State.renormD
  cases s.inQueue with
  | nil => rw [renormOver, decide_eq_true h]
  | cons b q => exact if_pos h

/-- Below 2^24 RenormD takes a byte. -/
theorem renormD_of_narrow {s : State} {b : Byte} {q : List Byte} (h : s.decRange.toNat < 2 ^ 24) (hq : s.inQueue = b :: q) :
    s.renormD = (s.renormByte b q).renormD := by
  unfold State.renormD
  rw [hq]
  exact if_neg h.not_ge

/-- Below 2^24 with an empty queue RenormD does not end. -/
theorem renormD_of_empty {s : State} (h : s.decRange.toNat < 2 ^ 24) (hq : s.inQueue = []) : s.renormD = (false, s) := by
  unfold State.renormD
  rw [hq, renormOver, decide_eq_false h.not_ge]

/-- RenormD that ended left DEC_RANGE at 2^24 or above. -/
theorem renormD_ended {s t : State} (h : s.renormD = (true, t)) : 2 ^ 24 ≤ t.decRange.toNat := by
  have hr := renormOver_ready (q := s.inQueue) (congrArg Prod.fst h)
  rwa [show renormOver s.inQueue s = _ from h] at hr

/-- RenormD that did not end took every byte and left DEC_RANGE below 2^24. -/
theorem renormD_ran_dry {s u : State} (h : s.renormD = (false, u)) : u.inQueue = [] ∧ u.decRange.toNat < 2 ^ 24 := by
  have hr := renormOver_starved (q := s.inQueue) rfl (congrArg Prod.fst h)
  rwa [show renormOver s.inQueue s = _ from h] at hr

/-! ### The splits -/

theorem decodeSplit_of_lt {s : State} {a : Nat} (h : s.decCode.toNat < (bound s.decRange (s.cell a)).toNat) :
    s.decodeSplit a = (false, { s with decRange := bound s.decRange (s.cell a) }.adaptCell a false) := if_pos h

theorem decodeSplit_of_ge {s : State} {a : Nat} (h : (bound s.decRange (s.cell a)).toNat ≤ s.decCode.toNat) :
    s.decodeSplit a = (true, { s with
      decRange := s.decRange - bound s.decRange (s.cell a)
      decCode := s.decCode - bound s.decRange (s.cell a) }.adaptCell a true) := if_neg h.not_gt

/-- The sign bit as the shift of R143 reads it. -/
theorem ushiftRight_31_eq_zero {x : Word} : x >>> 31 = 0 ↔ x.msb = false := by
  have hx := x.isLt
  rw [BitVec.toNat_eq, BitVec.toNat_ushiftRight, Nat.shiftRight_eq_div_pow, BitVec.msb_eq_decide, decide_eq_false_iff_not]
  simp only [BitVec.ofNat_eq_ofNat, BitVec.toNat_ofNat, Nat.zero_mod]
  omega

theorem decodeHalf_of_msb {s : State} (h : (s.decCode - s.decRange >>> 1).msb = true) :
    s.decodeHalf = (false, { s with decRange := s.decRange >>> 1 }) := if_pos h

theorem decodeHalf_of_not_msb {s : State} (h : (s.decCode - s.decRange >>> 1).msb = false) :
    s.decodeHalf = (true, { s with decRange := s.decRange >>> 1, decCode := s.decCode - s.decRange >>> 1 }) :=
  if_neg (Bool.eq_false_iff.mp h)

/-! ### The load of DEC_INIT -/

/-- Bytes shifted into DEC_CODE, the first byte first. -/
def shiftIn (c : Word) (bs : List Byte) : Word := bs.foldl (fun c b => (c <<< 8) ||| b.setWidth 32) c

/-- The state after the bytes `bs` were loaded into DEC_CODE, with `q` left in the queue. -/
def State.loaded (s : State) (bs q : List Byte) : State :=
  { s with decCode := shiftIn s.decCode bs, incnt := s.incnt + BitVec.ofNat 64 bs.length, inQueue := q }

/-- The load takes the bytes that are there, one by one. -/
theorem loadCode_append {s : State} {bs q : List Byte} (hq : s.inQueue = bs ++ q) (n : Nat) :
    loadCode (bs.length + n) s = loadCode n (s.loaded bs q) := by
  induction bs generalizing s with
  | nil =>
    rw [List.length_nil, Nat.zero_add, State.loaded, show s.incnt + BitVec.ofNat 64 ([] : List Byte).length = s.incnt from
      BitVec.add_zero _, show q = s.inQueue from hq.symm]
    rfl
  | cons b bs ih =>
    have hstep : loadCode (bs.length + n + 1) s = loadCode (bs.length + n) ((s.takeByte (bs ++ q)).shiftCode b) := by
      rw [loadCode, hq]; rfl
    rw [List.length_cons, Nat.add_right_comm, hstep, ih rfl]
    simp only [State.loaded, State.shiftCode, State.takeByte, List.length_cons, shiftIn, List.foldl_cons]
    rw [Nat.add_comm bs.length 1, BitVec.ofNat_add, BitVec.add_assoc]
    rfl

/-- A byte shifted in is one digit more; the top byte is lost. -/
theorem shiftIn_toNat (c : Word) (bs : List Byte) :
    (shiftIn c bs).toNat = (c.toNat * 256 ^ bs.length + digits bs) % 2 ^ 32 := by
  induction bs generalizing c with
  | nil => simpa [shiftIn, digits] using (Nat.mod_eq_of_lt c.isLt).symm
  | cons b bs ih =>
    have hb : ((c <<< 8) ||| b.setWidth 32).toNat ≡ c.toNat * 256 + b.toNat [MOD 2 ^ 32] := by
      have h32 : b.toNat % 2 ^ 32 = b.toNat := Nat.mod_eq_of_lt (by have := b.isLt; omega)
      have hc : c.toNat <<< 8 % 2 ^ 32 = (c.toNat % 2 ^ 24) <<< 8 := by simp only [Nat.shiftLeft_eq]; omega
      rw [BitVec.toNat_or, BitVec.toNat_shiftLeft, BitVec.toNat_setWidth, h32, hc,
        ← Nat.shiftLeft_add_eq_or_of_lt b.isLt, Nat.shiftLeft_eq, Nat.ModEq]
      omega
    have hp : (c.toNat * 256 + b.toNat) * 256 ^ bs.length + digits bs =
        c.toNat * 256 ^ (b :: bs).length + digits (b :: bs) := by
      rw [List.length_cons, digits, Nat.pow_succ]; ring
    rw [show shiftIn c (b :: bs) = shiftIn ((c <<< 8) ||| b.setWidth 32) bs from rfl, ih, ← hp]
    exact (hb.mul_right _).add_right _

theorem append_byte_toNat {w : Nat} (x : BitVec w) (b : Byte) : (x ++ b).toNat = x.toNat * 256 + b.toNat := by
  rw [BitVec.toNat_append, ← Nat.shiftLeft_add_eq_or_of_lt b.isLt, Nat.shiftLeft_eq]

/-- The first of five bytes is shifted out of DEC_CODE (R144). -/
theorem shiftIn_five (b0 b1 b2 b3 b4 : Byte) : shiftIn 0 [b0, b1, b2, b3, b4] = b1 ++ b2 ++ b3 ++ b4 := by
  apply BitVec.eq_of_toNat_eq
  have := b1.isLt; have := b2.isLt; have := b3.isLt; have := b4.isLt
  rw [shiftIn_toNat, append_byte_toNat, append_byte_toNat, append_byte_toNat]
  simp only [digits, List.length_cons, List.length_nil, BitVec.ofNat_eq_ofNat, BitVec.toNat_ofNat]
  omega

/-- DEC_INIT from IDLE is the load of five bytes into the decoder's initial registers. -/
theorem exec_decInit_of_idle {s : State} (hm : s.mode = .idle) :
    exec .decInit s = loadCode 5 { s with decRange := 0xFFFFFFFF, decCode := 0, incnt := 0 } := if_neg (not_not_intro hm)

/-- DEC_INIT with five bytes or more. -/
theorem exec_decInit_of_enough {s : State} (hm : s.mode = .idle) {bs q : List Byte} (hq : s.inQueue = bs ++ q)
    (hl : bs.length = 5) : exec .decInit s = .next { s.idle with
      decRange := 0xFFFFFFFF, decCode := shiftIn 0 bs, incnt := 5, inQueue := q, mode := .dec } := by
  have h := loadCode_append (s := { s with decRange := 0xFFFFFFFF, decCode := 0, incnt := 0 }) hq 0
  rw [hl] at h
  rw [exec_decInit_of_idle hm, h, loadCode, complete, State.loaded, hl]
  rfl

/-- What DEC_INIT leaves where it runs out of bytes: all there were are loaded. -/
def State.partLoaded (s : State) : State :=
  { s with
    decRange := 0xFFFFFFFF, inQueue := [], incnt := BitVec.ofNat 64 s.inQueue.length, decCode := shiftIn 0 s.inQueue }

/-- DEC_INIT with fewer than five bytes runs out of them. -/
theorem exec_decInit_of_short {s : State} (hm : s.mode = .idle) (hl : s.inQueue.length < 5) :
    exec .decInit s = starve (.load (5 - s.inQueue.length)) s.partLoaded := by
  obtain ⟨n, hn⟩ : ∃ n, 5 = s.inQueue.length + (n + 1) := ⟨4 - s.inQueue.length, by omega⟩
  have h := loadCode_append (s := { s with decRange := 0xFFFFFFFF, decCode := 0, incnt := 0 })
    (bs := s.inQueue) (q := []) (List.append_nil _).symm (n + 1)
  rw [← hn, show State.loaded { s with decRange := 0xFFFFFFFF, decCode := 0, incnt := 0 } s.inQueue [] = s.partLoaded by
    rw [State.loaded, show (0 : Dword) + BitVec.ofNat 64 s.inQueue.length = BitVec.ofNat 64 s.inQueue.length from
      BitVec.zero_add _]; rfl] at h
  rw [exec_decInit_of_idle hm, h, show 5 - s.inQueue.length = n + 1 by omega]
  rfl

end Sys2Proof.Machine

open Sys2Proof Sys2Proof.Machine

/-- Settles O36: the loop of RenormD round by round, and the two sides of each split. -/
theorem decoderPrimitives : Obligations.DecoderPrimitives := by
  unfold Obligations.DecoderPrimitives
  intro s a b half
  exact ⟨renormD_of_wide, fun x q => renormD_of_narrow, renormD_of_empty, decodeSplit_of_lt, decodeSplit_of_ge,
    fun h => decodeHalf_of_not_msb (ushiftRight_31_eq_zero.mp h),
    fun h => decodeHalf_of_msb (by rwa [Ne, ushiftRight_31_eq_zero, Bool.not_eq_false] at h)⟩

/-- Settles O37: the load takes the bytes that are there; with five it opens the stream, with fewer it runs out of them. -/
theorem decInitLoadsFiveBytes : Obligations.DecInitLoadsFiveBytes := by
  unfold Obligations.DecInitLoadsFiveBytes
  refine ⟨encodedAs_opcode rfl, fun s => ⟨fun hm b0 b1 b2 b3 b4 q hq => ?_, fun hm hl he => ?_, fun hm hl he => ?_,
    exec_of_wrongMode rfl⟩⟩
  · rw [exec_decInit_of_enough hm hq rfl, shiftIn_five]
  · exact (exec_decInit_of_short hm hl).trans (if_pos he)
  · exact (exec_decInit_of_short hm hl).trans (if_neg (Bool.eq_false_iff.mp he))

/-- Settles O40: the check of MODE, then MODE alone is written. -/
theorem decEndClosesStream : Obligations.DecEndClosesStream := by
  unfold Obligations.DecEndClosesStream
  exact ⟨encodedAs_opcode rfl, fun s => ⟨fun hm => if_neg (not_not_intro hm), exec_of_wrongMode rfl⟩⟩
end

section
/-! SUPPORT. A decoding walk as a function of its bytes: none where they run out. Each loop of the
pseudocode is this walk read its own way, and a decoding command completes or runs dry as the walk does (spec/42_range_decoder.md
R142 to R149, spec/43_bit_tree.md R163, R164, spec/44_literal.md R184, R185). -/

namespace Sys2Proof.Machine

/-! ### The walk -/

/-- Decode `n` bits along the walk: what is left of the walk, and the state; none where a RenormD finds the queue empty. -/
def decodeWalk : Nat → Walk → State → Option (Walk × State)
  | 0, w, s => some (w, s)
  | n + 1, w, s =>
    let d := w.split s
    if d.2.renormD.1 then decodeWalk n (w.advance d.1) d.2.renormD.2 else none

/-- The next bit decodes, or it runs dry. -/
theorem decodeWalk_succ_cases (n : Nat) (w : Walk) (s : State) :
    (∃ t, (w.split s).2.renormD = (true, t) ∧ decodeWalk (n + 1) w s = decodeWalk n (w.advance (w.split s).1) t) ∨
      ∃ u, (w.split s).2.renormD = (false, u) ∧ decodeWalk (n + 1) w s = none := by
  rw [decodeWalk]
  rcases h : (w.split s).2.renormD with ⟨_ | _, t⟩
  · exact .inr ⟨t, rfl, rfl⟩
  · exact .inl ⟨t, rfl, rfl⟩

/-- A bit through a cell is DecodeBit. -/
theorem decodeWalk_succ_of_cell {w : Walk} {a : Nat} (hw : w.cell = some a) (n : Nat) (s : State) :
    decodeWalk (n + 1) w s = (s.decodeBit a).bind fun r => decodeWalk n (w.advance r.1) r.2 := by
  have hs : w.split s = s.decodeSplit a := by rw [Walk.split, hw]
  simp only [decodeWalk, State.decodeBit, hs]
  split <;> rfl

/-- A walk that has its bytes touches the decoder alone. -/
theorem decodeWalk_touch {n : Nat} {w w' : Walk} {s u : State} (h : decodeWalk n w s = some (w', u)) : decTouch s u := by
  induction n generalizing w s with
  | zero => cases h; exact decTouch.refl _
  | succ n ih =>
    rcases decodeWalk_succ_cases n w s with ⟨t, ht, he⟩ | ⟨_, -, he⟩
    · have hf := (walkSplit_touch w s).1.trans (renormD_touch _)
      rw [ht] at hf
      exact hf.trans (ih (he.symm.trans h))
    · rw [he] at h; cases h

/-- A walk that has its bytes leaves DEC_RANGE at 2^24 or above, where it decodes a bit or found DEC_RANGE so (R141). -/
theorem decodeWalk_range {n : Nat} {w w' : Walk} {s u : State} (h : decodeWalk n w s = some (w', u))
    (hr : n = 0 → 2 ^ 24 ≤ s.decRange.toNat) : 2 ^ 24 ≤ u.decRange.toNat := by
  induction n generalizing w s with
  | zero => cases h; exact hr rfl
  | succ n ih =>
    rcases decodeWalk_succ_cases n w s with ⟨t, ht, he⟩ | ⟨_, -, he⟩
    · exact ih (he.symm.trans h) fun _ => renormD_ended ht
    · rw [he] at h; cases h

/-- A command whose walk has its bytes completes with the walk's result. -/
theorem runWalk_of_decodeWalk {n : Nat} {w w' : Walk} {s u : State} (h : decodeWalk n w s = some (w', u)) :
    runWalk n w s = .next { u.idle with res := w'.result } := by
  induction n generalizing w s with
  | zero => cases h; rfl
  | succ n ih =>
    rcases decodeWalk_succ_cases n w s with ⟨t, ht, he⟩ | ⟨_, -, he⟩
    · rw [runWalk, ht]
      exact ih (he.symm.trans h)
    · rw [he] at h; cases h

/-- A walk that runs dry decodes some bits, and then RenormD finds the queue empty. -/
theorem dry_of_decodeWalk {n : Nat} {w : Walk} {s : State} (h : decodeWalk n w s = none) :
    ∃ u, w.Dry n s u ∧ ∃ k < n, ∃ w' t, decodeWalk k w s = some (w', t) ∧ (w'.split t).2.renormD = (false, u) := by
  induction n generalizing w s with
  | zero => cases h
  | succ n ih =>
    rcases decodeWalk_succ_cases n w s with ⟨t, ht, he⟩ | ⟨u, hu, -⟩
    · obtain ⟨u, hd, k, hk, w', t', hw, hr⟩ := ih (he.symm.trans h)
      refine ⟨u, .later ht hd, k + 1, by omega, w', t', ?_, hr⟩
      rw [decodeWalk, ht]; exact hw
    · exact ⟨u, .here hu, 0, by omega, w, s, rfl, hu⟩

/-! ### The loops of the pseudocode -/

theorem decodeWalk_bit (a r : Nat) (s : State) :
    decodeWalk 1 (.bit a r) s = (s.decodeBit a).map fun p => (.bit a p.1.toNat, p.2) := by
  rw [decodeWalk_succ_of_cell rfl]
  cases s.decodeBit a <;> rfl

theorem decodeWalk_direct (n : Nat) (r : Word) (s : State) :
    decodeWalk n (.direct r) s = (State.decodeDirect n r s).map fun p => (.direct p.1, p.2) := by
  induction n generalizing r s with
  | zero => rfl
  | succ n ih =>
    simp only [decodeWalk, State.decodeDirect, Walk.split, Walk.cell, Walk.advance, ih]
    split <;> rfl

theorem decodeTree_succ (base n m : Nat) (s : State) :
    State.decodeTree base (n + 1) m s =
      (s.decodeBit (base + m)).bind fun r => State.decodeTree base n (2 * m + r.1.toNat) r.2 := by
  rw [State.decodeTree]
  cases s.decodeBit (base + m) <;> rfl

theorem decodeWalk_tree (base width n m : Nat) (s : State) :
    decodeWalk n (.tree base width m) s = (State.decodeTree base n m s).map fun p => (.tree base width p.1, p.2) := by
  induction n generalizing m s with
  | zero => rfl
  | succ n ih =>
    rw [decodeWalk_succ_of_cell rfl, decodeTree_succ]
    cases s.decodeBit (base + m) with
    | none => rfl
    | some r => exact ih _ _

/-- A bit placed above `i` bits keeps these and is bit `i`. -/
theorem testBit_or_bit {acc i : Nat} (h : acc < 2 ^ i) (bit : Bool) :
    (∀ j < i, (acc ||| bit.toNat <<< i).testBit j = acc.testBit j) ∧ (acc ||| bit.toNat <<< i).testBit i = bit ∧
      acc ||| bit.toNat <<< i < 2 ^ (i + 1) := by
  have hb := Bool.toNat_le bit
  refine ⟨fun j hj => ?_, ?_, ?_⟩
  · rw [Nat.testBit_or, Nat.testBit_shiftLeft, decide_eq_false (by omega), Bool.false_and, Bool.or_false]
  · rw [Nat.testBit_or, Nat.testBit_lt_two_pow h, Nat.testBit_shiftLeft, decide_eq_true le_rfl, Nat.sub_self]
    cases bit <;> rfl
  · refine Nat.or_lt_two_pow (h.trans (Nat.pow_lt_pow_right (by omega) (by omega))) ?_
    rw [Nat.shiftLeft_eq, Nat.pow_succ, Nat.mul_comm]
    exact Nat.mul_lt_mul_of_le_of_lt le_rfl (by omega) (by positivity)

/-- The node of a reverse walk is that of the bits so far (R160). -/
theorem decodeWalk_rev {base n i m acc : Nat} {s : State} (ha : acc < 2 ^ i) (hm : m = treeNode (lsbFirst acc) i) :
    decodeWalk n (.rev base i m acc) s =
      (State.decodeReverse base n i m acc s).map fun p => (.rev base (i + n) (treeNode (lsbFirst p.1) (i + n)) p.1, p.2) := by
  induction n generalizing i m acc s with
  | zero => rw [hm]; rfl
  | succ n ih =>
    rw [decodeWalk_succ_of_cell rfl, State.decodeReverse]
    cases s.decodeBit (base + m) with
    | none => rfl
    | some r =>
      obtain ⟨bit, t⟩ := r
      obtain ⟨hlow, hbit, hlt⟩ := testBit_or_bit ha bit
      have hnode : 2 * m + bit.toNat = treeNode (lsbFirst (acc ||| bit.toNat <<< i)) (i + 1) := by
        rw [treeNode, treeNode_congr (f := lsbFirst _) (g := lsbFirst acc) hlow, ← hm, lsbFirst, hbit]
      have h := ih (s := t) hlt hnode
      rw [show i + 1 + n = i + (n + 1) by omega] at h
      exact h

/-- The node a tree loop ends at lies below the node it began at. -/
theorem decodeTree_div {base n m v : Nat} {s u : State} (h : State.decodeTree base n m s = some (v, u)) : v / 2 ^ n = m := by
  induction n generalizing m s with
  | zero => cases h; simp
  | succ n ih =>
    rw [decodeTree_succ] at h
    obtain ⟨⟨bit, t⟩, -, ht⟩ := Option.bind_eq_some_iff.mp h
    have hb := Bool.toNat_le bit
    rw [Nat.pow_succ, ← Nat.div_div_eq_div_mul, ih ht]
    dsimp only
    omega

/-- A matched walk whose bits disagreed is a normal one. -/
theorem decodeWalk_litm_normal (base n x : Nat) (mb : Byte) (s : State) :
    decodeWalk n (.litm base x mb false) s =
      (State.decodeTree base n x s).map fun p => (.litm base p.1 (mb <<< n) false, p.2) := by
  induction n generalizing x mb s with
  | zero => simp [decodeWalk, State.decodeTree]
  | succ n ih =>
    have hshift : mb <<< (n + 1) = mb <<< 1 <<< n := by rw [← BitVec.shiftLeft_add, Nat.add_comm]
    rw [decodeWalk_succ_of_cell rfl, decodeTree_succ, hshift]
    change (s.decodeBit (base + x)).bind _ = _
    cases s.decodeBit (base + x) with
    | none => rfl
    | some r => exact ih _ _ _

theorem decodeMatched_succ (base n x : Nat) (mb : Byte) (s : State) :
    State.decodeMatched base (n + 1) mb x s =
      (s.decodeBit (base + ((1 + mb.msb.toNat) <<< 8) + x)).bind fun r =>
        if mb.msb ≠ r.1 then State.decodeTree base n (2 * x + r.1.toNat) r.2
        else State.decodeMatched base n (mb <<< 1) (2 * x + r.1.toNat) r.2 := by
  rw [State.decodeMatched]
  cases s.decodeBit (base + ((1 + mb.msb.toNat) <<< 8) + x) <;> rfl

/-- The match byte with its next bit taken off. -/
theorem shiftLeft_one_toNat (mb : Byte) : 2 * mb.toNat = 256 * mb.msb.toNat + (mb <<< 1).toNat := by
  have := mb.isLt
  rw [BitVec.toNat_shiftLeft, Nat.shiftLeft_eq, BitVec.msb_eq_decide]
  by_cases h : 2 ^ (8 - 1) ≤ mb.toNat
  · rw [decide_eq_true h, Bool.toNat_true]; omega
  · rw [decide_eq_false h, Bool.toNat_false]; omega

/-- The node that agrees with the match byte after `n` bits from node `x`: `x`, then the top `n` bits of the match byte. -/
def agreeNode (x : Nat) (mb : Byte) (n : Nat) : Nat := (x * 256 + mb.toNat) / 2 ^ (8 - n)

theorem agreeNode_zero (x : Nat) (mb : Byte) : agreeNode x mb 0 = x := by
  have := mb.isLt
  rw [agreeNode]; omega

theorem agreeNode_succ {n : Nat} (hn : n < 8) (x : Nat) (mb : Byte) :
    agreeNode x mb (n + 1) = agreeNode (2 * x + mb.msb.toNat) (mb <<< 1) n := by
  have hpow : 2 ^ (8 - n) = 2 * 2 ^ (8 - (n + 1)) := by rw [← Nat.pow_succ']; congr 1; omega
  have hdouble : (2 * x + mb.msb.toNat) * 256 + (mb <<< 1).toNat = 2 * (x * 256 + mb.toNat) := by
    have := shiftLeft_one_toNat mb; omega
  rw [agreeNode, agreeNode, hpow, hdouble, Nat.mul_div_mul_left _ _ (by omega)]

/-- The agreeing node lies below the node it comes from. -/
theorem agreeNode_div {n : Nat} (hn : n ≤ 8) (x : Nat) (mb : Byte) : agreeNode x mb n / 2 ^ n = x := by
  have := mb.isLt
  rw [agreeNode, Nat.div_div_eq_div_mul, ← Nat.pow_add, Nat.sub_add_cancel hn]
  omega

/-- The match byte's tree is used while the node is the one that agrees with the match byte (R181). -/
theorem decodeWalk_litm {base n x : Nat} {mb : Byte} {s : State} (hn : n ≤ 8) :
    decodeWalk n (.litm base x mb true) s = (State.decodeMatched base n mb x s).map fun p =>
      (.litm base p.1 (mb <<< n) (decide (p.1 = agreeNode x mb n)), p.2) := by
  induction n generalizing x mb s with
  | zero => simp [decodeWalk, State.decodeMatched, agreeNode_zero]
  | succ n ih =>
    have hshift : mb <<< (n + 1) = mb <<< 1 <<< n := by rw [← BitVec.shiftLeft_add, Nat.add_comm]
    rw [decodeWalk_succ_of_cell rfl, decodeMatched_succ, agreeNode_succ (by omega), hshift, Nat.add_assoc]
    change (s.decodeBit (base + ((1 + mb.msb.toNat) <<< 8 + x))).bind _ = _
    cases s.decodeBit (base + ((1 + mb.msb.toNat) <<< 8 + x)) with
    | none => rfl
    | some r =>
      obtain ⟨bit, t⟩ := r
      simp only [Option.bind_some, Walk.advance, Bool.true_and]
      by_cases hb : mb.msb = bit
      · subst hb
        rw [if_neg (not_not_intro rfl), beq_self_eq_true, ih (by omega)]
      · rw [if_pos hb, beq_eq_false_iff_ne.mpr hb, decodeWalk_litm_normal]
        refine Option.map_congr fun p hp => ?_
        have hne : p.1 ≠ agreeNode (2 * x + mb.msb.toNat) (mb <<< 1) n := fun h => by
          have hdiv := decodeTree_div hp
          rw [h, agreeNode_div (by omega)] at hdiv
          exact hb ((by decide : ∀ a b : Bool, a.toNat = b.toNat → a = b) _ _ (by omega))
        rw [decide_eq_false hne]

end Sys2Proof.Machine
end

section
/-! SUPPORT, then the settled statements. The commands DEC_BIT and DEC_DIRECT, and what a Truncated fault leaves of any command
(spec/42_range_decoder.md R145, R146, R149). -/

namespace Sys2Proof.Machine

/-! ### How many bytes a bit needs -/

/-- A bit through a legal cell, or a direct one, needs at most two bytes. -/
theorem walkBit_two_bytes {w : Walk} {s : State} (hm : s.memoryOk) (hr : 2 ^ 24 ≤ s.decRange.toNat)
    (hq : 2 ≤ s.inQueue.length) :
    (w.split s).2.renormD.1 = true ∧ s.inQueue.length ≤ (w.split s).2.renormD.2.inQueue.length + 2 := by
  have hw := walkSplit_range (w := w) hm hr
  rw [← (walkSplit_touch w s).2.2] at hq ⊢
  exact renormOver_enough rfl hq (by omega)

/-- A direct bit needs at most one byte. -/
theorem halfBit_one_byte {s : State} (hr : 2 ^ 24 ≤ s.decRange.toNat) (hq : 1 ≤ s.inQueue.length) :
    s.decodeHalf.2.renormD.1 = true ∧ s.inQueue.length ≤ s.decodeHalf.2.renormD.2.inQueue.length + 1 := by
  have hhalf : s.decodeHalf.2.decRange = s.decRange >>> 1 := by
    rcases Bool.eq_false_or_eq_true (s.decCode - s.decRange >>> 1).msb with h | h
    · rw [decodeHalf_of_msb h]
    · rw [decodeHalf_of_not_msb h]
  rw [← State.decodeHalf_inQueue] at hq ⊢
  refine renormOver_enough rfl hq ?_
  rw [hhalf, BitVec.toNat_ushiftRight, Nat.shiftRight_eq_div_pow]
  omega

/-! ### DecodeDirect -/

theorem decodeDirect_succ (n : Nat) (r : Word) (s : State) :
    State.decodeDirect (n + 1) r s =
      if s.decodeHalf.2.renormD.1 then
        State.decodeDirect n ((r <<< 1) ||| (BitVec.ofBool s.decodeHalf.1).setWidth 32) s.decodeHalf.2.renormD.2
      else none := rfl

/-- `n` direct bits need at most `n` bytes. -/
theorem decodeDirect_enough {n : Nat} {r : Word} {s : State} (hr : 2 ^ 24 ≤ s.decRange.toNat) (hq : n ≤ s.inQueue.length) :
    ∃ v u, State.decodeDirect n r s = some (v, u) := by
  induction n generalizing r s with
  | zero => exact ⟨r, s, rfl⟩
  | succ n ih =>
    obtain ⟨hend, hlen⟩ := halfBit_one_byte hr (by omega)
    rw [decodeDirect_succ, if_pos hend]
    exact ih (renormOver_ready hend) (by omega)

/-- Shifting a bit into a result at most doubles it and adds the bit. -/
theorem pushBit_toNat_le (r : Word) (bit : Bool) :
    ((r <<< 1) ||| (BitVec.ofBool bit).setWidth 32).toNat ≤ 2 * r.toNat + 1 := by
  have hbit : ((BitVec.ofBool bit).setWidth 32).toNat = bit.toNat := by cases bit <;> rfl
  have hshift : r.toNat <<< 1 % 2 ^ 32 = (r.toNat % 2 ^ 31) <<< 1 := by simp only [Nat.shiftLeft_eq]; omega
  have hb := Bool.toNat_le bit
  rw [BitVec.toNat_or, BitVec.toNat_shiftLeft, hbit, hshift, ← Nat.shiftLeft_add_eq_or_of_lt (by omega), Nat.shiftLeft_eq]
  omega

/-- `n` direct bits append `n` bits to the result and touch no cell. -/
theorem decodeDirect_result {n : Nat} {r v : Word} {s u : State} (h : State.decodeDirect n r s = some (v, u)) :
    v.toNat < (r.toNat + 1) * 2 ^ n ∧ u.cells = s.cells := by
  induction n generalizing r s with
  | zero => cases h; exact ⟨by omega, rfl⟩
  | succ n ih =>
    rw [decodeDirect_succ] at h
    split at h
    · obtain ⟨hv, hc⟩ := ih h
      have hpush := pushBit_toNat_le r s.decodeHalf.1
      refine ⟨hv.trans_le ?_, by rw [hc, renormD_cells, State.decodeHalf_cells]⟩
      rw [Nat.pow_succ', ← Nat.mul_assoc]
      exact Nat.mul_le_mul_right _ (by omega)
    · cases h

/-! ### Where the bytes run out -/

/-- The next bit of a match byte that was shifted left `k` times. -/
theorem msb_shiftLeft_byte {k : Nat} (hk : k < 8) (mb : Byte) : (mb <<< k).msb = mb.toNat.testBit (7 - k) := by
  rw [BitVec.msb_shiftLeft, BitVec.getMsbD, decide_eq_true hk]
  rfl

/-- The cell of a matched walk as R149 names it. -/
theorem litm_cell_eq {k : Nat} (hk : k < 8) (base x : Nat) (mb : Byte) :
    (Walk.litm base x (mb <<< k) (decide (x = agreeNode 1 mb k))).cell =
      some (base + if x = (0x100 + mb.toNat) / 2 ^ (8 - k) then ((1 + (mb.toNat.testBit (7 - k)).toNat) <<< 8) + x else x) := by
  rw [Walk.cell, msb_shiftLeft_byte hk, show (0x100 + mb.toNat) / 2 ^ (8 - k) = agreeNode 1 mb k from rfl]
  by_cases h : x = agreeNode 1 mb k
  · rw [decide_eq_true h, if_pos h, if_pos rfl, Nat.add_assoc]
  · rw [decide_eq_false h, if_neg h, if_neg Bool.false_ne_true]

/-- The walk that runs dry is the pseudocode that does (R149). -/
theorem runsDry_of_decodeWalk {i : Instr} {s t u : State} {n k : Nat} {w w' : Walk} (hi : decodeWalkOf i s = some (n, w))
    (hk : k < n) (hw : decodeWalk k w s = some (w', t)) (hr : (w'.split t).2.renormD = (false, u)) : runsDry i s u := by
  cases i with
  | decBit =>
    cases hi
    obtain rfl : k = 0 := by omega
    cases hw
    exact hr
  | decDirect =>
    cases hi
    rw [decodeWalk_direct] at hw
    obtain ⟨⟨v, t⟩, hv, ⟨⟩⟩ := Option.map_eq_some_iff.mp hw
    exact ⟨k, hk, v, t, hv, hr⟩
  | decBt | decLit =>
    cases hi
    rw [decodeWalk_tree] at hw
    obtain ⟨⟨m, t⟩, hm, ⟨⟩⟩ := Option.map_eq_some_iff.mp hw
    exact ⟨k, hk, m, t, hm, hr⟩
  | decBtr =>
    cases hi
    rw [decodeWalk_rev (i := 0) (m := 1) (acc := 0) (by decide) rfl, Nat.zero_add] at hw
    obtain ⟨⟨v, t⟩, hv, ⟨⟩⟩ := Option.map_eq_some_iff.mp hw
    exact ⟨k, hk, v, t, hv, hr⟩
  | decLitm =>
    cases hi
    rw [decodeWalk_litm (by omega)] at hw
    obtain ⟨⟨m, t⟩, hm, ⟨⟩⟩ := Option.map_eq_some_iff.mp hw
    rw [Walk.split, litm_cell_eq hk] at hr
    exact ⟨k, hk, m, t, hm, hr⟩
  | _ => cases hi

/-- A decoding command whose walk runs dry holds, or raises Truncated, where its pseudocode runs dry (R61, R149). -/
theorem exec_of_dry {i : Instr} {s : State} {n : Nat} {w : Walk} (hi : decodeWalkOf i s = some (n, w))
    (he : exec i s = runWalk n w s) (hw : decodeWalk n w s = none) : ∃ u, runsDry i s u ∧ holdsOrTruncates i s u := by
  obtain ⟨u, hd, k, hk, w', t, hw', hr⟩ := dry_of_decodeWalk hw
  exact ⟨u, runsDry_of_decodeWalk hi hk hw' hr, hd.holdsOrTruncates he⟩

/-- Running out of bytes in a state of no fault, a command that leaves Truncated found EOI = 1. -/
theorem starve_truncated {k : Task} {u t : State} (hf : u.fault = .none) (ht : t.fault = .truncated)
    (h : starve k u = .next t) : u.eoi = true ∧ t = { u.idle with fault := .truncated, faultInfo := u.latW } := by
  rcases starve_eq_next.mp h with ⟨he, rfl⟩ | ⟨-, rfl⟩
  · rw [State.record_of_none hf]; exact ⟨he, rfl⟩
  · rw [State.hold_fault, hf] at ht; cases ht

/-- Truncated is raised where the pseudocode of the command runs dry, and there alone: the queue is empty, and a decoding command
is inside RenormD. -/
theorem exec_truncated {i : Instr} {s t : State} (h : exec i s = .next t) (hs : s.fault = .none) (ht : t.fault = .truncated) :
    ∃ k u, starve k u = .next t ∧ decTouch s u ∧ runsDry i s u ∧ u.inQueue = [] ∧
      (i ≠ .decInit → u.decRange.toNat < 2 ^ 24) := by
  have g := exec_goes i s
  have hexec := h
  generalize exec i s = o at g h
  have kept (u : State) (hu : u.fault = s.fault) (h' : t.fault = u.fault) : False := by
    rw [h', hu, hs] at ht; cases ht
  cases g with
  | decodes hm hi =>
    rename_i n w
    cases hw : decodeWalk n w s with
    | some p =>
      have hu := decodeWalk_touch hw
      rw [runWalk_of_decodeWalk hw] at h
      cases h
      exact (kept p.2 (by rw [hu]) rfl).elim
    | none =>
      obtain ⟨u, ⟨⟨j, hj⟩, hu⟩, k, hk, w', v, hw', hr⟩ := dry_of_decodeWalk hw
      obtain ⟨hq, hlt⟩ := renormD_ran_dry hr
      exact ⟨j, u, hj.symm.trans h, hu, runsDry_of_decodeWalk hi hk hw' hr, hq, fun _ => hlt⟩
  | loads hm =>
    rcases Nat.lt_or_ge s.inQueue.length 5 with hl | hl
    · rw [exec_decInit_of_short hm hl] at hexec
      exact ⟨_, _, hexec, rfl, ⟨hl, rfl⟩, rfl, fun hi => (hi rfl).elim⟩
    · rw [exec_decInit_of_enough hm (List.take_append_drop 5 _).symm (List.length_take_of_le hl)] at hexec
      cases hexec
      exact (kept s rfl rfl).elim
  | refusedOperands c hc => rw [fault_of_raise hs h] at ht; subst ht; simp at hc
  | wrongMode => rw [fault_of_raise hs h] at ht; cases ht
  | encodes =>
    obtain ⟨u, -, hu, rfl⟩ := encodeAlong_frame h
    exact (kept u (by rw [hu]) rfl).elim
  | encodesDirect =>
    obtain ⟨u, hu, rfl⟩ := finishEncode_eq_next.mp h
    exact (kept u (by rw [(encodeDirect_touch hu).1]) rfl).elim
  | encFlush => cases h; exact (kept s rfl (by simp)).elim
  | _ => cases h; exact (kept s rfl rfl).elim

end Sys2Proof.Machine

open Sys2Proof Sys2Proof.Machine

/-- Settles O38: the command is the walk of one bit, which is DecodeBit. -/
theorem decBitDecodes : Obligations.DecBitDecodes := by
  unfold Obligations.DecBitDecodes
  refine ⟨encodedAs_opcode rfl, fun s => ⟨fun hm ha => ?_, exec_of_wrongMode rfl,
    fun hm ha => guarded_operand hm ha.not_gt⟩⟩
  have he : exec .decBit s = runWalk 1 (.bit s.a 0) s := guarded_of_ok hm ha
  have hwalk : decodeWalk 1 (.bit s.a 0) s = (s.decodeBit s.latA.toNat).map fun p => (.bit s.a p.1.toNat, p.2) :=
    decodeWalk_bit s.a 0 s
  refine ⟨fun bit u h => ?_, fun h => ?_, fun hmem hr hq => ?_⟩
  · rw [h] at hwalk
    refine ⟨?_, decodeWalk_range hwalk nofun⟩
    rw [he, runWalk_of_decodeWalk hwalk]
    cases bit <;> rfl
  · rw [h] at hwalk
    exact exec_of_dry rfl he hwalk
  · have hend := (walkBit_two_bytes (w := .bit s.a 0) hmem hr hq).1
    exact ⟨_, _, if_pos hend⟩

/-- Settles O39: the command is the walk of N direct bits, which is DecodeDirect. -/
theorem decDirectDecodes : Obligations.DecDirectDecodes := by
  unfold Obligations.DecDirectDecodes
  refine ⟨encodedWith_of_decodeOp fun _ => rfl, fun s n => ⟨fun hm h1 h32 => ?_, exec_of_wrongMode rfl, fun hm hn => ?_⟩⟩
  · have he : exec (.decDirect n) s = runWalk n (.direct 0) s := guarded_of_ok hm ⟨h1, h32⟩
    have hwalk := decodeWalk_direct n 0 s
    refine ⟨fun v u h => ?_, fun h => ?_, fun hr hq => ?_⟩
    · rw [h] at hwalk
      exact ⟨he.trans (runWalk_of_decodeWalk hwalk), decodeWalk_range hwalk fun h0 => by omega⟩
    · rw [h] at hwalk
      exact exec_of_dry rfl he hwalk
    · obtain ⟨v, u, h⟩ := decodeDirect_enough (r := 0) hr hq
      obtain ⟨hv, hc⟩ := decodeDirect_result h
      exact ⟨v, u, h, by simpa using hv, hc⟩
  · refine guarded_operand hm fun ⟨h1, h32⟩ => ?_
    omega

/-- Settles O43: a Truncated fault ends the command where its pseudocode runs dry, and until there only the cells, the decoder's
registers and the queue changed. -/
theorem truncatedLeavesPartialEffects : Obligations.TruncatedLeavesPartialEffects := by
  unfold Obligations.TruncatedLeavesPartialEffects
  intro i s t h hs ht
  obtain ⟨k, u, hstarve, hu, hdry, hq, hr⟩ := exec_truncated h hs ht
  obtain ⟨he, rfl⟩ := starve_truncated (by rw [hu]; exact hs) ht hstarve
  have hW : u.latW = s.latW := by rw [hu]; rfl
  exact ⟨by rw [hu]; rfl, by rw [hu]; rfl, hW, hq, rfl, rfl, by rw [hu] at he; exact he, hr, u, hdry, by rw [hW]⟩
end

section
/-! SUPPORT, then the settled statement. A whole stream: every coding command beside the decoding command that mirrors it, and the
two ends of the stream, ENC_INIT beside DEC_INIT and ENC_FLUSH (spec/42_range_decoder.md R148, spec/70_reset_and_hazards.md R267). -/

namespace Sys2Proof.Machine

/-! ### Commands that the host issues -/

/-- The state in which a command that the host issues runs. -/
def launched (i : Instr) (a : BitVec 24) (v : Word) (s : State) : State :=
  State.launch { s with cmdA := a, cmdV := v } (encode i)

/-- A command issued answers the state it completes in. -/
theorem issue_eq_some {i : Instr} {a : BitVec 24} {v : Word} {s t : State} :
    issue i a v s = some t ↔ exec i (launched i a v s) = .next t ∧ t.fault = .none ∧ t.busy = false := by
  unfold issue
  rw [show State.launch { s with cmdA := a, cmdV := v } (encode i) = launched i a v s from rfl]
  cases exec i (launched i a v s) with
  | next u =>
    simp only [Option.ite_none_right_eq_some, Option.some.injEq, Host.Outcome.next.injEq]
    constructor
    · rintro ⟨h, rfl⟩; exact ⟨rfl, h⟩
    · rintro ⟨rfl, h⟩; exact ⟨h, rfl⟩
  | fault r => simp
  | refused r => simp

/-- OUTCNT counts the bytes of every command issued after ENC_INIT. -/
theorem emits_of_issue {i : Instr} {a : BitVec 24} {v : Word} {s t : State} (hi : i ≠ .encInit) (h : issue i a v s = some t) :
    Emits s t :=
  (exec_emits (issue_eq_some.mp h).1).resolve_right fun hi' => hi hi'.1

theorem encodeAll_cons (c : Coding) (cs : List Coding) (s : State) :
    encodeAll (c :: cs) s = (issue c.encoder c.a c.v s).bind (encodeAll cs) := by
  rw [encodeAll]
  cases issue c.encoder c.a c.v s <;> rfl

theorem decodeAll_cons (c : Coding) (cs : List Coding) (s : State) :
    decodeAll (c :: cs) s =
      (issue c.decoder c.a c.decoderV s).bind fun t => (decodeAll cs t).map fun p => (t.res :: p.1, p.2) := by
  rw [decodeAll]
  cases issue c.decoder c.a c.decoderV s with
  | none => rfl
  | some t =>
    simp only [Option.bind_some]
    cases decodeAll cs t <;> rfl

theorem encodeAll_append (cs cs' : List Coding) (s : State) :
    encodeAll (cs ++ cs') s = (encodeAll cs s).bind (encodeAll cs') := by
  induction cs generalizing s with
  | nil => rfl
  | cons c cs ih =>
    rw [List.cons_append, encodeAll_cons, encodeAll_cons, Option.bind_assoc]
    exact congrArg _ (funext ih)

theorem encoder_ne_encInit (c : Coding) : c.encoder ≠ .encInit := by
  unfold Coding.encoder
  split <;> nofun

theorem emits_of_encodeAll {cs : List Coding} {s t : State} (h : encodeAll cs s = some t) : Emits s t := by
  induction cs generalizing s with
  | nil => cases h; exact .of_eq rfl rfl
  | cons c cs ih =>
    rw [encodeAll_cons] at h
    obtain ⟨u, hu, ht⟩ := Option.bind_eq_some_iff.mp h
    exact (emits_of_issue (encoder_ne_encInit c) hu).trans (ih ht)

/-! ### A coding command beside its mirror -/

/-- The encoding command of `c` runs in the state `e`. -/
structure Coding.EncoderRuns (c : Coding) (e : State) : Prop where
  mode : e.mode = .enc
  latA : e.latA = c.a
  latV : e.latV = c.v

/-- The decoding command of `c` runs in the state `d` of a machine with the parameters `cfg`. -/
structure Coding.DecoderRuns (c : Coding) (cfg : Config) (d : State) : Prop where
  mode : d.mode = .dec
  cfg : d.cfg = cfg
  latA : d.latA = c.a
  latV : d.latV = c.decoderV

/-- The decoding command of `c` in the state `d` is a walk that has its bytes, leaves `d'` and returns what `c` codes. -/
def Coding.Decodes (c : Coding) (d d' : State) : Prop :=
  ∃ n w w', exec c.decoder d = runWalk n w d ∧ decodeWalk n w d = some (w', d') ∧ w'.result = c.value

/-- The encoding command of `c` completes in the state `e`, and a decoder that follows reads the value back and follows on. -/
def Coding.Mirrored (c : Coding) (e : State) : Prop :=
  ∃ e', exec c.encoder e = .next e'.idle ∧ encTouch e e' ∧ EncOk e' ∧ Leads 96 e e' ∧
    ∀ bs skip rest d, c.DecoderRuns e.cfg d → Covers bs e' → Follows bs skip rest e d →
      ∃ d', c.Decodes d d' ∧ Follows bs skip rest e' d'

theorem EncOk.intervalOk {e : State} (h : EncOk e) : e.intervalOk := ⟨h.range, h.carry.bound⟩

theorem Leads.mono {m n : Nat} {e e' : State} (h : Leads m e e') (hn : m ≤ n) : Leads n e e' :=
  ⟨h.back, h.grows.trans (by omega)⟩

/-- A command through a walk of cells is mirrored by the command that decodes along the same walk. -/
theorem Coding.Mirrored.of_path {c : Coding} {e : State} (h : EncOk e) (hw : e.encCsize.toNat + 96 < 2 ^ 64)
    {path : List (Nat × Bool)} (hlen : path.length ≤ 16) (hram : ∀ x ∈ path, x.1 < e.cfg.nprob)
    (henc : exec c.encoder e = encodeAlong path e)
    (hdec : ∀ d d', c.DecoderRuns e.cfg d → decodePath path d = some d' → c.Decodes d d') : c.Mirrored e := by
  obtain ⟨e', he', hf, -⟩ := encodePath_spec h.memory h.intervalOk hram
  obtain ⟨hok, hleads, hfollow⟩ := encodePath_follow h hram (by omega) he'
  refine ⟨e', henc.trans (finishEncode_eq_next.mpr ⟨e', he', rfl⟩), hf, hok, hleads.mono (by omega), ?_⟩
  intro bs skip rest d hd hcov hfol
  obtain ⟨d', hd', hfol'⟩ := hfollow bs skip rest d hcov hfol
  exact ⟨d', hdec d d' hd hd', hfol'⟩

theorem treePath_length (base v n m : Nat) : (treePath base v n m).length = n := by
  induction n generalizing m with
  | zero => rfl
  | succ n ih => rw [treePath, List.length_cons, ih]

theorem reversePath_length (base n v m : Nat) : (reversePath base n v m).length = n := by
  induction n generalizing v m with
  | zero => rfl
  | succ n ih => rw [reversePath, List.length_cons, ih]

theorem matchedFrom_length (base sym mb n x : Nat) (same : Bool) : (matchedFrom base sym mb n x same).length = n := by
  induction n generalizing x same with
  | zero => rfl
  | succ n ih => rw [matchedFrom, List.length_cons, ih]

/-! ### Kind by kind -/

theorem decodePath_singleton {a : Nat} {bit : Bool} {d d' : State} (h : decodePath [(a, bit)] d = some d') :
    d.decodeBit a = some (bit, d') := by
  rw [decodePath] at h
  cases hb : d.decodeBit a with
  | none => rw [hb] at h; cases h
  | some r =>
    obtain ⟨b, t⟩ := r
    simp only [hb, decodePath, Option.ite_none_right_eq_some, Option.some.injEq] at h
    rw [h.1, h.2]

theorem ofNat_bitOperand {e : State} (h : e.valueFits 1) : BitVec.ofNat 32 e.bitOperand.toNat = e.latV := by
  have hv : e.latV.toNat < 2 := h
  rw [State.bitOperand_eq (by omega)]
  apply BitVec.eq_of_toNat_eq
  rcases (by omega : e.latV.toNat = 0 ∨ e.latV.toNat = 1) with h0 | h1
  · rw [h0]; rfl
  · rw [h1]; rfl

/-- The value of a tree's node is the symbol. -/
theorem ofNat_node {v : Word} {n : Nat} (h : v.toNat < 2 ^ n) : BitVec.ofNat 32 (1 * 2 ^ n + v.toNat % 2 ^ n - 2 ^ n) = v := by
  rw [Nat.one_mul, Nat.add_sub_cancel_left, Nat.mod_eq_of_lt h, BitVec.ofNat_toNat, BitVec.setWidth_eq]

theorem lowByte_eq (s : State) : s.lowByte = s.latV.toNat % 2 ^ 8 := by
  simp [State.lowByte, BitVec.extractLsb'_toNat]

/-- The match byte is all the mirrored command gets of V. -/
theorem matchByte_of_mask (v : Word) : (v &&& 0xFF00).extractLsb' 8 8 = v.extractLsb' 8 8 := by
  apply BitVec.eq_of_toNat_eq
  rw [BitVec.extractLsb'_toNat, BitVec.extractLsb'_toNat, BitVec.toNat_and, Nat.shiftRight_and_distrib,
    show (0xFF00 : Word).toNat >>> 8 = 2 ^ 8 - 1 from rfl, Nat.and_two_pow_sub_one_eq_mod, Nat.mod_mod]

section
variable {a : BitVec 24} {v : Word} {e : State} (h : EncOk e) (hw : e.encCsize.toNat + 96 < 2 ^ 64)
include h hw

theorem mirrored_bit (hr : Coding.EncoderRuns ⟨.bit, a, v⟩ e)
    (hl : Coding.legal ⟨.bit, a, v⟩ e.cfg.nprob) : Coding.Mirrored ⟨.bit, a, v⟩ e := by
  obtain ⟨hm, rfl, rfl⟩ := hr
  have hok : e.bitOk := hl
  refine .of_path h hw (path := [(e.a, e.bitOperand)]) (by simp) (by simpa using hok.1) (guarded_of_ok hm hok) ?_
  rintro d d' ⟨hdm, hdc, hda, -⟩ hpath
  have ha : d.a = e.a := congrArg BitVec.toNat hda
  refine ⟨1, .bit d.a 0, .bit d.a e.bitOperand.toNat, guarded_of_ok hdm ?_, ?_, ofNat_bitOperand hok.2⟩
  · rw [State.cellInRam, ha, hdc]; exact hok.1
  · rw [decodeWalk_bit, ha, decodePath_singleton hpath]; rfl

theorem mirrored_bt {n : Nat} (hr : Coding.EncoderRuns ⟨.bt n, a, v⟩ e)
    (hl : Coding.legal ⟨.bt n, a, v⟩ e.cfg.nprob) : Coding.Mirrored ⟨.bt n, a, v⟩ e := by
  obtain ⟨hm, rfl, rfl⟩ := hr
  obtain ⟨h1, h16, hram, hv⟩ : 1 ≤ n ∧ n ≤ 16 ∧ e.a + 2 ^ n ≤ e.cfg.nprob ∧ e.v < 2 ^ n := hl
  refine .of_path h hw (path := treePath e.a e.v n 1) (by rwa [treePath_length]) (treePath_inRam hram)
    (guarded_of_ok hm ⟨⟨⟨h1, h16⟩, hram⟩, hv⟩) ?_
  rintro d d' ⟨hdm, hdc, hda, -⟩ hpath
  have ha : d.a = e.a := congrArg BitVec.toNat hda
  refine ⟨n, .tree d.a n 1, .tree d.a n (1 * 2 ^ n + e.v % 2 ^ n), guarded_of_ok hdm ⟨⟨h1, h16⟩, ?_⟩, ?_, ofNat_node hv⟩
  · rw [State.treeInRam, ha, hdc]; exact hram
  · rw [decodeWalk_tree, ha, decodeTree_of_path _ _ _ _ _ _ hpath]; rfl

theorem mirrored_btr {n : Nat} (hr : Coding.EncoderRuns ⟨.btr n, a, v⟩ e)
    (hl : Coding.legal ⟨.btr n, a, v⟩ e.cfg.nprob) : Coding.Mirrored ⟨.btr n, a, v⟩ e := by
  obtain ⟨hm, rfl, rfl⟩ := hr
  obtain ⟨h1, h16, hram, hv⟩ : 1 ≤ n ∧ n ≤ 16 ∧ e.a + 2 ^ n ≤ e.cfg.nprob ∧ e.v < 2 ^ n := hl
  refine .of_path h hw (path := reversePath e.a n e.v 1) (by rwa [reversePath_length]) (reversePath_inRam hram)
    (guarded_of_ok hm ⟨⟨⟨h1, h16⟩, hram⟩, hv⟩) ?_
  rintro d d' ⟨hdm, hdc, hda, -⟩ hpath
  have ha : d.a = e.a := congrArg BitVec.toNat hda
  have hwalk := decodeWalk_rev (base := d.a) (n := n) (i := 0) (m := 1) (acc := 0) (s := d) (by decide) rfl
  rw [ha, decodeReverse_of_path _ _ _ _ _ _ _ _ (by decide) hpath] at hwalk
  refine ⟨n, .rev d.a 0 1 0, _, guarded_of_ok hdm ⟨⟨h1, h16⟩, ?_⟩, by rw [ha]; exact hwalk, ?_⟩
  · rw [State.treeInRam, ha, hdc]; exact hram
  · rw [Walk.result, Nat.pow_zero, Nat.mul_one, Nat.zero_add, Nat.mod_eq_of_lt hv]
    exact (BitVec.ofNat_toNat 32 e.latV).trans (BitVec.setWidth_eq _)

theorem mirrored_lit (hr : Coding.EncoderRuns ⟨.lit, a, v⟩ e)
    (hl : Coding.legal ⟨.lit, a, v⟩ e.cfg.nprob) : Coding.Mirrored ⟨.lit, a, v⟩ e := by
  obtain ⟨hm, rfl, rfl⟩ := hr
  obtain ⟨hram, hv⟩ := hl
  have hlow : e.lowByte = e.latV.toNat := (lowByte_eq e).trans (Nat.mod_eq_of_lt hv)
  refine .of_path h hw (path := literalPath e.a e.lowByte) (by rw [literalPath, treePath_length]; omega) (literalPath_inRam hram)
    (guarded_of_ok hm ⟨hram, hv⟩) ?_
  rintro d d' ⟨hdm, hdc, hda, -⟩ hpath
  have ha : d.a = e.a := congrArg BitVec.toNat hda
  rw [literalPath, hlow] at hpath
  refine ⟨8, .tree d.a 8 1, .tree d.a 8 (1 * 2 ^ 8 + e.latV.toNat % 2 ^ 8), guarded_of_ok hdm ?_, ?_, ofNat_node hv⟩
  · rw [State.literalInRam, ha, hdc]; exact hram
  · rw [decodeWalk_tree, ha, decodeTree_of_path _ _ _ _ _ _ hpath]; rfl

theorem mirrored_litm (hr : Coding.EncoderRuns ⟨.litm, a, v⟩ e)
    (hl : Coding.legal ⟨.litm, a, v⟩ e.cfg.nprob) : Coding.Mirrored ⟨.litm, a, v⟩ e := by
  obtain ⟨hm, rfl, rfl⟩ := hr
  obtain ⟨hram, hv⟩ := hl
  refine .of_path h hw (path := matchedPath e.a e.lowByte e.matchByte.toNat) (by rw [matchedPath, matchedFrom_length]; omega)
    (matchedPath_inRam hram) (guarded_of_ok hm ⟨hram, hv⟩) ?_
  rintro d d' ⟨hdm, hdc, hda, hdv⟩ hpath
  have ha : d.a = e.a := congrArg BitVec.toNat hda
  have hmb : d.matchByte = e.matchByte := by rw [State.matchByte, hdv]; exact matchByte_of_mask e.latV
  have hwalk := decodeWalk_litm (base := d.a) (n := 8) (x := 1) (mb := d.matchByte) (s := d) le_rfl
  rw [ha, hmb, decodeMatched_of_path _ _ _ _ _ _ _ _ le_rfl (by have := e.matchByte.isLt; omega) hpath] at hwalk
  refine ⟨8, .litm d.a 1 d.matchByte true, _, guarded_of_ok hdm ⟨?_, ?_⟩, by rw [ha, hmb]; exact hwalk, ?_⟩
  · rw [State.literalInRam, ha, hdc]; exact hram
  · rw [State.valueFits, State.v, hdv]
    exact (Nat.and_le_right (n := e.latV.toNat)).trans_lt (by decide)
  · apply BitVec.eq_of_toNat_eq
    have hlow : (e.latV &&& 0xFF).toNat = e.latV.toNat % 2 ^ 8 := by
      rw [BitVec.toNat_and, show (0xFF : Word).toNat = 2 ^ 8 - 1 from rfl, Nat.and_two_pow_sub_one_eq_mod]
    rw [Walk.result, BitVec.toNat_ofNat, lowByte_eq]
    refine Eq.trans ?_ hlow.symm
    omega

theorem mirrored_direct {n : Nat} (hr : Coding.EncoderRuns ⟨.direct n, a, v⟩ e)
    (hl : Coding.legal ⟨.direct n, a, v⟩ e.cfg.nprob) : Coding.Mirrored ⟨.direct n, a, v⟩ e := by
  obtain ⟨hm, rfl, rfl⟩ := hr
  obtain ⟨h1, h32, hv⟩ : 1 ≤ n ∧ n ≤ 32 ∧ e.v < 2 ^ n := hl
  obtain ⟨e', he', hf, -⟩ := encodeDirect_spec (v := e.v) (n := n) h.intervalOk
  obtain ⟨hok, hleads, hfollow⟩ := encodeDirect_follow h (by omega) he'
  refine ⟨e', (guarded_of_ok hm ⟨⟨h1, h32⟩, hv⟩).trans (finishEncode_eq_next.mpr ⟨e', he', rfl⟩), hf, hok,
    hleads.mono (by omega), ?_⟩
  rintro bs skip rest d ⟨hdm, -⟩ hcov hfol
  obtain ⟨d', r, hd', hres, hfol'⟩ := hfollow bs skip rest d 0 0 (by decide) (by omega) hcov hfol
  refine ⟨d', ⟨n, .direct 0, .direct r, guarded_of_ok hdm ⟨h1, h32⟩, by rw [decodeWalk_direct, hd']; rfl, ?_⟩, hfol'⟩
  apply BitVec.eq_of_toNat_eq
  rw [Walk.result, hres, Nat.mod_eq_of_lt hv, show (0 : Word).toNat = 0 from rfl, Nat.zero_mul, Nat.zero_add]
  rfl

end

/-- Every legal coding command is mirrored. -/
theorem coding_mirrored {c : Coding} {e : State} (h : EncOk e) (hw : e.encCsize.toNat + 96 < 2 ^ 64) (hr : c.EncoderRuns e)
    (hl : c.legal e.cfg.nprob) : c.Mirrored e := by
  obtain ⟨kind, a, v⟩ := c
  cases kind with
  | bit => exact mirrored_bit h hw hr hl
  | direct n => exact mirrored_direct h hw hr hl
  | bt n => exact mirrored_bt h hw hr hl
  | btr n => exact mirrored_btr h hw hr hl
  | lit => exact mirrored_lit h hw hr hl
  | litm => exact mirrored_litm h hw hr hl

/-! ### The stream between its ends -/

/-- An encoder stream is open, and its next command finds what it needs. -/
structure Encoding (e : State) : Prop where
  ok : EncOk e
  mode : e.mode = .enc
  fault : e.fault = .none

/-- A decoder stream is open beside the encoder stream and stands where the encoder stands. -/
structure Decoding (bs : List Byte) (skip : Nat) (rest : List Byte) (e d : State) : Prop where
  follows : Follows bs skip rest e d
  mode : d.mode = .dec
  fault : d.fault = .none
  cfg : d.cfg = e.cfg

/-- A coding command that the host issues beside the mirrored one. -/
theorem issue_follow {c : Coding} {e : State} (h : Encoding e) (hl : c.legal e.cfg.nprob)
    (hw : e.encCsize.toNat + 96 < 2 ^ 64) :
    ∃ e', issue c.encoder c.a c.v e = some e' ∧ Encoding e' ∧ e'.cfg = e.cfg ∧ Leads 96 e e' ∧
      ∀ bs skip rest d, Covers bs e' → Decoding bs skip rest e d →
        ∃ d', issue c.decoder c.a c.decoderV d = some d' ∧ d'.res = c.value ∧ Decoding bs skip rest e' d' := by
  obtain ⟨⟨hcarry, hrange, hmem⟩, hm, hf⟩ := h
  obtain ⟨u, hexec, hu, ⟨hcarry', hrange', hmem'⟩, hleads, hmirror⟩ :=
    coding_mirrored (c := c) (e := launched c.encoder c.a c.v e) ⟨⟨hcarry.held, hcarry.bound, hcarry.full⟩, hrange, hmem⟩ hw
      ⟨hm, rfl, rfl⟩ hl
  have hfault : u.fault = .none := by rw [hu]; exact hf
  have hcfg : u.cfg = e.cfg := by rw [hu]; rfl
  have hback : ∀ bs, Covers bs u.idle → Covers bs e := fun bs hb =>
    have hb' := hleads.back bs ⟨hb.enough, hb.low, hb.high⟩
    ⟨hb'.enough, hb'.low, hb'.high⟩
  refine ⟨u.idle, issue_eq_some.mpr ⟨hexec, hfault, rfl⟩,
    ⟨⟨⟨hcarry'.held, hcarry'.bound, hcarry'.full⟩, hrange', hmem'⟩, by rw [hu]; exact hm, hfault⟩, hcfg,
    ⟨hback, hleads.grows⟩, ?_⟩
  rintro bs skip rest d hb ⟨hfol, hdm, hdf, hdc⟩
  obtain ⟨d', ⟨n, w, w', hdec, hwalk, hres⟩, hfol'⟩ :=
    hmirror bs skip rest (launched c.decoder c.a c.decoderV d) ⟨hdm, hdc, rfl, rfl⟩ ⟨hb.enough, hb.low, hb.high⟩
      ⟨hfol.range, hfol.cells, hfol.code, hfol.queue, hfol.count⟩
  have hd := decodeWalk_touch hwalk
  rw [runWalk_of_decodeWalk hwalk] at hdec
  exact ⟨_, issue_eq_some.mpr ⟨hdec, by rw [hd]; exact hdf, rfl⟩, hres,
    ⟨hfol'.range, hfol'.cells, hfol'.code, hfol'.queue, hfol'.count⟩, by rw [hd]; exact hdm, by rw [hd]; exact hdf,
    by rw [hd]; exact hdc.trans hcfg.symm⟩

/-- The commands of a stream beside the mirrored ones. -/
theorem encodeAll_follow {cs : List Coding} {e : State} (h : Encoding e) (hl : ∀ c ∈ cs, c.legal e.cfg.nprob)
    (hw : e.encCsize.toNat + 96 * cs.length < 2 ^ 64) :
    ∃ e', encodeAll cs e = some e' ∧ Encoding e' ∧ e'.cfg = e.cfg ∧ Leads (96 * cs.length) e e' ∧
      ∀ bs skip rest d, Covers bs e' → Decoding bs skip rest e d →
        ∃ d', decodeAll cs d = some (cs.map Coding.value, d') ∧ Decoding bs skip rest e' d' := by
  induction cs generalizing e with
  | nil => exact ⟨e, rfl, h, rfl, Leads.refl e, fun bs skip rest d _ hd => ⟨d, rfl, hd⟩⟩
  | cons c cs ih =>
    rw [List.length_cons] at hw
    obtain ⟨u, hu, hopen, hcfg, hleads, hfollow⟩ := issue_follow h (hl c List.mem_cons_self) (by omega)
    have hgrows := hleads.grows
    obtain ⟨e', he', hopen', hcfg', hleads', hfollow'⟩ :=
      ih hopen (fun x hx => hcfg ▸ hl x (List.mem_cons_of_mem _ hx)) (by omega)
    refine ⟨e', by rw [encodeAll_cons, hu]; exact he', hopen', hcfg'.trans hcfg,
      (hleads.trans hleads').mono (by rw [List.length_cons]; omega), fun bs skip rest d hb hd => ?_⟩
    obtain ⟨t, ht, hres, hdt⟩ := hfollow bs skip rest d (hleads'.back bs hb) hd
    obtain ⟨d', hd', hdd⟩ := hfollow' bs skip rest t hb hdt
    exact ⟨d', by rw [decodeAll_cons, ht, Option.bind_some, hd', Option.map_some, hres, List.map_cons], hdd⟩

/-! ### The ends of the stream -/

/-- What ENC_INIT leaves of the state `s`. -/
structure Opened (s e : State) : Prop where
  cfg : e.cfg = s.cfg
  cells : e.cells = s.cells
  outBytes : e.outBytes = s.outBytes
  outcnt : e.outcnt = 0
  range : e.encRange = 0xFFFFFFFF
  low : e.encLow = 0
  cache : e.encCache = 0
  csize : e.encCsize = 1

theorem Opened.encOk {s e : State} (h : Opened s e) (hm : s.memoryOk) : EncOk e := by
  refine ⟨⟨?_, ?_, fun hff => ?_⟩, ?_, ?_⟩
  · rw [h.csize]; decide
  · rw [h.low, h.range]; decide
  · rw [h.cache] at hff; exact absurd hff (by decide)
  · rw [h.range]; decide
  · unfold State.memoryOk at *; rw [h.cells, h.cfg]; exact hm

theorem issue_encInit {s : State} (hm : s.mode = .idle) (hf : s.fault = .none) :
    ∃ e, issue .encInit 0 0 s = some e ∧ Opened s e ∧ e.mode = .enc ∧ e.fault = .none :=
  ⟨_, issue_eq_some.mpr ⟨if_neg (not_not_intro hm), hf, rfl⟩, ⟨rfl, rfl, rfl, rfl, rfl, rfl, rfl, rfl⟩, rfl, hf⟩

/-- A decoder opened on a stream that lies in the encoder's first interval stands where the encoder stands: the stream's first byte
is the 0 that DEC_CODE loses (R129, R144). -/
theorem issue_decInit {s e d : State} (hs : Opened s e) {bytes rest : List Byte} (hb : Covers (s.outBytes ++ bytes) e)
    (hq : d.inQueue = bytes ++ rest) (hm : d.mode = .idle) (hf : d.fault = .none) (hcfg : d.cfg = s.cfg)
    (hcells : d.cells = s.cells) :
    ∃ d', issue .decInit 0 0 d = some d' ∧ Decoding (s.outBytes ++ bytes) s.outBytes.length rest e d' := by
  have hsent : sent e = s.outBytes ++ [0] := by rw [sent, hs.outBytes, hs.cache, hs.csize]; rfl
  have hpos : position e = s.outBytes.length + 5 := by rw [position, hsent, List.length_append]; rfl
  have hvalue : valueOf e = digits s.outBytes * 256 ^ 5 := by
    rw [valueOf, hsent, hs.low, digits_append]
    show (digits s.outBytes * 256 ^ 1 + 0) * 2 ^ 32 + 0 = _
    omega
  obtain ⟨henough, hlow, hhigh⟩ := hb
  rw [hpos, List.length_append] at henough
  have hfive : (bytes.take 5).length = 5 := List.length_take_of_le (by omega)
  have htake : (s.outBytes ++ bytes).take (position e) = s.outBytes ++ bytes.take 5 := by rw [hpos, List.take_length_add_append]
  have hdrop : (s.outBytes ++ bytes).drop (position e) = bytes.drop 5 := by rw [hpos, List.drop_length_add_append]
  rw [htake, digits_append, hvalue, hfive, hs.range, show (0xFFFFFFFF : Word).toNat = 2 ^ 32 - 1 from rfl] at hhigh
  have hcode : (shiftIn 0 (bytes.take 5)).toNat = digits (bytes.take 5) := by
    rw [shiftIn_toNat, show (0 : Word).toNat = 0 from rfl, Nat.zero_mul, Nat.zero_add]
    exact Nat.mod_eq_of_lt (by omega)
  have hexec := exec_decInit_of_enough (s := launched .decInit 0 0 d) hm (bs := bytes.take 5) (q := bytes.drop 5 ++ rest)
    (by rw [← List.append_assoc, List.take_append_drop]; exact hq) hfive
  refine ⟨_, issue_eq_some.mpr ⟨hexec, hf, rfl⟩, ⟨hs.range.symm, hcells.trans hs.cells.symm, ?_, ?_, ?_, ?_⟩, rfl, hf,
    hcfg.trans hs.cfg.symm⟩
  · rw [htake, digits_append, hvalue, hfive, ← hcode, Nat.add_comm]
  · rw [hdrop]
  · rw [hpos]; omega
  · rw [hpos, Nat.add_sub_cancel_left]; rfl

/-- ShiftLow keeps what keeps the carry inside the held bytes. -/
theorem shiftLow_carryOk {s : State} (h : CarryOk s) (hr : 0 < s.encRange.toNat) (hw : s.encCsize.toNat + 1 < 2 ^ 64) :
    CarryOk s.shiftLow := by
  obtain ⟨-, -, ⟨hheld, -⟩, hfull⟩ := shiftLow_value h hr hw
  have hlow := shiftLow_encLow_toNat s
  have hlt := s.encRange.isLt
  refine ⟨hheld, ?_, fun hff => ?_⟩
  · rw [State.shiftLow_encRange]; omega
  · have := hfull hff
    rw [State.shiftLow_encRange]; omega

/-- `k` times ShiftLow append `k` digits to what was sent, and multiply the value. -/
theorem shiftLow_iterate_value {k : Nat} {s : State} (h : CarryOk s) (hr : 0 < s.encRange.toNat)
    (hw : s.encCsize.toNat + k < 2 ^ 64) :
    (sent (State.shiftLow^[k] s)).length = (sent s).length + k ∧ valueOf (State.shiftLow^[k] s) = 256 ^ k * valueOf s := by
  induction k generalizing s with
  | zero => exact ⟨rfl, (Nat.one_mul _).symm⟩
  | succ k ih =>
    obtain ⟨hlen, hvalue, ⟨-, hgrows⟩, -⟩ := shiftLow_value h hr (by omega)
    obtain ⟨hlen', hvalue'⟩ := ih (shiftLow_carryOk h hr (by omega)) (by rw [State.shiftLow_encRange]; exact hr) (by omega)
    rw [Function.iterate_succ_apply, hlen', hvalue', hlen, hvalue, Nat.pow_succ]
    exact ⟨by omega, by ring⟩

/-- After ENC_FLUSH the bytes emitted are the value of the encoder's interval, all of it, and so lie in the interval. -/
theorem issue_encFlush {e : State} (h : Encoding e) (hw : e.encCsize.toNat + 5 < 2 ^ 64) :
    ∃ t, issue .encFlush 0 0 e = some t ∧ t.cells = e.cells ∧ t.outBytes.length = position e ∧ Covers t.outBytes e := by
  obtain ⟨⟨hcarry, hrange, -⟩, hm, hf⟩ := h
  let u := State.shiftLow^[5] (launched .encFlush 0 0 e)
  obtain ⟨hlen, hvalue⟩ := shiftLow_iterate_value (k := 5) (s := launched .encFlush 0 0 e)
    ⟨hcarry.held, hcarry.bound, hcarry.full⟩ (show 0 < e.encRange.toNat by omega) hw
  obtain ⟨-, hlow, hcache, hcsize⟩ := shiftLow_iterate_five (s := launched .encFlush 0 0 e)
    (show e.encCsize.toNat + 4 < _ by omega)
  have hsent : sent u = u.outBytes ++ [0] := by rw [sent, hcache, hcsize]; rfl
  have hpos : u.outBytes.length = position e := by
    have : (sent u).length = (sent e).length + 5 := hlen
    rw [hsent, List.length_append, List.length_singleton] at this
    rw [position]; omega
  have hdigits : digits u.outBytes = valueOf e := by
    have : valueOf u = 256 ^ 5 * valueOf e := hvalue
    rw [valueOf, hsent, hlow, digits_append, show digits [0] = 0 from rfl, List.length_singleton,
      show (0 : Dword).toNat = 0 from rfl] at this
    omega
  have htake : digits (u.outBytes.take (position e)) = valueOf e := by rw [List.take_of_length_le hpos.le, hdigits]
  refine ⟨(u.setMode .idle).idle, issue_eq_some.mpr ⟨exec_encFlush_of_enc hm, ?_, rfl⟩, ?_, hpos,
    ⟨hpos.ge, htake.ge, htake.trans_lt (by omega)⟩⟩
  · exact (by simp [u] : u.fault = (launched .encFlush 0 0 e).fault).trans hf
  · exact (by simp [u] : u.cells = (launched .encFlush 0 0 e).cells)

end Sys2Proof.Machine

open Sys2Proof Sys2Proof.Machine

/-- Settles O46: ENC_FLUSH emits a stream that lies in the encoder's last interval, and so in every interval before; a decoder of
that stream follows the encoder from DEC_INIT on, command by command. -/
theorem streamsDecodeToWhatTheyEncode : Obligations.StreamsDecodeToWhatTheyEncode := by
  unfold Obligations.StreamsDecodeToWhatTheyEncode
  intro s d cs hs hm hf hdcfg hdcells hdm hdf hl hlen
  obtain ⟨e0, he0, hopened, hm0, hf0⟩ := issue_encInit hm hf
  have henc0 : Encoding e0 := ⟨hopened.encOk hs.memory, hm0, hf0⟩
  have hcsize : e0.encCsize.toNat = 1 := by rw [hopened.csize]; rfl
  have hl0 : ∀ c ∈ cs, c.legal e0.cfg.nprob := hopened.cfg ▸ hl
  obtain ⟨e, he, henc, -, hleads, hfollow⟩ := encodeAll_follow henc0 hl0 (by omega)
  have hgrows := hleads.grows
  obtain ⟨t, ht, htcells, htlen, hcov⟩ := issue_encFlush henc (by omega)
  obtain ⟨bytes, hbytes, hcount⟩ := (emits_of_encodeAll he).trans (emits_of_issue (by decide) ht)
  rw [hopened.outBytes] at hbytes
  have hencode (cs : List Coding) : encodeOpen cs s = encodeAll cs e0 := by rw [encodeOpen, he0, Option.bind_some]
  refine ⟨t, bytes, by rw [encodeStream, hencode, he]; exact ht, hbytes, fun rest hq => ?_⟩
  rw [hbytes] at hcov
  obtain ⟨d0, hd0, hdec0⟩ := issue_decInit hopened (hleads.back _ hcov) hq hdm hdf hdcfg hdcells
  have hdecode (cs : List Coding) : decodeOpen cs d = decodeAll cs d0 := by rw [decodeOpen, hd0, Option.bind_some]
  refine ⟨fun k hk => ?_, ?_⟩
  · -- The first `k` commands leave a state from which the rest leads on to the end of the stream.
    obtain ⟨e', he', henc', hcfg', hleads', hfollow'⟩ := encodeAll_follow (cs := cs.take k) henc0
      (fun c hc => hl0 c (List.mem_of_mem_take hc)) (by rw [List.length_take]; omega)
    have hgrows' := hleads'.grows
    obtain ⟨e'', he'', -, -, hlast, -⟩ := encodeAll_follow (cs := cs.drop k) henc'
      (fun c hc => hcfg' ▸ hl0 c (List.mem_of_mem_drop hc)) (by rw [List.length_take] at hgrows'; rw [List.length_drop]; omega)
    have hend : e'' = e := by
      rw [← List.take_append_drop k cs, encodeAll_append, he', Option.bind_some, he''] at he
      exact Option.some.inj he
    obtain ⟨u, hu, hdec⟩ := hfollow' _ _ rest d0 (hlast.back _ (hend ▸ hcov)) hdec0
    exact ⟨e', u, by rw [hencode, he'], by rw [hdecode, hu], hdec.follows.cells, hdec.follows.range⟩
  · obtain ⟨u, hu, hdec⟩ := hfollow _ _ rest d0 hcov hdec0
    have hpos : position e = s.outBytes.length + bytes.length := by rw [← htlen, hbytes, List.length_append]
    refine ⟨_, u, by rw [hdecode, hu], ?_, hdec.follows.cells.trans htcells.symm, ?_⟩
    · rw [hdec.follows.queue, List.drop_of_length_le (by rw [hpos, List.length_append]), List.nil_append]
    · rw [hdec.follows.count.2, hcount, hopened.outcnt, hpos, Nat.add_sub_cancel_left]
      exact (BitVec.zero_add _).symm
end

section
/-! SUPPORT, then the settled statement. The walks of the coding commands, visit by visit (spec/43_bit_tree.md R160,
spec/44_literal.md R181, R183). -/

namespace Sys2Proof.Machine

/-! ### Nodes -/

/-- The node at depth `k` has `k` bits below its leading 1. -/
theorem treeNode_bounds (bits : Nat → Bool) (k : Nat) : 2 ^ k ≤ treeNode bits k ∧ treeNode bits k < 2 ^ (k + 1) := by
  induction k with
  | zero => exact ⟨le_rfl, Nat.one_lt_two⟩
  | succ k ih =>
    obtain ⟨hlo, hhi⟩ := ih
    have hb := Bool.toNat_le (bits k)
    rw [treeNode, Nat.pow_succ 2 (k + 1), Nat.pow_succ 2 k]
    rw [Nat.pow_succ 2 k] at hhi
    omega

theorem treeNode_pos (bits : Nat → Bool) (k : Nat) : 0 < treeNode bits k :=
  (Nat.two_pow_pos k).trans_le (treeNode_bounds bits k).1

/-- The nodes of the first `n` depths lie below 2^n. -/
theorem treeNode_lt {k n : Nat} (h : k < n) (bits : Nat → Bool) : treeNode bits k < 2 ^ n :=
  (treeNode_bounds bits k).2.trans_le (Nat.pow_le_pow_right (by decide) h)

theorem treeNode_strictMono (bits : Nat → Bool) : StrictMono (treeNode bits) :=
  strictMono_nat_of_lt_succ fun k => by
    have := treeNode_pos bits k
    rw [treeNode]; omega

/-! ### The walks, visit by visit -/

/-- The visit of a walk through one tree at depth `k`. -/
def treeVisit (base : Nat) (bits : Nat → Bool) (k : Nat) : Nat × Bool := (base + treeNode bits k, bits k)

/-- The node that a matched walk visits at depth `k` of its context: in the tree of the match bit while all earlier bits agreed. -/
def matchedNode (bits mbits : Nat → Bool) (k : Nat) : Nat :=
  if ∀ j < k, mbits j = bits j then treeNode bits k + ((1 + (mbits k).toNat) <<< 8) else treeNode bits k

/-- The visit of a matched walk at depth `k`. -/
def matchedVisit (base : Nat) (bits mbits : Nat → Bool) (k : Nat) : Nat × Bool := (base + matchedNode bits mbits k, bits k)

theorem treeWalk_eq (base n : Nat) (bits : Nat → Bool) : treeWalk base n bits = (List.range' 0 n).map (treeVisit base bits) := by
  rw [← List.range_eq_range']; rfl

theorem matchedWalk_eq (base : Nat) (bits mbits : Nat → Bool) :
    matchedWalk base bits mbits = (List.range' 0 8).map (matchedVisit base bits mbits) := by
  rw [← List.range_eq_range']; rfl

/-- With `i` of `n` bits to go an MSB-first walk is at depth `k = n - i`. -/
theorem treePath_from {base v n i k : Nat} (h : k + i = n) :
    treePath base v i (treeNode (msbFirst v n) k) = (List.range' k i).map (treeVisit base (msbFirst v n)) := by
  induction i generalizing k with
  | zero => rfl
  | succ i ih =>
    have hbit : v.testBit i = msbFirst v n k := by rw [msbFirst]; congr 1; omega
    rw [treePath, List.range'_succ, List.map_cons, hbit, ← ih (k := k + 1) (by omega)]
    rfl

/-- After `k` bits an LSB-first walk has the bits of `v` from bit `k` on to go. -/
theorem reversePath_from (base v i k : Nat) :
    reversePath base i (v >>> k) (treeNode (lsbFirst v) k) = (List.range' k i).map (treeVisit base (lsbFirst v)) := by
  induction i generalizing k with
  | zero => rfl
  | succ i ih =>
    have hbit : (v >>> k).testBit 0 = lsbFirst v k := by rw [Nat.testBit_shiftRight, Nat.add_zero, lsbFirst]
    rw [reversePath, List.range'_succ, List.map_cons, hbit, ← Nat.shiftRight_add, ← ih (k + 1)]
    rfl

/-- With `i` of eight bits to go a matched walk is at depth `k = 8 - i`, and `same` says whether all bits so far agreed. -/
theorem matchedFrom_from {base sym mb i k : Nat} (h : k + i = 8) :
    matchedFrom base sym mb i (treeNode (msbFirst sym 8) k) (decide (∀ j < k, msbFirst mb 8 j = msbFirst sym 8 j)) =
      (List.range' k i).map (matchedVisit base (msbFirst sym 8) (msbFirst mb 8)) := by
  induction i generalizing k with
  | zero => rfl
  | succ i ih =>
    have hbit (v : Nat) : v.testBit i = msbFirst v 8 k := by rw [msbFirst]; congr 1; omega
    have hsame : (decide (∀ j < k, msbFirst mb 8 j = msbFirst sym 8 j) && msbFirst mb 8 k == msbFirst sym 8 k) =
        decide (∀ j < k + 1, msbFirst mb 8 j = msbFirst sym 8 j) := by
      rw [Bool.eq_iff_iff]
      simp only [Bool.and_eq_true, decide_eq_true_eq, beq_iff_eq, Nat.forall_lt_succ_right]
    rw [matchedFrom, List.range'_succ, List.map_cons, hbit, hbit, hsame, ← ih (k := k + 1) (by omega)]
    simp only [decide_eq_true_eq]
    rfl

theorem treePath_eq_treeWalk (base v n : Nat) : treePath base v n 1 = treeWalk base n (msbFirst v n) :=
  (treePath_from (Nat.zero_add n)).trans (treeWalk_eq ..).symm

theorem reversePath_eq_treeWalk (base v n : Nat) : reversePath base n v 1 = treeWalk base n (lsbFirst v) :=
  (reversePath_from base v n 0).trans (treeWalk_eq ..).symm

theorem literalPath_eq_treeWalk (base sym : Nat) : literalPath base sym = treeWalk base 8 (msbFirst sym 8) :=
  treePath_eq_treeWalk base sym 8

theorem matchedPath_eq_matchedWalk (base sym mb : Nat) :
    matchedPath base sym mb = matchedWalk base (msbFirst sym 8) (msbFirst mb 8) := by
  rw [matchedWalk_eq, ← matchedFrom_from (Nat.zero_add 8)]
  rfl

/-! ### No cell twice -/

/-- The trees of a context are 0x100 apart, and the first eight depths of each fit between. -/
theorem matchedNode_mod {k : Nat} (hk : k < 8) (bits mbits : Nat → Bool) :
    matchedNode bits mbits k % 0x100 = treeNode bits k := by
  have hlt : treeNode bits k < 2 ^ 8 := treeNode_lt hk bits
  rw [matchedNode, Nat.shiftLeft_eq]
  split_ifs <;> omega

theorem treeWalk_nodup (base n : Nat) (bits : Nat → Bool) : ((treeWalk base n bits).map Prod.fst).Nodup := by
  rw [treeWalk, List.map_map]
  exact List.nodup_range.map fun j k h => (treeNode_strictMono bits).injective (Nat.add_left_cancel h)

theorem matchedWalk_nodup (base : Nat) (bits mbits : Nat → Bool) :
    ((matchedWalk base bits mbits).map Prod.fst).Nodup := by
  rw [matchedWalk, List.map_map]
  refine List.nodup_range.map_on fun j hj k hk h => ?_
  have hnode : matchedNode bits mbits j = matchedNode bits mbits k := Nat.add_left_cancel h
  refine (treeNode_strictMono bits).injective ?_
  rw [← matchedNode_mod (List.mem_range.mp hj) bits mbits, hnode, matchedNode_mod (List.mem_range.mp hk)]

end Sys2Proof.Machine

open Sys2Proof Sys2Proof.Machine

/-- Settles O24: each walk of the model is the walk of the layout from its first depth on; nodes of one tree grow with the depth,
and those of a matched walk differ already in the tree they share. -/
theorem walksVisitTreeNodes : Obligations.WalksVisitTreeNodes := by
  unfold Obligations.WalksVisitTreeNodes
  exact ⟨treePath_eq_treeWalk, reversePath_eq_treeWalk, literalPath_eq_treeWalk, matchedPath_eq_matchedWalk, treeNode_bounds,
    treeWalk_nodup, matchedWalk_nodup⟩
end

section
/-! SUPPORT, then the settled statements. The price and the encoding commands through a walk (spec/43_bit_tree.md R161, R162, R165,
R166, spec/44_literal.md R182, R183, R186, R187). -/

namespace Sys2Proof.Machine

/-! ### Prices -/

/-- With legal operands, a command that needs no MODE does its work. -/
theorem checked_of_ok {s : State} {P : Prop} [Decidable P] {k : Out} (hP : P) : (if ¬ P then raise .operand s else k) = k :=
  if_neg (not_not_intro hP)

theorem completePrice_eq (path : List (Nat × Bool)) (s : State) :
    completePrice path s = .next { s.idle with
      res := BitVec.ofNat 32 ((path.map fun e => price s.cfg.priceShift (s.cell e.1) e.2).sum) } := rfl

/-! ### Encoding along a walk -/

theorem encodePath_eq_foldlM (path : List (Nat × Bool)) (s : State) :
    State.encodePath path s = path.foldlM (fun t e => t.encodeBit e.1 e.2) s := by
  induction path generalizing s with
  | nil => rfl
  | cons e path ih =>
    obtain ⟨a, bit⟩ := e
    rw [State.encodePath, List.foldlM_cons]
    cases s.encodeBit a bit with
    | none => rfl
    | some t => exact ih t

/-- A command that encodes along a walk in the RAM completes, on a legal machine in ENC. -/
theorem exec_encode_completes {i : Instr} {s : State} (h : s.Ready) (hm : s.mode = .enc) {path : List (Nat × Bool)}
    (hexec : exec i s = encodeAlong path s) (hram : ∀ e ∈ path, e.1 < s.cfg.nprob) :
    ∃ u, path.foldlM (fun t e => t.encodeBit e.1 e.2) s = some u ∧ exec i s = .next u.idle := by
  obtain ⟨u, hu, hnext, -, -⟩ := encodeAlong_spec h hm hram
  exact ⟨u, encodePath_eq_foldlM path s ▸ hu, hexec.trans hnext⟩

end Sys2Proof.Machine

open Sys2Proof Sys2Proof.Machine

/-- Settles O25: legal operands pass the check, and the walk of the command is the walk of the layout. -/
theorem priceWalksReturnSums : Obligations.PriceWalksReturnSums := by
  unfold Obligations.PriceWalksReturnSums
  refine ⟨⟨encodedWith_of_decodeOp fun _ => rfl, encodedWith_of_decodeOp fun _ => rfl, encodedAs_opcode rfl,
    encodedAs_opcode rfl⟩, fun s => ⟨fun n h1 h16 hram hv => ?_, fun hram hv => ?_, fun hram hv => ?_⟩⟩
  · have hok : s.treeSymbolOk n := ⟨⟨⟨h1, h16⟩, hram⟩, hv⟩
    rw [← treePath_eq_treeWalk, ← reversePath_eq_treeWalk]
    exact ⟨(checked_of_ok hok).trans (completePrice_eq _ s), (checked_of_ok hok).trans (completePrice_eq _ s)⟩
  · rw [← literalPath_eq_treeWalk]
    exact (checked_of_ok (P := s.literalOk) ⟨hram, hv⟩).trans (completePrice_eq _ s)
  · rw [← matchedPath_eq_matchedWalk]
    exact (checked_of_ok (P := s.matchedOk) ⟨hram, hv⟩).trans (completePrice_eq _ s)

/-- Settles O33: legal operands keep the walk in the RAM, and EncodeBit along it ends. -/
theorem encodeWalksComplete : Obligations.EncodeWalksComplete := by
  unfold Obligations.EncodeWalksComplete
  refine ⟨⟨encodedWith_of_decodeOp fun _ => rfl, encodedWith_of_decodeOp fun _ => rfl, encodedAs_opcode rfl,
    encodedAs_opcode rfl⟩, fun s h hm => ⟨fun n h1 h16 hram hv => ?_, fun hram hv => ?_, fun hram hv => ?_⟩⟩
  · have hok : s.treeSymbolOk n := ⟨⟨⟨h1, h16⟩, hram⟩, hv⟩
    rw [← treePath_eq_treeWalk, ← reversePath_eq_treeWalk]
    exact ⟨exec_encode_completes h hm (guarded_of_ok hm hok) (treePath_inRam hram),
      exec_encode_completes h hm (guarded_of_ok hm hok) (reversePath_inRam hram)⟩
  · rw [← literalPath_eq_treeWalk]
    exact exec_encode_completes h hm (guarded_of_ok (P := s.literalOk) hm ⟨hram, hv⟩) (literalPath_inRam hram)
  · rw [← matchedPath_eq_matchedWalk]
    exact exec_encode_completes h hm (guarded_of_ok (P := s.matchedOk) hm ⟨hram, hv⟩) (matchedPath_inRam hram)
end

section
/-! SUPPORT, then the settled statements. The bit-tree and literal decoding commands: each is a walk, and its loop of the pseudocode
is that walk read its own way (spec/43_bit_tree.md R163, R164, spec/44_literal.md R184, R185). -/

namespace Sys2Proof.Machine

/-! ### A command that decodes by a loop -/

/-- The command `i` in the state `s` is the walk `w` of `n` bits, inside the RAM, and the walk is the pseudocode's `loop`: it has
its bytes when the loop has them, and then ends at `last` of what the loop returns. -/
structure DecodesBy (i : Instr) (s : State) (n : Nat) (w : Walk) (loop : Option (Nat × State)) (last : Nat → Walk) : Prop where
  start : decodeWalkOf i s = some (n, w)
  runs : exec i s = runWalk n w s
  inRam : w.inRam s.cfg.nprob n = true
  loop : decodeWalk n w s = loop.map fun p => (last p.1, p.2)

section
variable {i : Instr} {s : State} {n : Nat} {w : Walk} {loop : Option (Nat × State)} {last : Nat → Walk}
  (h : DecodesBy i s n w loop last)
include h

/-- Where the loop runs out of bytes the command does. -/
theorem DecodesBy.dry (hl : loop = none) : ∃ u, runsDry i s u ∧ holdsOrTruncates i s u :=
  exec_of_dry h.start h.runs (by rw [h.loop, hl]; rfl)

/-- What the loop returns the command returns. -/
theorem DecodesBy.returns {v : Nat} {u : State} (hl : loop = some (v, u)) :
    exec i s = .next { u.idle with res := (last v).result } := by
  have hw : decodeWalk n w s = some (last v, u) := by rw [h.loop, hl]; rfl
  exact h.runs.trans (runWalk_of_decodeWalk hw)

end

/-! ### The four commands -/

section
variable {s : State} (hm : s.mode = .dec)
include hm

theorem decBt_decodesBy {n : Nat} (hok : s.treeOk n) :
    DecodesBy (.decBt n) s n (.tree s.a n 1) (State.decodeTree s.a n 1 s) (.tree s.a n) where
  start := rfl
  runs := guarded_of_ok hm hok
  inRam := decide_eq_true ⟨hok.2, by rw [Nat.pow_succ, Nat.mul_comm]⟩
  loop := decodeWalk_tree s.a n n 1 s

theorem decBtr_decodesBy {n : Nat} (hok : s.treeOk n) :
    DecodesBy (.decBtr n) s n (.rev s.a 0 1 0) (State.decodeReverse s.a n 0 1 0 s)
      (fun v => .rev s.a (0 + n) (treeNode (lsbFirst v) (0 + n)) v) where
  start := rfl
  runs := guarded_of_ok hm hok
  inRam := decide_eq_true (by rw [Nat.zero_add]; exact ⟨hok.2, by rw [Nat.pow_succ, Nat.mul_comm]⟩)
  loop := decodeWalk_rev (by decide) rfl

theorem decLit_decodesBy (hok : s.literalInRam) :
    DecodesBy .decLit s 8 (.tree s.a 8 1) (State.decodeTree s.a 8 1 s) (.tree s.a 8) where
  start := rfl
  runs := guarded_of_ok hm hok
  inRam := decide_eq_true ⟨(Nat.add_le_add_left (by decide) s.a).trans hok, by decide⟩
  loop := decodeWalk_tree s.a 8 8 1 s

theorem decLitm_decodesBy (hok : s.matchedOk) :
    DecodesBy .decLitm s 8 (.litm s.a 1 s.matchByte true) (State.decodeMatched s.a 8 s.matchByte 1 s)
      (fun v => .litm s.a v (s.matchByte <<< 8) (decide (v = agreeNode 1 s.matchByte 8))) where
  start := rfl
  runs := guarded_of_ok hm hok
  inRam := decide_eq_true ⟨hok.1, by decide⟩
  loop := decodeWalk_litm le_rfl

end

/-! ### Two bytes for each bit are enough -/

/-- A walk of a legal machine in DEC has its bytes when the queue holds two for each of its bits. -/
theorem decodeWalk_enough {n : Nat} {w : Walk} {s : State} (h : walkOk n w s) (hr : 2 ^ 24 ≤ s.decRange.toNat)
    (hq : 2 * n ≤ s.inQueue.length) : ∃ w' u, decodeWalk n w s = some (w', u) := by
  induction n generalizing w s with
  | zero => exact ⟨w, s, rfl⟩
  | succ n ih =>
    obtain ⟨hend, hlen⟩ := walkBit_two_bytes (w := w) h.1.memory hr (by omega)
    rw [decodeWalk, if_pos hend]
    exact ih (walkOk_split h _) (renormOver_ready hend) (by omega)

/-- A command that decodes by a loop completes on two bytes for each bit, within the width of its results. -/
theorem DecodesBy.completes {i : Instr} {s : State} {n : Nat} {w : Walk} {loop : Option (Nat × State)} {last : Nat → Walk}
    (h : DecodesBy i s n w loop last) (hs : s.Ready) (hm : s.mode = .dec) (hr : 2 ^ 24 ≤ s.decRange.toNat)
    (hfit : ∀ v u, loop = some (v, u) → (last v).result.toNat < 2 ^ n) (hq : 2 * n ≤ s.inQueue.length) :
    ∃ t, exec i s = .next t ∧ t.res.toNat < 2 ^ n ∧ 2 ^ 24 ≤ t.decRange.toNat ∧ t.busy = false ∧ t.fault = s.fault ∧
      t.mode = .dec := by
  obtain ⟨w', u, hw⟩ := decodeWalk_enough ⟨hs, hm, h.inRam⟩ hr hq
  obtain ⟨⟨v, u⟩, hl, ⟨⟩⟩ := Option.map_eq_some_iff.mp (h.loop ▸ hw)
  have hu : decTouch s u := decodeWalk_touch hw
  have hrange : 2 ^ 24 ≤ u.decRange.toNat := decodeWalk_range hw fun _ => hr
  exact ⟨_, h.returns hl, hfit v u hl, hrange, rfl, by rw [hu]; rfl, by rw [hu]; exact hm⟩

/-! ### The width of a result -/

/-- The node the loops of DEC_LITM end at lies below the node they began at. -/
theorem decodeMatched_div {base n x v : Nat} {mb : Byte} {s u : State}
    (h : State.decodeMatched base n mb x s = some (v, u)) : v / 2 ^ n = x := by
  induction n generalizing x mb s with
  | zero => cases h; simp
  | succ n ih =>
    rw [decodeMatched_succ] at h
    obtain ⟨⟨bit, t⟩, -, ht⟩ := Option.bind_eq_some_iff.mp h
    have hnext : v / 2 ^ n = 2 * x + bit.toNat := by
      dsimp only at ht
      split_ifs at ht
      · exact decodeTree_div ht
      · exact ih ht
    have hb := Bool.toNat_le bit
    rw [Nat.pow_succ, ← Nat.div_div_eq_div_mul, hnext]
    omega

/-- The loop of DEC_BTR adds `n` bits to the `i` it began with. -/
theorem decodeReverse_lt {base n i m acc v : Nat} {s u : State} (ha : acc < 2 ^ i)
    (h : State.decodeReverse base n i m acc s = some (v, u)) : v < 2 ^ (i + n) := by
  induction n generalizing i m acc s with
  | zero => cases h; exact ha
  | succ n ih =>
    rw [State.decodeReverse] at h
    split at h
    · rw [Nat.add_comm n, ← Nat.add_assoc]
      exact ih (testBit_or_bit ha _).2.2 h
    · cases h

/-- A node `n` levels below the root is a result of `n` bits. -/
theorem node_result_lt {v n : Nat} (h : v / 2 ^ n = 1) : (BitVec.ofNat 32 (v - 2 ^ n)).toNat < 2 ^ n := by
  have hpos := Nat.two_pow_pos n
  have hv : v < (1 + 1) * 2 ^ n := (Nat.div_lt_iff_lt_mul hpos).mp (by omega)
  rw [BitVec.toNat_ofNat]
  exact (Nat.mod_le _ _).trans_lt (by omega)

end Sys2Proof.Machine

open Sys2Proof Sys2Proof.Machine

/-- Settles O41: each command is its loop (`DecodesBy`). -/
theorem decodeWalksReturnSymbols : Obligations.DecodeWalksReturnSymbols := by
  unfold Obligations.DecodeWalksReturnSymbols
  refine ⟨⟨encodedWith_of_decodeOp fun _ => rfl, encodedWith_of_decodeOp fun _ => rfl, encodedAs_opcode rfl,
    encodedAs_opcode rfl⟩,
    fun s hm => ⟨fun n h1 h16 hram => ?_, fun hram => ?_, fun n v u h1 h16 hram => ?_, fun v u hram => ?_⟩⟩
  · have hok : s.treeOk n := ⟨⟨h1, h16⟩, hram⟩
    exact ⟨(decBt_decodesBy hm hok).dry, (decBtr_decodesBy hm hok).dry⟩
  · exact ⟨(decLit_decodesBy hm hram).dry, fun hv => (decLitm_decodesBy hm ⟨hram, hv⟩).dry⟩
  · have hok : s.treeOk n := ⟨⟨h1, h16⟩, hram⟩
    exact ⟨(decBt_decodesBy hm hok).returns, (decBtr_decodesBy hm hok).returns⟩
  · exact ⟨(decLit_decodesBy hm hram).returns, fun hv => (decLitm_decodesBy hm ⟨hram, hv⟩).returns⟩

/-- Settles O42: two bytes for each bit are enough, and each loop returns what its width holds. -/
theorem decodeWalksComplete : Obligations.DecodeWalksComplete := by
  unfold Obligations.DecodeWalksComplete
  refine fun s hs hm hr => ⟨fun n h1 h16 hram => ?_, fun hram => ⟨?_, fun hv => ?_⟩⟩
  · have hok : s.treeOk n := ⟨⟨h1, h16⟩, hram⟩
    refine ⟨(decBt_decodesBy hm hok).completes hs hm hr fun v u hl => node_result_lt (decodeTree_div hl),
      (decBtr_decodesBy hm hok).completes hs hm hr fun v u hl => ?_⟩
    have hv := decodeReverse_lt (by decide) hl
    rw [Nat.zero_add] at hv
    exact (Nat.mod_le _ _).trans_lt hv
  · exact (decLit_decodesBy hm hram).completes hs hm hr fun v u hl => node_result_lt (decodeTree_div hl)
  · refine (decLitm_decodesBy hm ⟨hram, hv⟩).completes hs hm hr fun v u hl => ?_
    simpa [Walk.result] using node_result_lt (decodeMatched_div hl)
end

section
/-! SUPPORT, then the settled statement. The frame of the RAM under the coding commands: the cells of a tree or a context, and that
no walk leaves them (spec/43_bit_tree.md R160, spec/44_literal.md R181, spec/20_memory.md R66). -/

namespace Sys2Proof.Machine

/-! ### The cells of a command -/

/-- The cells of the nodes of a tree of width `n` at `base`; `base` itself is none. -/
def treeCells (base n a : Nat) : Prop := base < a ∧ a < base + 2 ^ n

/-- The cells of the nodes of the three trees of a literal context at `base`. -/
def contextCells (base a : Nat) : Prop := base < a ∧ a < base + 0x300 ∧ a ≠ base + 0x100 ∧ a ≠ base + 0x200

/-- The cells that a coding command may change. -/
def codingCells (i : Instr) (s : State) : Nat → Prop :=
  match i with
  | .encBit | .decBit => (· = s.a)
  | .encBt n | .encBtr n | .decBt n | .decBtr n => treeCells s.a n
  | .encLit | .encLitm | .decLit | .decLitm => contextCells s.a
  | _ => fun _ => False

theorem not_treeCells {base n a : Nat} (h : a ≤ base ∨ base + 2 ^ n ≤ a) : ¬ treeCells base n a := by
  unfold treeCells; omega

theorem not_contextCells {base a : Nat} (h : a ≤ base ∨ a = base + 0x100 ∨ a = base + 0x200 ∨ base + 0x300 ≤ a) :
    ¬ contextCells base a := by
  unfold contextCells; omega

/-- A node of the tree of width `n`. -/
theorem treeCells_node {base n m : Nat} (hpos : 0 < m) (hlt : m < 2 ^ n) : treeCells base n (base + m) := by
  unfold treeCells; omega

/-- A node of the normal tree (`j = 0`) or of the tree of a match bit. -/
theorem contextCells_node {base j m : Nat} (hj : j < 3) (hpos : 0 < m) (hlt : m < 2 ^ 8) :
    contextCells base (base + (m + j <<< 8)) := by
  rw [Nat.shiftLeft_eq]
  unfold contextCells; omega

/-- The normal tree of a context. -/
theorem contextCells_of_treeCells {base a : Nat} (h : treeCells base 8 a) : contextCells base a := by
  unfold treeCells at h
  unfold contextCells; omega

/-! ### Encoding -/

theorem treeWalk_cells {base n : Nat} {bits : Nat → Bool} : ∀ e ∈ treeWalk base n bits, treeCells base n e.1 := by
  rintro _ he
  obtain ⟨k, hk, rfl⟩ := List.mem_map.mp he
  exact treeCells_node (treeNode_pos bits k) (treeNode_lt (List.mem_range.mp hk) bits)

theorem matchedNode_eq (bits mbits : Nat → Bool) (k : Nat) : ∃ j < 3, matchedNode bits mbits k = treeNode bits k + j <<< 8 := by
  have hb := Bool.toNat_le (mbits k)
  unfold matchedNode
  split_ifs
  · exact ⟨1 + (mbits k).toNat, by omega, rfl⟩
  · exact ⟨0, by omega, rfl⟩

theorem matchedWalk_cells {base : Nat} {bits mbits : Nat → Bool} :
    ∀ e ∈ matchedWalk base bits mbits, contextCells base e.1 := by
  rintro _ he
  obtain ⟨k, hk, rfl⟩ := List.mem_map.mp he
  obtain ⟨j, hj, hnode⟩ := matchedNode_eq bits mbits k
  change contextCells base (base + matchedNode bits mbits k)
  rw [hnode]
  exact contextCells_node hj (treeNode_pos bits k) (treeNode_lt (List.mem_range.mp hk) bits)

/-- The walk of an encoding command visits the command's cells alone. -/
theorem encodePathOf_cells {i : Instr} {s : State} {path : List (Nat × Bool)} (h : encodePathOf i s = some path) :
    ∀ e ∈ path, codingCells i s e.1 := by
  cases i with
  | encBit => cases h; intro e he; rw [List.mem_singleton.mp he]; rfl
  | encBt n => cases h; rw [treePath_eq_treeWalk]; exact treeWalk_cells
  | encBtr n => cases h; rw [reversePath_eq_treeWalk]; exact treeWalk_cells
  | encLit => cases h; rw [literalPath_eq_treeWalk]; exact fun e he => contextCells_of_treeCells (treeWalk_cells e he)
  | encLitm => cases h; rw [matchedPath_eq_matchedWalk]; exact matchedWalk_cells
  | _ => cases h

/-! ### Decoding -/

/-- Whatever bits it decodes, the walk goes through cells of `C` alone for `left` bits. -/
def Walk.staysIn (C : Nat → Prop) : Nat → Walk → Prop
  | 0, _ => True
  | left + 1, w => (∀ a ∈ w.cell, C a) ∧ ∀ bit, (w.advance bit).staysIn C left

theorem Walk.staysIn.mono {C D : Nat → Prop} (hCD : ∀ a, C a → D a) {left : Nat} {w : Walk} (h : w.staysIn C left) :
    w.staysIn D left := by
  induction left generalizing w with
  | zero => trivial
  | succ left ih => exact ⟨fun a ha => hCD a (h.1 a ha), fun bit => ih (h.2 bit)⟩

/-- From node `m` of a tree of width `n`, with at most the levels of the tree to go. -/
theorem tree_staysIn {base n left m : Nat} (hpos : 0 < m) (h : (m + 1) * 2 ^ left ≤ 2 ^ (n + 1)) :
    (Walk.tree base n m).staysIn (treeCells base n) left := by
  induction left generalizing m with
  | zero => trivial
  | succ left ih =>
    exact ⟨by rintro _ ⟨⟩; exact treeCells_node hpos (node_lt h), fun bit => ih (by omega) (pow_step h bit)⟩

theorem rev_staysIn {base n left i m acc : Nat} (hpos : 0 < m) (h : (m + 1) * 2 ^ left ≤ 2 ^ (n + 1)) :
    (Walk.rev base i m acc).staysIn (treeCells base n) left := by
  induction left generalizing i m acc with
  | zero => trivial
  | succ left ih =>
    exact ⟨by rintro _ ⟨⟩; exact treeCells_node hpos (node_lt h), fun bit => ih (by omega) (pow_step h bit)⟩

theorem litm_cell_node (base x : Nat) (mb : Byte) (same : Bool) :
    ∃ j < 3, (Walk.litm base x mb same).cell = some (base + (x + j <<< 8)) := by
  have hb := Bool.toNat_le mb.msb
  cases same
  · exact ⟨0, by omega, rfl⟩
  · exact ⟨1 + mb.msb.toNat, by omega, congrArg some (by simp only [if_true]; omega)⟩

theorem litm_staysIn {base left x : Nat} {mb : Byte} {same : Bool} (hpos : 0 < x) (h : (x + 1) * 2 ^ left ≤ 2 ^ (8 + 1)) :
    (Walk.litm base x mb same).staysIn (contextCells base) left := by
  induction left generalizing x mb same with
  | zero => trivial
  | succ left ih =>
    obtain ⟨j, hj, hcell⟩ := litm_cell_node base x mb same
    refine ⟨?_, fun bit => ih (by omega) (pow_step h bit)⟩
    rw [hcell]
    rintro _ ⟨⟩
    exact contextCells_node hj hpos (node_lt h)

theorem direct_staysIn (C : Nat → Prop) (left : Nat) (r : Word) : (Walk.direct r).staysIn C left := by
  induction left generalizing r with
  | zero => trivial
  | succ left ih => exact ⟨nofun, fun _ => ih _⟩

/-- A root has every level of its tree to go. -/
theorem root_fits (n : Nat) : (1 + 1) * 2 ^ n ≤ 2 ^ (n + 1) := by rw [Nat.pow_succ, Nat.mul_comm]

/-- The walk of a decoding command goes through the command's cells alone. -/
theorem decodeWalkOf_staysIn {i : Instr} {s : State} {n : Nat} {w : Walk} (h : decodeWalkOf i s = some (n, w)) :
    w.staysIn (codingCells i s) n := by
  cases i with
  | decBit => cases h; exact ⟨by rintro _ ⟨⟩; rfl, fun _ => trivial⟩
  | decDirect n => cases h; exact direct_staysIn _ _ _
  | decBt n => cases h; exact tree_staysIn Nat.one_pos (root_fits n)
  | decBtr n => cases h; exact rev_staysIn Nat.one_pos (root_fits n)
  | decLit => cases h; exact (tree_staysIn Nat.one_pos (root_fits 8)).mono fun _ => contextCells_of_treeCells
  | decLitm => cases h; exact litm_staysIn Nat.one_pos (root_fits 8)
  | _ => cases h

/-- A decoded bit changes its walk's cell alone. -/
theorem walkBit_cell_other {w : Walk} {s : State} {a : Nat} (h : a ∉ w.cell) : (w.split s).2.renormD.2.cell a = s.cell a := by
  rw [State.cell, renormD_cells, walkSplit_cells]
  cases hw : w.cell with
  | none => rfl
  | some b => exact Memory.read_write_other _ _ fun hab => h (by rw [hw, hab]; rfl)

theorem runWalk_cell_other {C : Nat → Prop} {n : Nat} {w : Walk} {s t : State} (hw : w.staysIn C n)
    (h : runWalk n w s = .next t) {a : Nat} (ha : ¬ C a) : t.cell a = s.cell a := by
  have hbit {left : Nat} {w : Walk} {u : State} (hs : w.staysIn C (left + 1)) (hu : u.cell a = s.cell a) :
      (w.split u).2.renormD.2.cell a = s.cell a :=
    (walkBit_cell_other fun hc => ha (hs.1 a hc)).trans hu
  have hK : Walk.Kept fun left w u => w.staysIn C left ∧ u.cell a = s.cell a :=
    fun _ _ _ hu _ => ⟨hu.1.2 _, hbit hu.1 hu.2⟩
  rcases runWalk_cases hK ⟨hw, rfl⟩ h with ⟨w', u, hu, rfl⟩ | ⟨k, w', u, hu, -, hst⟩
  · exact hu.2
  · exact (State.cell_congr (starve_cells hst) a).trans (hbit hu.1 hu.2)

/-! ### Every command -/

/-- A command but PROB_INIT and PROB_WRITE changes no cell outside its own. -/
theorem exec_cell_other {i : Instr} {s t : State} (h : exec i s = .next t) (hi : i ≠ .probInit) (hw : i ≠ .probWrite) {a : Nat}
    (ha : ¬ codingCells i s a) : t.cell a = s.cell a := by
  have g := exec_goes i s
  generalize exec i s = o at g h
  cases g with
  | probInit => exact absurd rfl hi
  | probWrite => exact absurd rfl hw
  | refusedOperands | wrongMode => exact State.cell_congr (raise_cells h) a
  | encodes _ hp =>
    obtain ⟨u, hu, -, rfl⟩ := encodeAlong_frame h
    exact encodePath_cell_other hu fun e he hea => ha (hea ▸ encodePathOf_cells hp e he)
  | encodesDirect =>
    obtain ⟨u, hu, rfl⟩ := finishEncode_eq_next.mp h
    exact State.cell_congr (encodeDirect_touch hu).2 a
  | encFlush => cases h; exact State.cell_congr (by simp) a
  | loads =>
    obtain ⟨u, -, hc, rfl | ⟨k, -, hst⟩⟩ := loadCode_frame h
    · exact State.cell_congr hc a
    · exact State.cell_congr ((starve_cells hst).trans hc) a
  | decodes _ hd => exact runWalk_cell_other (decodeWalkOf_staysIn hd) h ha
  | _ => cases h; rfl

end Sys2Proof.Machine

open Sys2Proof Sys2Proof.Machine

/-- Settles O56: the cells of a command are those of its tree or context, or cell A. -/
theorem codingCommandsStayInTheirCells : Obligations.CodingCommandsStayInTheirCells := by
  unfold Obligations.CodingCommandsStayInTheirCells
  refine fun s t a n => ⟨fun i hi h ha => ?_, fun i hi h ha => ?_, fun i hi h ha => ?_⟩
  · fin_cases hi <;> exact exec_cell_other h nofun nofun ha
  · fin_cases hi <;> exact exec_cell_other h nofun nofun (not_treeCells ha)
  · fin_cases hi <;> exact exec_cell_other h nofun nofun (not_contextCells ha)
end

section
/-! SUPPORT, then the settled statement. The context indices as numbers: the masks and shifts of CTX_LIT, CTX_POSSTATE and CTX_STPOS
are remainders and products, and their fields do not overlap (spec/44_literal.md R180, spec/45_state_machine.md R209, R210). -/

namespace Sys2Proof.Machine

theorem position24_eq (s : State) : s.position24 = s.latV.toNat / 2 ^ 8 := by
  rw [State.position24, BitVec.extractLsb'_toNat, Nat.shiftRight_eq_div_pow]
  exact Nat.mod_eq_of_lt (by omega)

/-! ### CTX_LIT -/

/-- The index of CTX_LIT: the low LP bits of the position above the high LC bits of the previous byte. -/
def literalContext (lc lp pos prev : Nat) : Nat := pos % 2 ^ lp * 2 ^ lc + prev / 2 ^ (8 - lc)

/-- The high LC bits of a byte fit in LC bits. -/
theorem highBits_lt {lc prev : Nat} (hlc : lc ≤ 8) (hprev : prev < 2 ^ 8) : prev / 2 ^ (8 - lc) < 2 ^ lc := by
  rw [Nat.div_lt_iff_lt_mul (Nat.two_pow_pos _), ← Nat.pow_add, Nat.add_sub_cancel' hlc]
  exact hprev

theorem literalContext_lt {lc lp pos prev : Nat} (hlc : lc ≤ 8) (hprev : prev < 2 ^ 8) :
    literalContext lc lp pos prev < 2 ^ (lc + lp) := by
  have hpos : pos % 2 ^ lp + 1 ≤ 2 ^ lp := Nat.mod_lt _ (Nat.two_pow_pos _)
  calc literalContext lc lp pos prev
      < pos % 2 ^ lp * 2 ^ lc + 2 ^ lc := Nat.add_lt_add_left (highBits_lt hlc hprev) _
    _ = (pos % 2 ^ lp + 1) * 2 ^ lc := (Nat.succ_mul _ _).symm
    _ ≤ 2 ^ lp * 2 ^ lc := Nat.mul_le_mul_right _ hpos
    _ = 2 ^ (lc + lp) := by rw [Nat.pow_add, Nat.mul_comm]

/-- The two parts of the index share no bit, so that their OR is their sum. -/
theorem literalContext_eq_or {lc lp pos prev : Nat} (hlc : lc ≤ 8) (hprev : prev < 2 ^ 8) :
    (pos &&& (2 ^ lp - 1)) <<< lc ||| prev >>> (8 - lc) = literalContext lc lp pos prev := by
  rw [Nat.and_two_pow_sub_one_eq_mod, Nat.shiftRight_eq_div_pow, ← Nat.shiftLeft_add_eq_or_of_lt (highBits_lt hlc hprev),
    Nat.shiftLeft_eq, literalContext]

theorem exec_ctxLit {s : State} (hlc : s.lc.toNat ≤ 8) :
    exec .ctxLit s = .next { s.idle with
      res := BitVec.ofNat 32 (literalContext s.lc.toNat s.lp.toNat (s.latV.toNat / 2 ^ 8) (s.latV.toNat % 2 ^ 8)) } := by
  have hprev : s.latV.toNat % 2 ^ 8 < 2 ^ 8 := Nat.mod_lt _ (Nat.two_pow_pos 8)
  change execCtxLit s = _
  rw [execCtxLit, position24_eq, lowByte_eq, literalContext_eq_or hlc hprev]
  rfl

/-! ### CTX_POSSTATE and CTX_STPOS -/

theorem posState_eq (s : State) : s.posState = s.latV.toNat % 2 ^ s.pb.toNat := Nat.and_two_pow_sub_one_eq_mod _ _

theorem posState_lt (s : State) : s.posState < 2 ^ s.pb.toNat := by
  rw [posState_eq]
  exact Nat.mod_lt _ (Nat.two_pow_pos _)

/-- A legal PB leaves the position state the four bits below STATE. -/
theorem posState_lt_of_pb_le {s : State} (hpb : s.pb.toNat ≤ 4) : s.posState < 2 ^ 4 :=
  (posState_lt s).trans_le (Nat.pow_le_pow_right Nat.two_pos hpb)

theorem exec_ctxPosState (s : State) : exec .ctxPosState s = .next { s.idle with res := BitVec.ofNat 32 s.posState } := rfl

theorem exec_ctxStPos {s : State} (hpb : s.pb.toNat ≤ 4) :
    exec .ctxStPos s = .next { s.idle with res := BitVec.ofNat 32 (s.state.toNat * 16 + s.posState) } := by
  change execCtxStPos s = _
  rw [execCtxStPos, ← Nat.shiftLeft_add_eq_or_of_lt (posState_lt_of_pb_le hpb), Nat.shiftLeft_eq]
  rfl

end Sys2Proof.Machine

open Sys2Proof Sys2Proof.Machine

/-- Settles O49: each index is a sum of fields that do not overlap, so that the width of its fields bounds it. -/
theorem contextCommandsReturnIndex : Obligations.ContextCommandsReturnIndex := by
  unfold Obligations.ContextCommandsReturnIndex
  refine ⟨⟨encodedAs_opcode rfl, encodedAs_opcode rfl, encodedAs_opcode rfl⟩, fun s ⟨hstate, hlc, _, hpb⟩ => ?_⟩
  have hprev : s.latV.toNat % 2 ^ 8 < 2 ^ 8 := Nat.mod_lt _ (Nat.two_pow_pos 8)
  have hposState := posState_lt_of_pb_le hpb
  dsimp only
  rw [← posState_eq]
  exact ⟨exec_ctxLit hlc, literalContext_lt hlc hprev, exec_ctxPosState s, posState_lt s, exec_ctxStPos hpb, by omega⟩
end

section
/-! SUPPORT, then the settled statements. The token state: what its transitions come to, and the commands that write and read it
(spec/45_state_machine.md R201 to R208). -/

namespace Sys2Proof.Machine

/-! ### Transitions -/

/-- Three literals in a row leave no trace of an earlier match (R203). -/
theorem afterLiteral_thrice {v : BitVec 4} (h : v.toNat ≤ 11) : afterLiteral (afterLiteral (afterLiteral v)) = 0 := by
  revert v; decide

/-! ### The commands -/

/-- The transition commands write STATE, then complete. -/
theorem complete_setState (s : State) (v : BitVec 4) : complete (s.setState v) = .next { s.idle with state := v } := rfl

/-- The reading commands write RES, then complete. -/
theorem completeWith_eq (s : State) (v : Word) : completeWith v s = .next { s.idle with res := v } := rfl

theorem exec_stIsChar (s : State) :
    exec .stIsChar s = .next { s.idle with res := if s.state.toNat < 7 then 1 else 0 } := by
  change completeWith (if s.isChar then 1 else 0) s = _
  rw [completeWith_eq, State.isChar]
  simp only [decide_eq_true_eq]

/-- STATE widened to 32 bits is the same number. -/
theorem exec_stRead (s : State) : exec .stRead s = .next { s.idle with res := BitVec.ofNat 32 s.state.toNat } := by
  rw [BitVec.ofNat_toNat]
  exact completeWith_eq s _

theorem State.status_isChar (s : State) : s.status.getLsbD 20 = decide (s.state.toNat < 7) := by
  simp [State.status_getElem, State.isChar]

end Sys2Proof.Machine

open Sys2Proof Sys2Proof.Machine

/-- Settles O47: the table is evaluated row by row; each command is its transition, in every MODE. -/
theorem tokenCommandsMoveState : Obligations.TokenCommandsMoveState := by
  unfold Obligations.TokenCommandsMoveState
  exact ⟨⟨encodedAs_opcode rfl, encodedAs_opcode rfl, encodedAs_opcode rfl, encodedAs_opcode rfl, encodedAs_opcode rfl⟩,
    by decide, fun s => ⟨complete_setState s _, complete_setState s _, complete_setState s _, complete_setState s _,
      complete_setState s _, afterLiteral_thrice⟩⟩

/-- Settles O48: each command is its result in RES, and ISCHAR is a bit of STATUS of its own. -/
theorem stateReadCommandsReturn : Obligations.StateReadCommandsReturn := by
  unfold Obligations.StateReadCommandsReturn
  exact ⟨⟨encodedAs_opcode rfl, encodedAs_opcode rfl⟩, fun s => ⟨exec_stIsChar s, s.status_isChar, exec_stRead s⟩⟩
end

section
/-! SUPPORT, then the settled statements. The control commands: the properties byte as a number in mixed radix, and the checks of
SETPROPS in their order (spec/46_control.md R220 to R222). -/

namespace Sys2Proof.Machine

/-! ### The properties byte -/

/-- LC and LP are the digits of the byte in radix 9 and 5, PB is what is left. -/
theorem propsByte_digits {lc lp : Nat} (hlc : lc ≤ 8) (hlp : lp ≤ 4) (pb : Nat) :
    ((pb * 5 + lp) * 9 + lc) % 9 = lc ∧ ((pb * 5 + lp) * 9 + lc) / 9 % 5 = lp ∧ ((pb * 5 + lp) * 9 + lc) / 45 = pb := by
  omega

theorem propsByte_of_digits (d : Nat) : d = (d / 45 * 5 + d / 9 % 5) * 9 + d % 9 := by omega

/-- Legal properties make a byte below 225 (R222). -/
theorem propsByte_lt {lc lp pb : Nat} (hlc : lc ≤ 8) (hlp : lp ≤ 4) (hpb : pb ≤ 4) : (pb * 5 + lp) * 9 + lc < 225 := by
  omega

/-! ### SETPROPS -/

/-- Past the checks of MODE and of the operand, the low byte of V is V, and the check of it is the last one. -/
theorem exec_setProps_of_byte {s : State} (hm : s.mode = .idle) (hv : s.latV.toNat < 256) :
    exec .setProps s =
      if 225 ≤ s.latV.toNat then raise .config s else complete (s.loadProps s.latV.toNat) := by
  have hbyte : s.lowByte = s.latV.toNat := (lowByte_eq s).trans (Nat.mod_eq_of_lt hv)
  rw [← hbyte]
  exact guarded_of_ok hm hv

theorem exec_setProps_of_ok {s : State} (hm : s.mode = .idle) (hv : s.latV.toNat < 225) :
    exec .setProps s = .next (s.loadProps s.latV.toNat).idle :=
  (exec_setProps_of_byte hm (hv.trans (by decide))).trans (if_neg hv.not_ge)

end Sys2Proof.Machine

open Sys2Proof Sys2Proof.Machine

/-- Settles O51: the digits of a legal byte are the properties it was made of, and every byte below 225 is legal. -/
theorem setPropsLoadsProperties : Obligations.SetPropsLoadsProperties := by
  unfold Obligations.SetPropsLoadsProperties
  refine ⟨encodedAs_opcode rfl, fun s => ⟨fun hm lc lp pb hlc hlp hpb hd => ?_, fun _ hv => ?_, exec_of_wrongMode rfl,
    fun hm hv => guarded_operand hm hv.not_gt,
    fun hm hlo hhi => (exec_setProps_of_byte hm hhi).trans (if_pos hlo)⟩⟩
  · obtain ⟨hlc', hlp', hpb'⟩ := propsByte_digits hlc hlp pb
    rw [exec_setProps_of_ok hm (hd ▸ propsByte_lt hlc hlp hpb), hd, State.loadProps, hlc', hlp', hpb']
    rfl
  · exact ⟨_, _, _, by omega, by omega, by omega, propsByte_of_digits _, rfl, rfl, rfl⟩

/-- Settles O50: a word read as NOP is the encoding of NOP, which is 0; NOP only ends itself, whatever MODE is. -/
theorem nopDoesNothing : Obligations.NopDoesNothing := by
  unfold Obligations.NopDoesNothing
  refine ⟨encodedAs_opcode rfl, fun w h => ?_, fun _ => rfl⟩
  obtain ⟨-, -, hw⟩ := decode_eq_ok h
  exact hw.symm.trans (encode_of_noCount rfl)
end

section
/-! SUPPORT, then the settled statements. How a fault is raised and what a pending one bars, and when a step waits for the host
(spec/60_exceptions.md R230, R234 to R239, R246, R247, spec/20_memory.md R61). -/

namespace Sys2Proof.Machine

/-! ### Raising a fault -/

/-- Raising with no fault pending ends the command and writes FAULT and FAULTINFO (R230, R234). -/
theorem eq_of_raise {c : FaultCode} {s t : State} (hs : s.fault = .none) (h : raise c s = .next t) :
    t = { s.idle with fault := t.fault, faultInfo := s.latW } := by
  rw [raise_eq_next, State.record_of_none hs] at h
  subst h; rfl

/-- Raising with a fault pending ends the command: the first fault wins (R239). -/
theorem raise_of_faulted {s : State} (h : s.fault ≠ .none) (c : FaultCode) : raise c s = .next s.idle := by
  rw [raise_eq_next, State.record_of_some h]

/-! ### A command word that the core does not accept -/

/-- While FAULT ≠ 0 a word written to CMD_W is dropped (R236). -/
theorem step_command_of_faulted {s : State} (h : s.hostMoves) {rest : List HostAct} {w : Word}
    (hh : s.host = .write s.cfg.rccBase 4 w :: rest) (hf : s.fault ≠ .none) : step s = .next { s with host := rest } := by
  rw [step_command h hh, writeCommand, if_pos hf]

/-- With FAULT = 0 and BUSY = 1 a word written to CMD_W is an Overrun (R237). -/
theorem step_command_of_busy {s : State} (h : s.hostMoves) {rest : List HostAct} {w : Word}
    (hh : s.host = .write s.cfg.rccBase 4 w :: rest) (hb : s.busy = true) (hf : s.fault = .none) :
    step s = .next { s with host := rest, fault := .overrun, faultInfo := w } := by
  rw [step_command h hh, writeCommand, if_neg (not_not_intro hf), if_pos hb, State.record_of_none (s := { s with host := rest }) hf]

/-! ### Waiting for the host -/

/-- With nothing pending the host's turn changes nothing (R246, R247). -/
theorem step_of_no_action {s : State} (h : s.hostMoves) (hh : s.host = []) : step s = .next s := by
  rw [step_hostTurn h, hostTurn, hh]

/-- What lifts a hold: a byte in the queue, or EOI = 1 (R61, R247). -/
theorem State.canGoOn_iff (s : State) : s.canGoOn = true ↔ s.inQueue ≠ [] ∨ s.eoi = true := by
  simp [State.canGoOn]

end Sys2Proof.Machine

open Sys2Proof Sys2Proof.Machine

/-- Settles O54: of the ways a command can leave FAULT, only its checks leave one of these codes with no fault pending, and a check
raises on the state it found. -/
theorem checkFaultsChangeNothingElse : Obligations.CheckFaultsChangeNothingElse := by
  unfold Obligations.CheckFaultsChangeNothingElse
  intro i s t h hs ht
  rcases exec_fault_cases h with hkept | ⟨m, -, -, hr⟩ | ⟨c, -, hr⟩ | ⟨u, hu, hr⟩
  · rw [hkept, hs] at ht; simp at ht
  · exact eq_of_raise hs hr
  · exact eq_of_raise hs hr
  · have hus : u.fault = .none := by rw [hu]; exact hs
    rw [fault_of_raise hus hr] at ht; simp at ht

/-- Settles O6: the word is dropped, and no other register's write reads FAULT. -/
theorem commandWordDroppedWhileFaulted : Obligations.CommandWordDroppedWhileFaulted := by
  unfold Obligations.CommandWordDroppedWhileFaulted
  exact fun s rest w h hf =>
    ⟨fun hh => step_command_of_faulted h hh hf, fun hh => step_write h (by decide) (by decide) (by decide) hh,
      fun hh => step_write h (by decide) (by decide) (by decide) hh,
      fun hh => step_write h (by decide) (by decide) (by decide) hh⟩

/-- Settles O7: Overrun is recorded beside the command that runs, and being pending it is what a later fault finds. -/
theorem overrunDiscardsWord : Obligations.OverrunDiscardsWord := by
  unfold Obligations.OverrunDiscardsWord
  refine ⟨fun s rest w h hh hb hf => step_command_of_busy h hh hb hf,
    fun s c hf => raise_of_faulted (by rw [hf]; decide) c, fun s h hb => ?_⟩
  obtain ⟨htask, hwait, -, -⟩ := h.run
  exact ⟨hwait.trans hb, htask.symm.trans hb⟩

/-- Settles O8: with no fault pending the code is recorded, with one pending nothing is; both then complete. -/
theorem commandEndsByRaiseOrCompletion : Obligations.CommandEndsByRaiseOrCompletion := by
  unfold Obligations.CommandEndsByRaiseOrCompletion
  refine fun s c => ⟨?_, rfl⟩
  by_cases hf : s.fault = .none
  · rw [raise_eq_next, State.record_of_none hf, if_pos hf, if_pos hf]; rfl
  · rw [raise_of_faulted hf, if_neg hf, if_neg hf]; rfl

/-- Settles O17: a hold that a byte or EOI lifts goes on, and every other step is the host's turn. -/
theorem holdsWaitForTheHost : Obligations.HoldsWaitForTheHost := by
  unfold Obligations.HoldsWaitForTheHost
  refine fun s => ⟨step_of_no_action, fun h bs rest hh => step_act h hh, fun k hk => ⟨fun hgo => ?_, fun hq he => .inr ?_⟩⟩
  · exact step_resume hk (s.canGoOn_iff.mpr hgo)
  · rw [Bool.eq_false_iff, Ne, s.canGoOn_iff]
    simp [hq, he]
end

section
/-! SUPPORT, then the settled statement. Chunked operation (spec/70_reset_and_hazards.md R271): what the host writes while a command
holds leaves the command alone, and where a command is fed its bytes does not show. -/

namespace Sys2Proof.Machine

/-! ### What decoding a bit does not read -/

/-- `m` leaves alone what decoding a bit up to RenormD reads and writes: the cells, DEC_RANGE and DEC_CODE. -/
structure SparesSplit (m : State → State) : Prop where
  kept : ∀ u, (m u).cells = u.cells ∧ (m u).decRange = u.decRange ∧ (m u).decCode = u.decCode
  setRange : ∀ u r, m { u with decRange := r } = { m u with decRange := r }
  setInterval : ∀ u r c, m { u with decRange := r, decCode := c } = { m u with decRange := r, decCode := c }
  adaptCell : ∀ (u : State) a bit, m (u.adaptCell a bit) = (m u).adaptCell a bit

theorem SparesSplit.decodeSplit {m : State → State} (hm : SparesSplit m) (s : State) (a : Nat) :
    (m s).decodeSplit a = ((s.decodeSplit a).1, m (s.decodeSplit a).2) := by
  obtain ⟨hcells, hrange, hcode⟩ := hm.kept s
  have hcell : (m s).cell a = s.cell a := congrArg (Memory.read · a) hcells
  rcases Nat.lt_or_ge s.decCode.toNat (bound s.decRange (s.cell a)).toNat with h | h
  · rw [decodeSplit_of_lt h, decodeSplit_of_lt (by rwa [hcode, hrange, hcell]), hrange, hcell, hm.adaptCell,
      hm.setRange s (bound s.decRange (s.cell a))]
  · rw [decodeSplit_of_ge h, decodeSplit_of_ge (by rwa [hcode, hrange, hcell]), hrange, hcode, hcell, hm.adaptCell,
      hm.setInterval s (s.decRange - bound s.decRange (s.cell a))]

theorem SparesSplit.decodeHalf {m : State → State} (hm : SparesSplit m) (s : State) :
    (m s).decodeHalf = (s.decodeHalf.1, m s.decodeHalf.2) := by
  obtain ⟨-, hrange, hcode⟩ := hm.kept s
  cases h : (s.decCode - s.decRange >>> 1).msb with
  | true => rw [decodeHalf_of_msb h, decodeHalf_of_msb (by rwa [hcode, hrange]), hrange, hm.setRange s (s.decRange >>> 1)]
  | false =>
    rw [decodeHalf_of_not_msb h, decodeHalf_of_not_msb (by rwa [hcode, hrange]), hrange, hcode,
      hm.setInterval s (s.decRange >>> 1)]

theorem SparesSplit.walkSplit {m : State → State} (hm : SparesSplit m) (w : Walk) (s : State) :
    w.split (m s) = ((w.split s).1, m (w.split s).2) := by
  unfold Walk.split
  split
  · exact hm.decodeSplit s _
  · exact hm.decodeHalf s

/-! ### What the host writes beside a command -/

/-- What the host may have written beside a command that holds: CMD_A, CMD_V, its actions and what it read, and perhaps a pending
fault (an Overrun) with its FAULTINFO. -/
structure Beside where
  cmdA : BitVec 24
  cmdV : Word
  host : List HostAct
  reads : List Word
  freeCtr : Nat
  pending : Option (FaultCode × Word)
  isFault : ∀ p ∈ pending, p.1 ≠ .none

/-- `u` with what the host has written beside the command. -/
def Beside.on (m : Beside) (u : State) : State :=
  { u with
    cmdA := m.cmdA, cmdV := m.cmdV, host := m.host, reads := m.reads, freeCtr := m.freeCtr
    fault := (m.pending.map Prod.fst).getD u.fault
    faultInfo := (m.pending.map Prod.snd).getD u.faultInfo }

section
variable (m : Beside)

theorem Beside.on_sparesSplit : SparesSplit m.on :=
  ⟨fun _ => ⟨rfl, rfl, rfl⟩, fun _ _ => rfl, fun _ _ _ => rfl, fun _ _ _ => rfl⟩

theorem Beside.renormOver_on (q : List Byte) (s : State) :
    renormOver q (m.on s) = ((renormOver q s).1, m.on (renormOver q s).2) := by
  have hr (u : State) : (m.on u).decRange = u.decRange := rfl
  induction q generalizing s with
  | nil => rfl
  | cons b q ih =>
    simp only [renormOver, hr]
    split_ifs
    · rfl
    · exact ih (s.renormByte b q)

theorem Beside.renormD_on (s : State) : (m.on s).renormD = (s.renormD.1, m.on s.renormD.2) := m.renormOver_on s.inQueue s

variable {s t : State}

theorem Beside.complete_on (h : complete s = .next t) : complete (m.on s) = .next (m.on t) := by
  rw [complete_eq_next] at h ⊢; rw [h]; rfl

/-- The first fault stays: a fault pending beside the command is kept, and else the command's own is recorded (R237, R239). -/
theorem Beside.record_on (s : State) (c : FaultCode) (w : Word) : (m.on s).record c w = m.on (s.record c w) := by
  cases hp : m.pending with
  | some p =>
    have hf : (m.on s).fault ≠ .none := by simpa [Beside.on, hp] using m.isFault p hp
    rw [State.record_of_some hf, State.record_frame]
    simp [Beside.on, hp]
  | none =>
    have hf : (m.on s).fault = s.fault := by simp [Beside.on, hp]
    by_cases hs : s.fault = .none
    · rw [State.record_of_none hs, State.record_of_none (hf.trans hs)]
      simp [Beside.on, hp]
    · rw [State.record_of_some hs, State.record_of_some (hf ▸ hs)]

theorem Beside.starve_on {k : Task} (h : starve k s = .next t) : starve k (m.on s) = .next (m.on t) := by
  rcases starve_eq_next.mp h with ⟨he, rfl⟩ | ⟨he, rfl⟩
  · exact starve_eq_next.mpr (.inl ⟨he, congrArg State.idle (m.record_on s .truncated s.latW).symm⟩)
  · exact starve_eq_next.mpr (.inr ⟨he, rfl⟩)

theorem Beside.runWalk_on {n : Nat} {w : Walk} (h : runWalk n w s = .next t) : runWalk n w (m.on s) = .next (m.on t) := by
  induction n generalizing w s with
  | zero => exact m.complete_on h
  | succ n ih =>
    simp only [runWalk, m.on_sparesSplit.walkSplit, m.renormD_on] at h ⊢
    split_ifs at h ⊢
    · exact ih h
    · exact m.starve_on h

theorem Beside.resumeWalk_on {n : Nat} {w : Walk} (h : resumeWalk n w s = .next t) :
    resumeWalk n w (m.on s) = .next (m.on t) := by
  simp only [resumeWalk, m.renormD_on] at h ⊢
  split_ifs at h ⊢
  · exact m.runWalk_on h
  · exact m.starve_on h

theorem Beside.loadCode_on {n : Nat} (h : loadCode n s = .next t) : loadCode n (m.on s) = .next (m.on t) := by
  induction n generalizing s with
  | zero => exact m.complete_on h
  | succ n ih =>
    simp only [loadCode, show (m.on s).inQueue = s.inQueue from rfl]
    rw [loadCode] at h
    cases hq : s.inQueue with
    | nil => rw [hq] at h; exact m.starve_on h
    | cons b q => rw [hq] at h; exact ih h

/-- What the host writes beside a held command leaves what the command goes on to do alone. -/
theorem Beside.resume_on {k : Task} (h : resume k s = .next t) : resume k (m.on s) = .next (m.on t) := by
  cases k with
  | load n => exact m.loadCode_on h
  | walk n w => exact m.resumeWalk_on h

end

/-! ### Bytes that join the queue -/

theorem offerBytes_sparesSplit (bs : List Byte) : SparesSplit fun u => u.offerBytes bs :=
  ⟨fun _ => ⟨rfl, rfl, rfl⟩, fun _ _ => rfl, fun _ _ _ => rfl, fun _ _ _ => rfl⟩

theorem walkSplit_offerBytes (w : Walk) (s : State) (bs : List Byte) :
    w.split (s.offerBytes bs) = ((w.split s).1, (w.split s).2.offerBytes bs) := (offerBytes_sparesSplit bs).walkSplit w s

/-- RenormD with `bs` behind the queue: it ends where it did, or goes on over `bs` from where the queue ran out. -/
theorem renormD_offerBytes (s : State) (bs : List Byte) :
    (s.offerBytes bs).renormD =
      if s.renormD.1 then (true, s.renormD.2.offerBytes bs) else (s.renormD.2.offerBytes bs).renormD := by
  induction hq : s.inQueue generalizing s with
  | nil =>
    rcases Nat.lt_or_ge s.decRange.toNat (2 ^ 24) with hr | hr
    · rw [renormD_of_empty hr hq]; rfl
    · rw [renormD_of_wide hr]; exact renormD_of_wide hr
  | cons b q ih =>
    rcases Nat.lt_or_ge s.decRange.toNat (2 ^ 24) with hr | hr
    · rw [renormD_of_narrow hr hq, renormD_of_narrow (s := s.offerBytes bs) hr (by rw [State.offerBytes_inQueue, hq]; rfl)]
      exact ih (s.renormByte b q) rfl
    · rw [renormD_of_wide hr]; exact renormD_of_wide hr

/-! ### Going on after a hold -/

/-- A command runs, and nothing holds. -/
abbrev State.onTheMove (s : State) : Prop := s.busy = true ∧ s.inWait = false ∧ s.task = none

/-- Holding and going on leaves only the bytes that came. -/
theorem unhold_hold {s : State} (h : s.onTheMove) (k : Task) (bs : List Byte) :
    ((s.hold k).offerBytes bs).unhold = s.offerBytes bs := by
  obtain ⟨hb, hw, hk⟩ := h
  simp only [State.offerBytes, State.hold, State.unhold]
  rw [← hb, ← hw, ← hk]

/-- Where the answer `o` is a hold, going on with the bytes `bs` comes to `o'`. -/
def GoesOnTo (bs : List Byte) (o o' : Out) : Prop :=
  ∀ t k, o = .next t → t.task = some k → resume k (t.offerBytes bs) = o'

section
variable {bs : List Byte}

theorem GoesOnTo.complete (s : State) (o' : Out) : GoesOnTo bs (complete s) o' := by
  intro t k h hk
  rw [complete_eq_next] at h; subst h; cases hk

theorem GoesOnTo.ite {P : Prop} [Decidable P] {a b a' b' : Out} (ha : GoesOnTo bs a a') (hb : GoesOnTo bs b b') :
    GoesOnTo bs (if P then a else b) (if P then a' else b') := by
  split_ifs
  · exact ha
  · exact hb

/-- What running out of bytes comes to, once bytes are there: what is left of the command, from the same state with these bytes. -/
theorem GoesOnTo.starve {s : State} (h : s.onTheMove) (k : Task) {o' : Out}
    (ho : ∀ u : State, u.unhold = s.offerBytes bs → resume k u = o') : GoesOnTo bs (starve k s) o' := by
  intro t k' ht hk
  rcases starve_eq_next.mp ht with ⟨-, rfl⟩ | ⟨-, rfl⟩
  · cases hk
  · cases hk
    exact ho _ (unhold_hold h k bs)

theorem GoesOnTo.runWalk (n : Nat) (w : Walk) {s : State} (h : s.onTheMove) :
    GoesOnTo bs (runWalk n w s) (runWalk n w (s.offerBytes bs)) := by
  induction n generalizing w s with
  | zero => exact .complete _ _
  | succ n ih =>
    have hmove : (w.split s).2.renormD.2.onTheMove := by
      rw [(walkSplit_touch w s).1.trans (renormD_touch _)]; exact h
    simp only [Machine.runWalk, walkSplit_offerBytes, renormD_offerBytes (w.split s).2]
    cases hend : (w.split s).2.renormD.1 with
    | true => exact ih _ hmove
    | false => exact .starve hmove _ fun u hu => by rw [resume, hu]; rfl

theorem GoesOnTo.loadCode (n : Nat) {s : State} (h : s.onTheMove) :
    GoesOnTo bs (loadCode n s) (loadCode n (s.offerBytes bs)) := by
  induction n generalizing s with
  | zero => exact .complete _ _
  | succ n ih =>
    rw [Machine.loadCode]
    cases hq : s.inQueue with
    | nil => exact .starve h _ fun u hu => by rw [resume, hu]
    | cons b q =>
      rw [Machine.loadCode, State.offerBytes_inQueue, hq]
      exact ih (s := (s.takeByte q).shiftCode b) h

/-- A decoding command: its checks of MODE and operands, which no byte of the queue changes, then its walk. -/
theorem GoesOnTo.guarded {m : Mode} {P : Prop} [Decidable P] {s : State} {k k' : Out} (hk : GoesOnTo bs k k') :
    GoesOnTo bs (if s.mode ≠ m then raise .mode s else if ¬ P then raise .operand s else k)
      (if s.mode ≠ m then raise .mode (s.offerBytes bs) else if ¬ P then raise .operand (s.offerBytes bs) else k') :=
  .ite (.complete _ _) (.ite (.complete _ _) hk)

/-- A command that holds and goes on with the bytes offered does what it does with them in the queue from the start. -/
theorem exec_goesOnTo (i : Instr) {s : State} (h : s.onTheMove) (bs : List Byte) :
    GoesOnTo bs (exec i s) (exec i (s.offerBytes bs)) := by
  intro t k ht hk
  obtain ⟨-, ⟨hnone, -⟩ | ⟨hd, -⟩⟩ := exec_ends ht
  · rw [hnone] at hk; cases hk
  suffices hgo : GoesOnTo bs (exec i s) (exec i (s.offerBytes bs)) from hgo t k ht hk
  cases i with
  | decInit =>
    exact .ite (.complete _ _) (.loadCode 5 (s := { s with decRange := 0xFFFFFFFF, decCode := 0, incnt := 0 }) h)
  | decBit => exact .guarded (.runWalk _ _ h)
  | decDirect n => exact .guarded (.runWalk _ _ h)
  | decBt n => exact .guarded (.runWalk _ _ h)
  | decBtr n => exact .guarded (.runWalk _ _ h)
  | decLit => exact .guarded (.runWalk _ _ h)
  | decLitm => exact .guarded (.runWalk _ _ h)
  | _ => simp [mayWrite] at hd

end

end Sys2Proof.Machine

open Sys2Proof Sys2Proof.Machine

/-- Settles O45: what the host writes meanwhile commutes with going on (`Beside.resume_on`), with and without a pending fault, and
offered bytes are taken from where the queue ran out (`exec_goesOnTo`). -/
theorem chunkedDecodeSameAsWhole : Obligations.ChunkedDecodeSameAsWhole := by
  unfold Obligations.ChunkedDecodeSameAsWhole
  refine ⟨fun s t k a v rest got drawn h => ⟨?_, fun f x hf => ?_⟩, fun i s t k bs hb hw hn h hk => ?_⟩
  · exact Beside.resume_on ⟨a, v, rest, got, drawn, none, by simp⟩ h
  · exact Beside.resume_on (s := s) (t := t) ⟨a, v, rest, got, drawn, some (f, x), by simpa using hf⟩ h
  · exact exec_goesOnTo i ⟨hb, hw, hn⟩ bs t k h hk
end

section
/-! SUPPORT, then the settled statements. What a reset leaves (spec/70_reset_and_hazards.md R260 to R262). -/

namespace Sys2Proof.Machine

/-- CTRL.SOFT_RESET alone is the reset (10_state.md R37). -/
theorem State.writeCtrl_softReset (s : State) : s.writeCtrl 1 = s.doReset := rfl

theorem State.doReset_status (s : State) : s.doReset.status = 0x00100000 :=
  (show s.doReset.status = State.reset.status from rfl).trans (by decide)

theorem State.doReset_props (s : State) : s.doReset.props = 0x00000203 :=
  (show s.doReset.props = State.reset.props from rfl).trans (by decide)

/-- Either reset, on the host's turn, resets the core (R260). -/
theorem step_reset {s : State} (h : s.hostMoves) {rest : List HostAct}
    (hh : s.host = .hardReset :: rest ∨ s.host = .write (s.cfg.rccBase + 0x14) 4 1 :: rest) :
    step s = .next (State.doReset { s with host := rest }) := by
  rcases hh with hh | hh
  · exact step_act h hh
  · rw [step_write h (by decide) (by decide) (by decide) hh]
    exact congrArg _ (State.writeCtrl_softReset _)

end Sys2Proof.Machine

open Sys2Proof Sys2Proof.Machine

/-- Settles O9: both resets are `doReset`, whose fields are the reset values; STATUS and PROPS are computed from them. -/
theorem resetRestoresEverything : Obligations.ResetRestoresEverything := by
  unfold Obligations.ResetRestoresEverything
  exact fun s rest h hh => ⟨_, step_reset h hh, fun _ => rfl, State.doReset_status _, State.doReset_props _, rfl⟩

/-- Settles O58: `resetWith_inv` for the invariant, and DEC_RANGE is all ones at reset. -/
theorem invariantHoldsAtReset : Obligations.InvariantHoldsAtReset := by
  unfold Obligations.InvariantHoldsAtReset
  have hrange (c : Config) : (State.resetWith c).decoderOk := .inl (show 2 ^ 24 ≤ (0xFFFFFFFF : Word).toNat by decide)
  exact ⟨resetWith_inv (by decide), hrange _, fun c hc => ⟨resetWith_inv hc, hrange c⟩⟩
end
